-- ==== Sys2Proof/Word.lean ====
section
/-! DEFINITION. The word types of BBX: bus words, bytes, binary32 patterns, pixels. -/

namespace Sys2Proof

/-- A bus word or register (20_memory.md R120, R130). -/
abbrev Word := BitVec 32

/-- One byte of a window word or of TEXTBUF (20_memory.md R131). -/
abbrev Byte := BitVec 8

/-- A binary32 value as its bit pattern: bit 31 sign, [30:23] exponent, [22:0] fraction
(20_memory.md R130). Its arithmetic is in Machine/Float32.lean. -/
abbrev F32 := BitVec 32

/-- A 24-bit colour, blue in [23:16], green in [15:8], red in [7:0] (20_memory.md R132). -/
abbrev Pixel := BitVec 24

end Sys2Proof
end

