-- ==== Sys2Proof/Config.lean ====
section
/-! DEFINITION. What an implementation of BBX fixes (00_scope.md R7) and the values the spec leaves open. -/

namespace Sys2Proof

/-- The agents that take steps (00_scope.md R6). `timer` is the scan timer of the scan engine: one of its
turns is one system clock cycle (43_led_scan.md R378; notes 12). -/
inductive Agent where
  | host | le | se | sy | timer
  deriving DecidableEq, Repr, Inhabited

/-- The implementation parameters of 00_scope.md R7 that are data. CH_BITS = 8, SINE_N = 256 and NPARAM = 8
are fixed there; ADDR_BITS is derived (Machine/ConfigCheck.lean); FONT, EXP32, LN32 and RAM_RESET are the free
values below; `synCycles` is SYN_CYCLES of 70_reset_and_hazards.md R490 and serves the timed reading only: no rule gives it
a range, so the configuration check does not look at it (notes 13). -/
structure Params where
  w : Nat
  h : Nat
  depth : Nat
  gw : Nat
  gh : Nat
  textMax : Nat
  sampleRate : Nat
  maxSamples : Nat
  numCtl : Nat
  decayEps : F32
  engageTol : F32
  palette : List Pixel
  scanPeriodReset : Nat
  holdUnitReset : Nat
  synCycles : Nat
  deriving DecidableEq, Repr

/-- The reference configuration: every default of 00_scope.md R7, with the palette of 42_led_draw.md R334. -/
def Params.reference : Params where
  w := 64
  h := 64
  depth := 4
  gw := 5
  gh := 7
  textMax := 64
  sampleRate := 8000
  maxSamples := 16384
  numCtl := 1
  decayEps := 0x3A83126F#32
  engageTol := 0x3D4CCCCD#32
  palette := [0x0000FF#24, 0x007FFF#24, 0x00FFFF#24, 0x00FF00#24, 0xFF0000#24, 0x82004B#24, 0xD30094#24]
  scanPeriodReset := 2048
  holdUnitReset := 16
  synCycles := 8

/-- Free value: which agent moves next once the turns given in the state are used up (I28; notes 1). -/
opaque Config.schedule : Nat → Agent

/-- Free value RAM_RESET: the byte at a bus offset after the given hard reset
(10_state.md R63, R78; I20, I21; notes 4). -/
opaque Config.ramReset : Nat → Nat → Byte

/-- Free value: the k-th answer of the NOISE oracle past the answers given in the state, before it is
held to [-1, 1] (40_synth.md R221; I22; notes 5). -/
opaque Config.noiseRaw : Nat → F32

/-- Free value: EXP32 before the properties of 00_scope.md R9 are imposed on it (I25; notes 6). -/
opaque Config.expRaw : F32 → F32

/-- Free value: LN32 before the properties of 00_scope.md R9 are imposed on it (I25; notes 7). -/
opaque Config.lnRaw : F32 → F32

/-- Free value FONT: is the pixel at row j, column i of the glyph of a character lit
(42_led_draw.md R330; I23; notes 8)? Arguments: character, j, i. -/
opaque Config.fontBit : Byte → Nat → Nat → Bool

/-- Free value: sign and payload of the quiet NaN that operation number `op` gives on two operands; IEEE 754
fixes neither and no rule of the spec does (notes 9). -/
opaque Config.nanBits : Nat → F32 → F32 → BitVec 23

/-- Free value: `trunc` of an infinity or a NaN, which 00_scope.md R12 defines for finite values only (notes 10). -/
opaque Config.truncNonFinite : F32 → Int

end Sys2Proof
end

