-- ==== Sys2Proof/Syntax.lean ====
section
/-! DEFINITION. The instructions of BBX: one constructor per row of spec/opcode_table.json, and the bus access that
carries one. -/

namespace Sys2Proof

/-- One access on the host port (20_memory.md R120): `bus_we`, the byte offset A in the 1 MiB aperture (R121) and
`bus_wdata`. The port itself carries A[19:2] only (R123). -/
structure Access where
  we : Bool
  addr : BitVec 20
  wdata : Word
  deriving DecidableEq, Repr

/-- The commands and register operations of 30_encoding.md R165 to R168. Operands that the command reads from
registers are no syntax; what the access itself carries is: a PCMD word's CTL and PIDX (R163), a register write's
data word, the word index of TEXTBUF (44_control.md R408), the pixel index of the FB window (20_memory.md R126), the
word offset A[19:2] of a read (44_control.md R413). -/
inductive Instr where
  | ledNop
  | ledClear
  | ledFill
  | ledPixel
  | ledRect
  | ledFrect
  | ledCircle
  | ledFcircle
  | ledText
  | ledRtext
  | ledScroll
  | ledRscroll
  | ledSstep
  | ledSstop
  | synNop
  | synGenerate
  | pmNop
  | pmUpdate (c : BitVec 4)
  | pmSelect (c : BitVec 4) (k : BitVec 3)
  | pmNext (c : BitVec 4)
  | pmPrev (c : BitVec 4)
  | wrCtrl (v : Word)
  | wrStatus (v : Word)
  | wrIrqPend (v : Word)
  | wrIrqEn (v : Word)
  | wrScanPeriod (v : Word)
  | wrHoldUnit (v : Word)
  | wrLarg0 (v : Word)
  | wrLarg1 (v : Word)
  | wrLarg2 (v : Word)
  | wrLcolor (v : Word)
  | wrTextLen (v : Word)
  | wrTextbuf (m : BitVec 4) (v : Word)
  | wrFreq (v : Word)
  | wrAmp (v : Word)
  | wrDecay (v : Word)
  | wrWave (v : Word)
  | wrOffset (v : Word)
  | wrPdecay (v : Word)
  | wrNmix (v : Word)
  | wrEnvc (v : Word)
  | wrComp (v : Word)
  | wrCapacity (v : Word)
  | wrSmode (v : Word)
  | wrPmRaw (v : Word)
  | wrFb (j : BitVec 16) (v : Word)
  | rd (a : BitVec 18)
  deriving DecidableEq, Repr

end Sys2Proof
end

