-- ==== Sys2Proof/WellFormed.lean ====
section
/-! DEFINITION. Which instructions are legal in a configuration. -/

namespace Sys2Proof

/-- The control index of a PCMD word is legal when CTL < NUM_CTL (30_encoding.md R163, R170). -/
def ctlLegal (p : Params) (c : BitVec 4) : Bool := decide (c.toNat < p.numCtl)

/-- An instruction is well-formed in configuration `p`. Field widths are in the types; the one check the spec
makes beyond them is the control index of the mapper commands (30_encoding.md R170). Every other command and every
register access is legal with any operands. -/
def Instr.wf (p : Params) : Instr → Bool
  | .pmUpdate c => ctlLegal p c
  | .pmSelect c _ => ctlLegal p c
  | .pmNext c => ctlLegal p c
  | .pmPrev c => ctlLegal p c
  | .ledNop | .ledClear | .ledFill | .ledPixel | .ledRect | .ledFrect | .ledCircle | .ledFcircle
  | .ledText | .ledRtext | .ledScroll | .ledRscroll | .ledSstep | .ledSstop
  | .synNop | .synGenerate | .pmNop
  | .wrCtrl _ | .wrStatus _ | .wrIrqPend _ | .wrIrqEn _ | .wrScanPeriod _ | .wrHoldUnit _
  | .wrLarg0 _ | .wrLarg1 _ | .wrLarg2 _ | .wrLcolor _ | .wrTextLen _ | .wrTextbuf _ _
  | .wrFreq _ | .wrAmp _ | .wrDecay _ | .wrWave _ | .wrOffset _ | .wrPdecay _ | .wrNmix _
  | .wrEnvc _ | .wrComp _ | .wrCapacity _ | .wrSmode _ | .wrPmRaw _ | .wrFb _ _ | .rd _ => true

end Sys2Proof
end

