-- ==== Sys2Proof/Decode.lean ====
section
/-! DEFINITION. What a bus access stands for (30_encoding.md R160 to R173, 20_memory.md R125), and the encoder. -/

namespace Sys2Proof

/-- What the decoder reads from an access. `reservedL`, `reservedS` and `reservedP` are the reserved words of LCMD,
SCMD and PCMD (30_encoding.md R170) that no configuration makes legal; `ignored` is a write to a read-only register, a
window that takes none, or an unmapped offset (20_memory.md R128, 44_control.md R413). A PCMD word whose only fault
is CTL >= NUM_CTL decodes to its instruction, which is then not well-formed; its meaning drops it (notes 20). -/
inductive Decoded where
  | instr (i : Instr)
  | reservedL
  | reservedS
  | reservedP
  | ignored
  deriving DecidableEq, Repr

/-- Offset of LCMD (10_state.md R59). -/
def lcmdOffset : BitVec 20 := 0x00050#20
/-- Offset of SCMD (10_state.md R74). -/
def scmdOffset : BitVec 20 := 0x0022C#20
/-- Offset of PCMD (10_state.md R91). -/
def pcmdOffset : BitVec 20 := 0x00284#20

/-- Format L: OP in [7:0], RSV [31:8] must be 0 (30_encoding.md R161, R165, R170). -/
def decodeL (x : Word) : Decoded :=
  if x.toNat / 256 = 0 then
    match x.toNat with
    | 0x00 => .instr .ledNop
    | 0x01 => .instr .ledClear
    | 0x02 => .instr .ledFill
    | 0x03 => .instr .ledPixel
    | 0x04 => .instr .ledRect
    | 0x05 => .instr .ledFrect
    | 0x06 => .instr .ledCircle
    | 0x07 => .instr .ledFcircle
    | 0x08 => .instr .ledText
    | 0x09 => .instr .ledRtext
    | 0x0A => .instr .ledScroll
    | 0x0B => .instr .ledRscroll
    | 0x0C => .instr .ledSstep
    | 0x0D => .instr .ledSstop
    | _ => .reservedL
  else .reservedL

/-- Format S: OP in [7:0], RSV [31:8] must be 0 (30_encoding.md R162, R166, R170). -/
def decodeS (x : Word) : Decoded :=
  if x.toNat / 256 = 0 then
    match x.toNat with
    | 0x00 => .instr .synNop
    | 0x01 => .instr .synGenerate
    | _ => .reservedS
  else .reservedS

/-- Format P: OP [7:0], CTL [11:8], PIDX [14:12] (0 but for SELECT), RSV [31:15] = 0; a NOP has CTL = 0 as well
(30_encoding.md R163, R167, R170). -/
def decodeP (x : Word) : Decoded :=
  let op := x.extractLsb' 0 8
  let c := x.extractLsb' 8 4
  let k := x.extractLsb' 12 3
  let rsv := x.extractLsb' 15 17
  if rsv = 0#17 then
    if op = 0x02#8 then .instr (.pmSelect c k)
    else if k = 0#3 then
      if op = 0x00#8 then (if c = 0#4 then .instr .pmNop else .reservedP)
      else if op = 0x01#8 then .instr (.pmUpdate c)
      else if op = 0x03#8 then .instr (.pmNext c)
      else if op = 0x04#8 then .instr (.pmPrev c)
      else .reservedP
    else .reservedP
  else .reservedP

/-- A write of `v` to the single register at word-aligned byte offset `a`, below the windows
(10_state.md R42, 30_encoding.md R168). -/
def decodeRegWrite (a : Nat) (v : Word) : Decoded :=
  match a with
  | 0x004 => .instr (.wrCtrl v)
  | 0x008 => .instr (.wrStatus v)
  | 0x00C => .instr (.wrIrqPend v)
  | 0x010 => .instr (.wrIrqEn v)
  | 0x020 => .instr (.wrScanPeriod v)
  | 0x024 => .instr (.wrHoldUnit v)
  | 0x040 => .instr (.wrLarg0 v)
  | 0x044 => .instr (.wrLarg1 v)
  | 0x048 => .instr (.wrLarg2 v)
  | 0x04C => .instr (.wrLcolor v)
  | 0x050 => decodeL v
  | 0x054 => .instr (.wrTextLen v)
  | 0x200 => .instr (.wrFreq v)
  | 0x204 => .instr (.wrAmp v)
  | 0x208 => .instr (.wrDecay v)
  | 0x20C => .instr (.wrWave v)
  | 0x210 => .instr (.wrOffset v)
  | 0x214 => .instr (.wrPdecay v)
  | 0x218 => .instr (.wrNmix v)
  | 0x21C => .instr (.wrEnvc v)
  | 0x220 => .instr (.wrComp v)
  | 0x224 => .instr (.wrCapacity v)
  | 0x228 => .instr (.wrSmode v)
  | 0x22C => decodeS v
  | 0x280 => .instr (.wrPmRaw v)
  | 0x284 => decodeP v
  | _ => .ignored

/-- A write of `v` at word index `n` = A[19:2]: the FB window (20_memory.md R126), TEXTBUF (44_control.md R408), or a
single register. -/
def decodeWrite (n : BitVec 18) (v : Word) : Decoded :=
  if n.toNat / 0x10000 = 1 then .instr (.wrFb (n.extractLsb' 0 16) v)
  else if n.toNat / 16 = 4 then .instr (.wrTextbuf (n.extractLsb' 0 4) v)
  else decodeRegWrite (4 * n.toNat) v

/-- The decoder, total on every access. Offset bits [1:0] do not reach the port (20_memory.md R123); every read is
an RD (44_control.md R413). -/
def decode (x : Access) : Decoded :=
  let n := x.addr.extractLsb' 2 18
  if x.we then decodeWrite n x.wdata else .instr (.rd n)

/-- The command word of a PCMD instruction (30_encoding.md R163, R178): RSV, PIDX, CTL, OP from the top. -/
def pWord (k : BitVec 3) (c : BitVec 4) (op : BitVec 8) : Word := (0#17 ++ k ++ c ++ op : BitVec 32)

/-- The byte offset of word index `n`. -/
def wordOffset (n : BitVec 18) : BitVec 20 := (n ++ 0#2 : BitVec 20)

/-- The encoder: the access that carries an instruction, from the opcode maps R165 to R168 and the offsets of
10_state.md R42. A read carries no data; its `wdata` is 0. -/
def encode : Instr → Access
  | .ledNop => ⟨true, lcmdOffset, 0x00#32⟩
  | .ledClear => ⟨true, lcmdOffset, 0x01#32⟩
  | .ledFill => ⟨true, lcmdOffset, 0x02#32⟩
  | .ledPixel => ⟨true, lcmdOffset, 0x03#32⟩
  | .ledRect => ⟨true, lcmdOffset, 0x04#32⟩
  | .ledFrect => ⟨true, lcmdOffset, 0x05#32⟩
  | .ledCircle => ⟨true, lcmdOffset, 0x06#32⟩
  | .ledFcircle => ⟨true, lcmdOffset, 0x07#32⟩
  | .ledText => ⟨true, lcmdOffset, 0x08#32⟩
  | .ledRtext => ⟨true, lcmdOffset, 0x09#32⟩
  | .ledScroll => ⟨true, lcmdOffset, 0x0A#32⟩
  | .ledRscroll => ⟨true, lcmdOffset, 0x0B#32⟩
  | .ledSstep => ⟨true, lcmdOffset, 0x0C#32⟩
  | .ledSstop => ⟨true, lcmdOffset, 0x0D#32⟩
  | .synNop => ⟨true, scmdOffset, 0x00#32⟩
  | .synGenerate => ⟨true, scmdOffset, 0x01#32⟩
  | .pmNop => ⟨true, pcmdOffset, 0x00#32⟩
  | .pmUpdate c => ⟨true, pcmdOffset, pWord 0#3 c 0x01#8⟩
  | .pmSelect c k => ⟨true, pcmdOffset, pWord k c 0x02#8⟩
  | .pmNext c => ⟨true, pcmdOffset, pWord 0#3 c 0x03#8⟩
  | .pmPrev c => ⟨true, pcmdOffset, pWord 0#3 c 0x04#8⟩
  | .wrCtrl v => ⟨true, 0x00004#20, v⟩
  | .wrStatus v => ⟨true, 0x00008#20, v⟩
  | .wrIrqPend v => ⟨true, 0x0000C#20, v⟩
  | .wrIrqEn v => ⟨true, 0x00010#20, v⟩
  | .wrScanPeriod v => ⟨true, 0x00020#20, v⟩
  | .wrHoldUnit v => ⟨true, 0x00024#20, v⟩
  | .wrLarg0 v => ⟨true, 0x00040#20, v⟩
  | .wrLarg1 v => ⟨true, 0x00044#20, v⟩
  | .wrLarg2 v => ⟨true, 0x00048#20, v⟩
  | .wrLcolor v => ⟨true, 0x0004C#20, v⟩
  | .wrTextLen v => ⟨true, 0x00054#20, v⟩
  | .wrTextbuf m v => ⟨true, (0x0004#14 ++ m ++ 0#2 : BitVec 20), v⟩
  | .wrFreq v => ⟨true, 0x00200#20, v⟩
  | .wrAmp v => ⟨true, 0x00204#20, v⟩
  | .wrDecay v => ⟨true, 0x00208#20, v⟩
  | .wrWave v => ⟨true, 0x0020C#20, v⟩
  | .wrOffset v => ⟨true, 0x00210#20, v⟩
  | .wrPdecay v => ⟨true, 0x00214#20, v⟩
  | .wrNmix v => ⟨true, 0x00218#20, v⟩
  | .wrEnvc v => ⟨true, 0x0021C#20, v⟩
  | .wrComp v => ⟨true, 0x00220#20, v⟩
  | .wrCapacity v => ⟨true, 0x00224#20, v⟩
  | .wrSmode v => ⟨true, 0x00228#20, v⟩
  | .wrPmRaw v => ⟨true, 0x00280#20, v⟩
  | .wrFb j v => ⟨true, (0b01#2 ++ j ++ 0#2 : BitVec 20), v⟩
  | .rd n => ⟨false, wordOffset n, 0#32⟩

/-- The access that a row of the opcode table stands for. A row of format L, S or P is a 32-bit command word; the
register, not the word, selects its format (30_encoding.md R160) and the table's bits do not hold it, so a word is taken
as an LCMD word where it is one, else SCMD, else PCMD (notes 3). A row of format REG is a bus offset with the data
word zero: a write where a register takes one there, else a read. -/
def tableAccess (nbits w : Nat) : Access :=
  let x := BitVec.ofNat 32 w
  let a := BitVec.ofNat 20 w
  let asRegister : Access := if decode ⟨true, a, 0#32⟩ = .ignored then ⟨false, a, 0#32⟩ else ⟨true, a, 0#32⟩
  if 32 ≤ nbits then
    if decodeL x ≠ .reservedL then ⟨true, lcmdOffset, x⟩
    else if decodeS x ≠ .reservedS then ⟨true, scmdOffset, x⟩
    else if decodeP x ≠ .reservedP then ⟨true, pcmdOffset, x⟩
    else asRegister
  else asRegister

/-- The instruction the decoder reads from a row's bits, numbered as spec/opcode_table.json numbers them. -/
def decodeTableWord (nbits w : Nat) : Option Instr :=
  match decode (tableAccess nbits w) with
  | .instr i => some i
  | .reservedL | .reservedS | .reservedP | .ignored => none

end Sys2Proof
end

