-- ==== Sys2Proof/Machine/Float32.lean ====
section
/-! DEFINITION. IEEE 754 binary32 arithmetic (00_scope.md R12): round to nearest, ties to even, subnormals kept.

Every finite binary32 value is a natural number of units 2^-149 with a sign. Each operation computes its exact result
as a rational number of such units and rounds once, in `fround`. -/

namespace Sys2Proof.Machine

/-- Bits [30:0]: the magnitude of a value as an ordered integer. -/
def fmag (a : F32) : Nat := a.toNat % 0x80000000

/-- The sign bit. -/
def fsign (a : F32) : Bool := a.getLsbD 31

def fIsNaN (a : F32) : Bool := decide (0x7F800000 < fmag a)
def fIsInf (a : F32) : Bool := decide (fmag a = 0x7F800000)
def fFinite (a : F32) : Bool := decide (fmag a < 0x7F800000)
def fIsZero (a : F32) : Bool := decide (fmag a = 0)

/-- The value with a given sign and magnitude pattern. -/
def fmk (neg : Bool) (mag : Nat) : F32 := BitVec.ofNat 32 (if neg then 0x80000000 + mag else mag)

def fPosZero : F32 := 0x00000000#32
def fOne : F32 := 0x3F800000#32
def fHalf : F32 := 0x3F000000#32
def fTwo : F32 := 0x40000000#32
def fThree : F32 := 0x40400000#32
def fFour : F32 := 0x40800000#32
def fMinusOne : F32 := 0xBF800000#32

/-- Order of non-NaN values as integers: -0 and +0 are both 0. -/
def fkey (a : F32) : Int := if fsign a then -(fmag a : Int) else (fmag a : Int)

/-- IEEE `<`: false when an operand is a NaN, and -0 == +0. -/
def flt (a b : F32) : Bool := !fIsNaN a && !fIsNaN b && decide (fkey a < fkey b)
/-- IEEE `<=`. -/
def fle (a b : F32) : Bool := !fIsNaN a && !fIsNaN b && decide (fkey a ≤ fkey b)
/-- IEEE `==`. -/
def feq (a b : F32) : Bool := !fIsNaN a && !fIsNaN b && decide (fkey a = fkey b)

/-- `-a` flips the sign bit exactly. -/
def fneg (a : F32) : F32 := a ^^^ 0x80000000#32
/-- `abs(a)` clears the sign bit. -/
def fabs (a : F32) : F32 := a &&& 0x7FFFFFFF#32
/-- `copysign(m, s)`: m with the sign bit of s. -/
def fcopysign (m s : F32) : F32 := (m &&& 0x7FFFFFFF#32) ||| (s &&& 0x80000000#32)

/-- `clampP(v, MIN, MAX)` (10_state.md R70). -/
def clampP (v lo hi : F32) : F32 :=
  if fIsNaN v then lo
  else if flt v lo then lo
  else if flt hi v then hi
  else if fIsZero v then fPosZero
  else v

/-- A finite magnitude in units of 2^-149. -/
def funits (a : F32) : Nat :=
  let e := fmag a / 0x800000
  let f := fmag a % 0x800000
  if e = 0 then f else (f + 0x800000) * 2 ^ (e - 1)

/-- A finite value in units of 2^-149. -/
def fint (a : F32) : Int := if fsign a then -(funits a : Int) else (funits a : Int)

/-- `num / den` rounded to the nearest integer, ties to even. -/
def roundEven (num den : Nat) : Nat :=
  let q := num / den
  let r := num % den
  if den < 2 * r ∨ (2 * r = den ∧ q % 2 = 1) then q + 1 else q

/-- The binary32 magnitude pattern nearest to `num / den` units of 2^-149, ties to even; past the largest finite
value it is infinity. With k the binary exponent above the subnormal range, the pattern is the rounded significand plus
k in the exponent field, so a carry out of the significand is right as it stands. -/
def froundMag (num den : Nat) : Nat :=
  let k := Nat.log2 (num / den) - 23
  min (roundEven num (den * 2 ^ k) + k * 0x800000) 0x7F800000

/-- `RN`: a signed rational number of units of 2^-149 rounded to binary32. -/
def fround (neg : Bool) (num den : Nat) : F32 := fmk neg (froundMag num den)

/-- A quiet NaN; its sign and payload are free (notes 9). -/
def fNaN (op : Nat) (a b : F32) : F32 :=
  let r := Config.nanBits op a b
  (r.extractLsb' 22 1 ++ 0x1FF#9 ++ r.extractLsb' 0 22 : BitVec 32)

/-- IEEE binary32 addition. An exact zero sum is +0 unless both operands are negative. -/
def fadd (a b : F32) : F32 :=
  if fIsNaN a || fIsNaN b then fNaN 0 a b
  else if fIsInf a then (if fIsInf b && (fsign a != fsign b) then fNaN 0 a b else a)
  else if fIsInf b then b
  else
    let s := fint a + fint b
    if s = 0 then fmk (fsign a && fsign b) 0 else fround (decide (s < 0)) s.natAbs 1

/-- IEEE binary32 subtraction. -/
def fsub (a b : F32) : F32 := fadd a (fneg b)

/-- IEEE binary32 multiplication. -/
def fmul (a b : F32) : F32 :=
  let neg := fsign a != fsign b
  if fIsNaN a || fIsNaN b then fNaN 1 a b
  else if fIsInf a || fIsInf b then (if fIsZero a || fIsZero b then fNaN 1 a b else fmk neg 0x7F800000)
  else fround neg (funits a * funits b) (2 ^ 149)

/-- IEEE binary32 division. -/
def fdiv (a b : F32) : F32 :=
  let neg := fsign a != fsign b
  if fIsNaN a || fIsNaN b then fNaN 2 a b
  else if fIsInf a then (if fIsInf b then fNaN 2 a b else fmk neg 0x7F800000)
  else if fIsInf b then fmk neg 0
  else if fIsZero b then (if fIsZero a then fNaN 2 a b else fmk neg 0x7F800000)
  else fround neg (funits a * 2 ^ 149) (funits b)

/-- `floor32(a)`: the largest integral binary32 value not above a; infinities and NaNs stay. -/
def ffloor (a : F32) : F32 :=
  if fFinite a then
    let q := funits a / 2 ^ 149
    if fsign a then
      (if funits a % 2 ^ 149 = 0 then a else fround true ((q + 1) * 2 ^ 149) 1)
    else fround false (q * 2 ^ 149) 1
  else a

/-- `frac(a) = a - floor32(a)`. -/
def ffrac (a : F32) : F32 := fsub a (ffloor a)

/-- `trunc(a)`: the integer part of a finite value, rounded toward zero; free for the others (notes 10). -/
def ftrunc (a : F32) : Int :=
  if fFinite a then
    (if fsign a then -((funits a / 2 ^ 149 : Nat) : Int) else ((funits a / 2 ^ 149 : Nat) : Int))
  else Config.truncNonFinite a

/-- `float(n)`, exact for n < 2^24. -/
def fofNat (n : Nat) : F32 := fround false (n * 2 ^ 149) 1

end Sys2Proof.Machine
end

