-- ==== Sys2Proof/Machine/ConfigCheck.lean ====
section
/-! DEFINITION. The configuration check of 00_scope.md R8 and the derived parameter ADDR_BITS. -/

namespace Sys2Proof.Machine

/-- `ceil(log2 n)` for n >= 1. -/
def ceilLog2 (n : Nat) : Nat := if n ≤ 1 then 0 else Nat.log2 (n - 1) + 1

/-- ADDR_BITS = ceil(log2(H/2)), at least 1 (00_scope.md R7, 43_led_scan.md R361). With an illegal H, where CFG1
shows it while FATAL = 1, an odd H is halved downwards before the logarithm (H = 5 gives 1) and H = 0 gives 1: the model's
choice (notes 28). -/
def addrBits (p : Params) : Nat := max 1 (ceilLog2 (p.h / 2))

/-- The configuration check: every parameter meets its constraint (00_scope.md R7, R8). -/
def configCheck (p : Params) : Bool :=
  decide (1 ≤ p.w ∧ p.w ≤ 256) &&
  decide (2 ≤ p.h ∧ p.h ≤ 256 ∧ p.h % 2 = 0) &&
  decide (1 ≤ p.depth ∧ p.depth ≤ 8) &&
  decide ((p.gw = 3 ∧ p.gh = 5) ∨ (p.gw = 5 ∧ p.gh = 7)) &&
  decide (1 ≤ p.textMax ∧ p.textMax ≤ 64) &&
  decide (p.palette.length = 7) &&
  decide (1 ≤ p.sampleRate ∧ p.sampleRate ≤ 65535) &&
  decide (1 ≤ p.maxSamples ∧ p.maxSamples ≤ 65535) &&
  decide (1 ≤ p.numCtl ∧ p.numCtl ≤ 4) &&
  flt fPosZero p.decayEps &&
  (fle fPosZero p.engageTol && fle p.engageTol fOne) &&
  decide (1 ≤ p.scanPeriodReset ∧ p.scanPeriodReset < 2 ^ 24) &&
  decide (p.holdUnitReset ≤ 65535)

end Sys2Proof.Machine
end

