-- ==== Sys2Proof/Machine/State.lean ====
section
/-! DEFINITION. The state of BBX as plain data (10_state.md, 43_led_scan.md R360), its reset, and the reasons a step
can stop. INVENTORY.md lists every field with its rule. -/

namespace Sys2Proof.Machine

/-- Why the machine stops. BBX has no exception mechanism (60_exceptions.md R420): an error is a clamp, a no-op, a
dropped command or the FATAL state, and after each of them the machine goes on. So there is no reason, the type is
empty, and no step faults. Nobody raises it; that is safe, because every behaviour the spec gives is a next state. -/
inductive Fault where
  deriving DecidableEq, Repr

/-- Why a step has no meaning. -/
inductive Refusal where
  /-- Raised only by an arm of `exec` for an instruction with no meaning. Every instruction of BBX has one, so no
  step raises it. Safe: a refusal proves nothing about the hardware. -/
  | notModelled (mnemonic : String)
  deriving DecidableEq, Repr

/-- Control, status and interrupt registers (10_state.md R44 to R47). -/
structure Ctl where
  /-- CTRL.SCAN_EN (R44). -/
  scanEn : Bool
  /-- STATUS.FATAL (R45, 60_exceptions.md R426). -/
  fatal : Bool
  /-- STATUS[13:8]: SCAN_OVR, PILL, SILL, SDROP, LILL, LDROP from bit 5 down (R45). -/
  sticky : BitVec 6
  /-- IRQ_PEND[3:0]: ERR, SDONE, LDONE, FRAME from bit 3 down (R46). -/
  irqPend : BitVec 4
  /-- IRQ_EN[3:0] (R47). -/
  irqEn : BitVec 4
  deriving DecidableEq, Repr

/-- The slot phase of the scan engine (10_state.md R101). `setup` is a slot whose tick has come and whose SETUP step
has not run; `shift c` is before SHIFT(c); `fin hold` is before END and holds the slot's hold time, which END tests
(43_led_scan.md R363). -/
inductive Phase where
  | idle
  | setup
  | shift (c : Nat)
  | latch
  | hold
  | fin (hold : Nat)
  deriving DecidableEq, Repr

/-- Scan engine registers and hidden state (10_state.md R51 to R54, R101). -/
structure Scan where
  period : BitVec 24
  unit : BitVec 16
  plane : BitVec 4
  rowpair : BitVec 8
  frameCount : BitVec 32
  phase : Phase
  tcnt : BitVec 24
  tpend : Bool
  deriving DecidableEq, Repr

/-- Panel output signals (43_led_scan.md R360). `addr` holds the ADDR_BITS address lines (notes 21). -/
structure Panel where
  r1 : Bool
  g1 : Bool
  b1 : Bool
  r2 : Bool
  g2 : Bool
  b2 : Bool
  addr : BitVec 8
  pclk : Bool
  lat : Bool
  oeN : Bool
  deriving DecidableEq, Repr

/-- Scroll state (10_state.md R62). -/
structure Scroll where
  xoff : BitVec 16
  sy : BitVec 16
  active : Bool
  rainbow : Bool
  phase : BitVec 8
  color : Pixel
  deriving DecidableEq, Repr

/-- One element (x, y, c) of LE's list PW (10_state.md R100). -/
structure PixelWrite where
  x : Nat
  y : Nat
  c : Pixel
  deriving DecidableEq, Repr

/-- LED command registers, text buffer, scroll state (10_state.md R55 to R62) and LE's hidden state (R100): `pw` is
`some` list exactly while LBUSY = 1. -/
structure Led where
  larg0 : Word
  larg1 : Word
  larg2 : BitVec 8
  lcolor : Pixel
  textLen : BitVec 7
  textbuf : Vector Byte 64
  scroll : Scroll
  pw : Option (List PixelWrite)
  deriving DecidableEq, Repr

/-- The nine WaveParams (10_state.md R71). -/
structure WaveParams where
  freq : F32
  amp : F32
  decay : F32
  wave : BitVec 3
  offset : F32
  pdecay : F32
  nmix : F32
  envc : F32
  comp : F32
  deriving DecidableEq, Repr

/-- SY's hidden state while it renders (10_state.md R102): the snapshot, the sample index, the phase accumulator and
the two caches, entry i at index i (notes 16). -/
structure Job where
  par : WaveParams
  cap : BitVec 17
  fmt : Bool
  i : Nat
  ph : F32
  pcache : List F32
  ecache : List F32
  deriving DecidableEq, Repr

/-- Synth registers (10_state.md R70 to R77) and SY's hidden state: `job` is `some` exactly while SBUSY = 1. -/
structure Synth where
  par : WaveParams
  capacity : BitVec 17
  fmt : Bool
  activeLen : BitVec 17
  written : BitVec 17
  pos : BitVec 17
  job : Option Job
  deriving DecidableEq, Repr

/-- The mapper's state of one control (10_state.md R92, R93, R104). -/
structure PmControl where
  sel : BitVec 3
  engaged : Bool
  changed : Bool
  last : F32
  deriving DecidableEq, Repr

/-- Mapper registers (10_state.md R90, R92, R93). -/
structure Mapper where
  raw : Word
  ctl : Vector PmControl 4
  deriving DecidableEq, Repr

/-- The bytes of FB and SRAM at their bus offsets (20_memory.md R126, R127), addresses strictly rising. -/
abbrev Memory := List Host.Cell

/-- The observable events (43_led_scan.md R375, 40_synth.md R231). -/
inductive Event where
  | oeOff
  | oeOn (hold : Nat)
  | addr (r : Nat)
  | shift (c : Nat) (r1 g1 b1 r2 g2 b2 : Bool)
  | latch
  | frameEnd
  | sampleWrite (i : Nat) (word : Word)
  deriving DecidableEq, Repr

/-- One move of the interleaving (00_scope.md R6): an agent's turn, or a change of the reset input
(70_reset_and_hazards.md R460; notes 18). -/
inductive Turn where
  | agent (a : Agent)
  | assertReset
  | releaseReset
  deriving DecidableEq, Repr

/-- The environment's side and the observation; the model's own fields, not registers of BBX. -/
structure Env where
  /-- The turns that come next, an input (notes 1). -/
  turns : List Turn
  /-- Where the free schedule stands, used when `turns` is empty (notes 1). -/
  turnNo : Nat
  /-- The host's coming bus accesses in program order, an input (20_memory.md R120; notes 2). -/
  bus : List Access
  /-- The NOISE oracle's coming answers, an input (40_synth.md R221; notes 5). -/
  noise : List F32
  /-- Where the free noise value stands, used when `noise` is empty (notes 5). -/
  draws : Nat
  /-- How many hard resets there were: RAM_RESET is drawn anew by each (notes 4). -/
  epoch : Nat
  /-- The reset input is asserted (70_reset_and_hazards.md R460). -/
  inReset : Bool
  /-- `bus_rdata` of the last read (20_memory.md R120; notes 15). -/
  rdata : Word
  /-- The event history (00_scope.md R14), newest event first (notes 14). -/
  history : List Event
  deriving DecidableEq, Repr

/-- The state of BBX and of the model's environment. -/
structure State where
  cfg : Params
  ctl : Ctl
  scan : Scan
  panel : Panel
  led : Led
  syn : Synth
  pm : Mapper
  mem : Memory
  env : Env
  deriving DecidableEq, Repr

def State.withCtl (s : State) (x : Ctl) : State := { s with ctl := x }
def State.withScan (s : State) (x : Scan) : State := { s with scan := x }
def State.withPanel (s : State) (x : Panel) : State := { s with panel := x }
def State.withLed (s : State) (x : Led) : State := { s with led := x }
def State.withSyn (s : State) (x : Synth) : State := { s with syn := x }
def State.withPm (s : State) (x : Mapper) : State := { s with pm := x }
def State.withMem (s : State) (x : Memory) : State := { s with mem := x }
def State.withEnv (s : State) (x : Env) : State := { s with env := x }

/-- Reset values of section 2 of 10_state.md; the check's failure sets FATAL and ERR (70_reset_and_hazards.md R464). -/
def Ctl.resetOf (p : Params) : Ctl where
  scanEn := false
  fatal := !configCheck p
  sticky := 0#6
  irqPend := if configCheck p then 0#4 else 8#4
  irqEn := 0#4

/-- Reset values of the scan engine (10_state.md R51 to R54, R101). An illegal reset parameter that does not fit PERIOD or
UNIT leaves its low bits there, and an illegal period of 0 is stored as 0: the model's choice (notes 28). -/
def Scan.resetOf (p : Params) : Scan where
  period := BitVec.ofNat 24 p.scanPeriodReset
  unit := BitVec.ofNat 16 p.holdUnitReset
  plane := 0#4
  rowpair := 0#8
  frameCount := 0#32
  phase := .idle
  tcnt := 0#24
  tpend := false

/-- Reset values of the panel outputs: OE_N = 1, all others 0 (43_led_scan.md R360). -/
def Panel.reset : Panel := ⟨false, false, false, false, false, false, 0#8, false, false, true⟩

/-- Reset values of the LED command registers; LE idle (10_state.md R55 to R62, R100). -/
def Led.reset : Led where
  larg0 := 0#32
  larg1 := 0#32
  larg2 := 0#8
  lcolor := 0#24
  textLen := 0#7
  textbuf := Vector.replicate 64 0#8
  scroll := ⟨0#16, 0#16, false, false, 0#8, 0#24⟩
  pw := none

/-- Reset values of the parameter registers (10_state.md R71). -/
def WaveParams.reset : WaveParams where
  freq := 0x43DC0000#32
  amp := 0x3F800000#32
  decay := 0x3F000000#32
  wave := 0#3
  offset := 0x00000000#32
  pdecay := 0x00000000#32
  nmix := 0x00000000#32
  envc := 0x3F800000#32
  comp := 0x00000000#32

/-- Reset values of the synth (10_state.md R71 to R77, R102). An illegal MAX_SAMPLES that does not fit CAPACITY leaves its
low bits there: the model's choice (notes 28). -/
def Synth.resetOf (p : Params) : Synth where
  par := WaveParams.reset
  capacity := BitVec.ofNat 17 p.maxSamples
  fmt := false
  activeLen := 0#17
  written := 0#17
  pos := 0#17
  job := none

/-- Reset values of the mapper (10_state.md R90, R92, R93). -/
def Mapper.reset : Mapper := ⟨0#32, Vector.replicate 4 ⟨0#3, false, false, 0#32⟩⟩

/-- The environment at the start of a run: no input given, nothing observed (notes 25). -/
def Env.start : Env := ⟨[], 0, [], [], 0, 0, false, 0#32, []⟩

/-- The machine right after a hard reset in configuration `p` (70_reset_and_hazards.md R460, R461, R464): FB and
SRAM hold RAM_RESET, so nothing is listed in `mem`. -/
def State.resetOf (p : Params) : State where
  cfg := p
  ctl := Ctl.resetOf p
  scan := Scan.resetOf p
  panel := Panel.reset
  led := Led.reset
  syn := Synth.resetOf p
  pm := Mapper.reset
  mem := []
  env := Env.start

/-- The launch state of 70_reset_and_hazards.md R465 in the reference configuration. -/
def State.reset : State := State.resetOf Params.reference

end Sys2Proof.Machine
end

