-- ==== Sys2Proof/Machine/Ops.lean ====
section
/-! DEFINITION. The named operations over memory, flags, events and reset that every meaning shares. -/

namespace Sys2Proof.Machine

/-! ## Memory: FB and SRAM as bytes at their bus offsets -/

/-- The byte listed at an address, if any. -/
def Memory.lookup : Memory → Nat → Option Byte
  | [], _ => none
  | (b, v) :: t, a => if a = b then some v else Memory.lookup t a

/-- The list with the byte at `a` set to `v`, addresses still rising. -/
def Memory.store : Memory → Nat → Byte → Memory
  | [], a, v => [(a, v)]
  | (b, u) :: t, a, v =>
    if a < b then (a, v) :: (b, u) :: t
    else if a = b then (a, v) :: t
    else (b, u) :: Memory.store t a v

/-- Addresses above `lo` and strictly rising. -/
def Memory.risingFrom : Nat → Memory → Bool
  | _, [] => true
  | lo, (b, _) :: t => decide (lo < b) && Memory.risingFrom b t

/-- The canonical form: addresses strictly rising. An unlisted address reads as the free value RAM_RESET, which no
byte can be compared with, so every byte that was written stays listed (notes 4). -/
def Memory.wf : Memory → Bool
  | [] => true
  | (b, _) :: t => Memory.risingFrom b t

/-- What an address that no step has written since the last hard reset reads as: RAM_RESET, a free value
(10_state.md R63, R78; notes 4). -/
def unwritten (s : State) (a : Nat) : Byte := Config.ramReset s.env.epoch a

/-- One byte of FB or SRAM. -/
def readByte (s : State) (a : Nat) : Byte := (s.mem.lookup a).getD (unwritten s a)

/-- Write one byte of FB or SRAM. -/
def writeByte (s : State) (a : Nat) (v : Byte) : State := s.withMem (s.mem.store a v)

/-- Start of the FB window (20_memory.md R125). -/
def fbBase : Nat := 0x40000
/-- Start of the SRAM window (20_memory.md R125). -/
def sramBase : Nat := 0x80000

/-- Bus offset of the word of pixel `j` (20_memory.md R126). -/
def fbAddr (j : Nat) : Nat := fbBase + 4 * j
/-- Bus offset of the word of sample `j` (20_memory.md R127). -/
def sramAddr (j : Nat) : Nat := sramBase + 4 * j

/-- The index of pixel (x, y) in the FB window (20_memory.md R126). -/
def pixelIndex (p : Params) (x y : Nat) : Nat := y * p.w + x

/-- Pixel `j`, all 24 bits in one read: R, G, B in rising bytes (10_state.md R63, R64, 20_memory.md R132). -/
def readFb (s : State) (j : Nat) : Pixel :=
  (readByte s (fbAddr j + 2) ++ readByte s (fbAddr j + 1) ++ readByte s (fbAddr j) : BitVec 24)

/-- Write all 24 bits of pixel `j` in one step (10_state.md R64). -/
def writeFb (s : State) (j : Nat) (c : Pixel) : State :=
  writeByte (writeByte (writeByte s (fbAddr j) (c.extractLsb' 0 8)) (fbAddr j + 1) (c.extractLsb' 8 8))
    (fbAddr j + 2) (c.extractLsb' 16 8)

/-- `FB[y][x]` (00_scope.md R11). -/
def readPixel (s : State) (x y : Nat) : Pixel := readFb s (pixelIndex s.cfg x y)

/-- `FB[y][x] <- c`. -/
def writePixel (s : State) (x y : Nat) (c : Pixel) : State := writeFb s (pixelIndex s.cfg x y) c

/-- `SRAM[j]` (10_state.md R78). -/
def readSram (s : State) (j : Nat) : Word :=
  (readByte s (sramAddr j + 3) ++ readByte s (sramAddr j + 2) ++ readByte s (sramAddr j + 1) ++
    readByte s (sramAddr j) : BitVec 32)

/-- `SRAM[j] <- v`. -/
def writeSram (s : State) (j : Nat) (v : Word) : State :=
  writeByte (writeByte (writeByte (writeByte s (sramAddr j) (v.extractLsb' 0 8)) (sramAddr j + 1)
    (v.extractLsb' 8 8)) (sramAddr j + 2) (v.extractLsb' 16 8)) (sramAddr j + 3) (v.extractLsb' 24 8)

/-! ## Events, pending bits and drops -/

/-- `emit E` (00_scope.md R14): the newest event stands first in the history. -/
def emit (s : State) (e : Event) : State := s.withEnv { s.env with history := e :: s.env.history }

/-- IRQ_PEND bit 0 (10_state.md R46). -/
def irqFrame : BitVec 4 := 1#4
/-- IRQ_PEND bit 1. -/
def irqLdone : BitVec 4 := 2#4
/-- IRQ_PEND bit 2. -/
def irqSdone : BitVec 4 := 4#4
/-- IRQ_PEND bit 3. -/
def irqErr : BitVec 4 := 8#4

/-- Set IRQ_PEND bits (60_exceptions.md R431). -/
def pend (s : State) (m : BitVec 4) : State := s.withCtl { s.ctl with irqPend := s.ctl.irqPend ||| m }

/-- The sticky error flags of STATUS[13:8] (10_state.md R45), as masks of the 6-bit field. -/
def flagLdrop : BitVec 6 := 0x01#6
def flagLill : BitVec 6 := 0x02#6
def flagSdrop : BitVec 6 := 0x04#6
def flagSill : BitVec 6 := 0x08#6
def flagPill : BitVec 6 := 0x10#6
def flagScanOvr : BitVec 6 := 0x20#6

/-- `raise Drop(FLAG)` (00_scope.md R13): set the sticky flag and IRQ_PEND.ERR, and change nothing else. BBX has no
other error entry and no return from one (60_exceptions.md R420, R427). SCAN_OVR is recorded by the same two writes
(43_led_scan.md R372). -/
def raiseDrop (s : State) (f : BitVec 6) : State :=
  s.withCtl { s.ctl with sticky := s.ctl.sticky ||| f, irqPend := s.ctl.irqPend ||| irqErr }

/-- A reserved command word: ignored when FATAL = 1, else dropped with its flag (30_encoding.md R169, R170). -/
def dropIllegal (s : State) (f : BitVec 6) : State := if s.ctl.fatal then s else raiseDrop s f

/-! ## Busy bits -/

/-- STATUS.LBUSY (10_state.md R45, R100). -/
def lbusy (s : State) : Bool := s.led.pw.isSome

/-- STATUS.SBUSY (10_state.md R45, R102). -/
def sbusy (s : State) : Bool := s.syn.job.isSome

/-- STATUS.SCAN_ACTIVE = SCAN_POS.IN_SLOT: 1 from a slot's SETUP step to its END step (43_led_scan.md R371). -/
def scanActive (s : State) : Bool :=
  match s.scan.phase with
  | .idle | .setup => false
  | .shift _ | .latch | .hold | .fin _ => true

/-! ## Reset -/

/-- Soft reset (70_reset_and_hazards.md R462, R463): everything a hard reset does, but FB and SRAM keep their
contents. The environment's inputs and the event history are no state of BBX and stay (notes 14). -/
def softReset (s : State) : State := ((State.resetOf s.cfg).withMem s.mem).withEnv s.env

/-- The reset input is asserted: BBX takes no step until it is released (70_reset_and_hazards.md R460). -/
def assertReset (s : State) : State := s.withEnv { s.env with inReset := true }

/-- The reset input is released: the hard reset happens in this step, and RAM_RESET is drawn anew
(70_reset_and_hazards.md R460, R463, R464). Without a reset asserted nothing happens. -/
def releaseReset (s : State) : State :=
  if s.env.inReset then
    (State.resetOf s.cfg).withEnv { s.env with inReset := false, epoch := s.env.epoch + 1 }
  else s

/-! ## The NOISE oracle -/

/-- An answer of the oracle: a value in [-1, 1], never a NaN (40_synth.md R221). Values that are one already stay as
they are; the others are held to the interval, a NaN to -1 (notes 5). -/
def noiseAnswer (v : F32) : F32 :=
  if fIsNaN v then fMinusOne else if flt v fMinusOne then fMinusOne else if flt fOne v then fOne else v

/-- `draw NOISE` (00_scope.md R14): the next answer given in the state, else the next free one. -/
def drawNoise (e : Env) : F32 × Env :=
  match e.noise with
  | v :: t => (noiseAnswer v, { e with noise := t })
  | [] => (noiseAnswer (Config.noiseRaw e.draws), { e with draws := e.draws + 1 })

end Sys2Proof.Machine
end

