-- ==== Sys2Proof/Machine/Flags.lean ====
section
/-! DEFINITION. STATUS, interrupts and write-1-to-clear (10_state.md R45 to R47, 60_exceptions.md R430). -/

namespace Sys2Proof.Machine

/-- The STATUS word (10_state.md R45): LBUSY, SBUSY, SCAN_ACTIVE, FATAL in [3:0], the sticky flags in [13:8], all
other bits 0. -/
def statusWord (s : State) : Word :=
  (0#18 ++ s.ctl.sticky ++ 0#4 ++ BitVec.ofBool s.ctl.fatal ++ BitVec.ofBool (scanActive s) ++
    BitVec.ofBool (sbusy s) ++ BitVec.ofBool (lbusy s) : BitVec 32)

/-- Write 1 to clear (10_state.md R41): bits written as 1 become 0, the others stay. -/
def w1c {n : Nat} (old written : BitVec n) : BitVec n := old &&& ~~~written

/-- The level-sensitive interrupt output (10_state.md R47, 60_exceptions.md R430). -/
def irq (s : State) : Bool := decide (s.ctl.irqPend &&& s.ctl.irqEn ≠ 0#4)

end Sys2Proof.Machine
end

