-- ==== Sys2Proof/Machine/Tables.lean ====
section
/-! DEFINITION. The two ROMs of BBX: SINETAB (10_state.md R80) and PMTAB (R94). -/

namespace Sys2Proof.Machine

/-- SINETAB[0] to SINETAB[63] (10_state.md R80). -/
def sineRows0 : List F32 := [
  0x00000000#32, 0x3CC90AB0#32, 0x3D48FB30#32, 0x3D96A905#32, 0x3DC8BD36#32, 0x3DFAB273#32, 0x3E164083#32, 0x3E2F10A2#32,
  0x3E47C5C2#32, 0x3E605C13#32, 0x3E78CFCC#32, 0x3E888E93#32, 0x3E94A031#32, 0x3EA09AE5#32, 0x3EAC7CD4#32, 0x3EB8442A#32,
  0x3EC3EF15#32, 0x3ECF7BCA#32, 0x3EDAE880#32, 0x3EE63375#32, 0x3EF15AEA#32, 0x3EFC5D27#32, 0x3F039C3D#32, 0x3F08F59B#32,
  0x3F0E39DA#32, 0x3F13682A#32, 0x3F187FC0#32, 0x3F1D7FD1#32, 0x3F226799#32, 0x3F273656#32, 0x3F2BEB4A#32, 0x3F3085BB#32,
  0x3F3504F3#32, 0x3F396842#32, 0x3F3DAEF9#32, 0x3F41D870#32, 0x3F45E403#32, 0x3F49D112#32, 0x3F4D9F02#32, 0x3F514D3D#32,
  0x3F54DB31#32, 0x3F584853#32, 0x3F5B941A#32, 0x3F5EBE05#32, 0x3F61C598#32, 0x3F64AA59#32, 0x3F676BD8#32, 0x3F6A09A7#32,
  0x3F6C835E#32, 0x3F6ED89E#32, 0x3F710908#32, 0x3F731447#32, 0x3F74FA0B#32, 0x3F76BA07#32, 0x3F7853F8#32, 0x3F79C79D#32,
  0x3F7B14BE#32, 0x3F7C3B28#32, 0x3F7D3AAC#32, 0x3F7E1324#32, 0x3F7EC46D#32, 0x3F7F4E6D#32, 0x3F7FB10F#32, 0x3F7FEC43#32]

/-- SINETAB[64] to SINETAB[127] (10_state.md R80). -/
def sineRows1 : List F32 := [
  0x3F800000#32, 0x3F7FEC43#32, 0x3F7FB10F#32, 0x3F7F4E6D#32, 0x3F7EC46D#32, 0x3F7E1324#32, 0x3F7D3AAC#32, 0x3F7C3B28#32,
  0x3F7B14BE#32, 0x3F79C79D#32, 0x3F7853F8#32, 0x3F76BA07#32, 0x3F74FA0B#32, 0x3F731447#32, 0x3F710908#32, 0x3F6ED89E#32,
  0x3F6C835E#32, 0x3F6A09A7#32, 0x3F676BD8#32, 0x3F64AA59#32, 0x3F61C598#32, 0x3F5EBE05#32, 0x3F5B941A#32, 0x3F584853#32,
  0x3F54DB31#32, 0x3F514D3D#32, 0x3F4D9F02#32, 0x3F49D112#32, 0x3F45E403#32, 0x3F41D870#32, 0x3F3DAEF9#32, 0x3F396842#32,
  0x3F3504F3#32, 0x3F3085BB#32, 0x3F2BEB4A#32, 0x3F273656#32, 0x3F226799#32, 0x3F1D7FD1#32, 0x3F187FC0#32, 0x3F13682A#32,
  0x3F0E39DA#32, 0x3F08F59B#32, 0x3F039C3D#32, 0x3EFC5D27#32, 0x3EF15AEA#32, 0x3EE63375#32, 0x3EDAE880#32, 0x3ECF7BCA#32,
  0x3EC3EF15#32, 0x3EB8442A#32, 0x3EAC7CD4#32, 0x3EA09AE5#32, 0x3E94A031#32, 0x3E888E93#32, 0x3E78CFCC#32, 0x3E605C13#32,
  0x3E47C5C2#32, 0x3E2F10A2#32, 0x3E164083#32, 0x3DFAB273#32, 0x3DC8BD36#32, 0x3D96A905#32, 0x3D48FB30#32, 0x3CC90AB0#32]

/-- SINETAB[128] to SINETAB[191] (10_state.md R80). -/
def sineRows2 : List F32 := [
  0x00000000#32, 0xBCC90AB0#32, 0xBD48FB30#32, 0xBD96A905#32, 0xBDC8BD36#32, 0xBDFAB273#32, 0xBE164083#32, 0xBE2F10A2#32,
  0xBE47C5C2#32, 0xBE605C13#32, 0xBE78CFCC#32, 0xBE888E93#32, 0xBE94A031#32, 0xBEA09AE5#32, 0xBEAC7CD4#32, 0xBEB8442A#32,
  0xBEC3EF15#32, 0xBECF7BCA#32, 0xBEDAE880#32, 0xBEE63375#32, 0xBEF15AEA#32, 0xBEFC5D27#32, 0xBF039C3D#32, 0xBF08F59B#32,
  0xBF0E39DA#32, 0xBF13682A#32, 0xBF187FC0#32, 0xBF1D7FD1#32, 0xBF226799#32, 0xBF273656#32, 0xBF2BEB4A#32, 0xBF3085BB#32,
  0xBF3504F3#32, 0xBF396842#32, 0xBF3DAEF9#32, 0xBF41D870#32, 0xBF45E403#32, 0xBF49D112#32, 0xBF4D9F02#32, 0xBF514D3D#32,
  0xBF54DB31#32, 0xBF584853#32, 0xBF5B941A#32, 0xBF5EBE05#32, 0xBF61C598#32, 0xBF64AA59#32, 0xBF676BD8#32, 0xBF6A09A7#32,
  0xBF6C835E#32, 0xBF6ED89E#32, 0xBF710908#32, 0xBF731447#32, 0xBF74FA0B#32, 0xBF76BA07#32, 0xBF7853F8#32, 0xBF79C79D#32,
  0xBF7B14BE#32, 0xBF7C3B28#32, 0xBF7D3AAC#32, 0xBF7E1324#32, 0xBF7EC46D#32, 0xBF7F4E6D#32, 0xBF7FB10F#32, 0xBF7FEC43#32]

/-- SINETAB[192] to SINETAB[255] (10_state.md R80). -/
def sineRows3 : List F32 := [
  0xBF800000#32, 0xBF7FEC43#32, 0xBF7FB10F#32, 0xBF7F4E6D#32, 0xBF7EC46D#32, 0xBF7E1324#32, 0xBF7D3AAC#32, 0xBF7C3B28#32,
  0xBF7B14BE#32, 0xBF79C79D#32, 0xBF7853F8#32, 0xBF76BA07#32, 0xBF74FA0B#32, 0xBF731447#32, 0xBF710908#32, 0xBF6ED89E#32,
  0xBF6C835E#32, 0xBF6A09A7#32, 0xBF676BD8#32, 0xBF64AA59#32, 0xBF61C598#32, 0xBF5EBE05#32, 0xBF5B941A#32, 0xBF584853#32,
  0xBF54DB31#32, 0xBF514D3D#32, 0xBF4D9F02#32, 0xBF49D112#32, 0xBF45E403#32, 0xBF41D870#32, 0xBF3DAEF9#32, 0xBF396842#32,
  0xBF3504F3#32, 0xBF3085BB#32, 0xBF2BEB4A#32, 0xBF273656#32, 0xBF226799#32, 0xBF1D7FD1#32, 0xBF187FC0#32, 0xBF13682A#32,
  0xBF0E39DA#32, 0xBF08F59B#32, 0xBF039C3D#32, 0xBEFC5D27#32, 0xBEF15AEA#32, 0xBEE63375#32, 0xBEDAE880#32, 0xBECF7BCA#32,
  0xBEC3EF15#32, 0xBEB8442A#32, 0xBEAC7CD4#32, 0xBEA09AE5#32, 0xBE94A031#32, 0xBE888E93#32, 0xBE78CFCC#32, 0xBE605C13#32,
  0xBE47C5C2#32, 0xBE2F10A2#32, 0xBE164083#32, 0xBDFAB273#32, 0xBDC8BD36#32, 0xBD96A905#32, 0xBD48FB30#32, 0xBCC90AB0#32]

/-- SINETAB: the 256 constant values of 10_state.md R80. -/
def sineTab : List F32 := sineRows0 ++ sineRows1 ++ sineRows2 ++ sineRows3

/-- SINETAB[i]; i is below 256 wherever it is used. -/
def sineAt (i : Nat) : F32 := sineTab.getD i 0#32

/-- One entry of the parameter configuration table (10_state.md R94); `target` is FLAGS[7:4], the offset of the target
register in words from 0x200. -/
structure PmEntry where
  min : F32
  max : F32
  thr : F32
  isExp : Bool
  target : BitVec 4
  lnr : F32
  deriving DecidableEq, Repr

/-- PMTAB[k] (10_state.md R94). -/
def pmTab (k : BitVec 3) : PmEntry :=
  match k.toNat with
  | 0 => ⟨0x41A00000#32, 0x460CA000#32, 0x3C23D70A#32, true, 0x0#4, 0x40C37EF5#32⟩
  | 1 => ⟨0x00000000#32, 0x3F800000#32, 0x3C23D70A#32, false, 0x1#4, 0x00000000#32⟩
  | 2 => ⟨0x00000000#32, 0x40000000#32, 0x3C23D70A#32, false, 0x2#4, 0x00000000#32⟩
  | 3 => ⟨0x00000000#32, 0x3F800000#32, 0x3C23D70A#32, false, 0x4#4, 0x00000000#32⟩
  | 4 => ⟨0x3C23D70A#32, 0x41200000#32, 0x3C23D70A#32, true, 0x5#4, 0x40DD0C55#32⟩
  | 5 => ⟨0x00000000#32, 0x3F800000#32, 0x3C23D70A#32, false, 0x6#4, 0x00000000#32⟩
  | 6 => ⟨0x00000000#32, 0x41200000#32, 0x3C23D70A#32, false, 0x7#4, 0x00000000#32⟩
  | _ => ⟨0x00000000#32, 0x3F800000#32, 0x3C23D70A#32, false, 0x8#4, 0x00000000#32⟩

/-- FLAGS: [0] ISEXP, [7:4] the target, other bits 0 (10_state.md R94). -/
def pmFlags (e : PmEntry) : Word := (0#24 ++ e.target ++ 0#3 ++ BitVec.ofBool e.isExp : BitVec 32)

/-- The word at byte offset `o` of an entry of 32 bytes; +0x14 to +0x1C read 0 (10_state.md R94). -/
def pmEntryWord (e : PmEntry) (o : Nat) : Word :=
  match o with
  | 0x00 => e.min
  | 0x04 => e.max
  | 0x08 => e.thr
  | 0x0C => pmFlags e
  | 0x10 => e.lnr
  | _ => 0#32

end Sys2Proof.Machine
end

