-- ==== Sys2Proof/Machine/Operands.lean ====
section
/-! DEFINITION. Operand assembly (30_encoding.md R164), the parameter registers and their clamps
(10_state.md R70, R71), and the mapper's per-control state. -/

namespace Sys2Proof.Machine

/-! ## Drawing operands -/

/-- `x = s16(LARG0[15:0])`. -/
def opX (l : Led) : Int := (l.larg0.extractLsb' 0 16).toInt
/-- `y = s16(LARG0[31:16])`. -/
def opY (l : Led) : Int := (l.larg0.extractLsb' 16 16).toInt
/-- `wr = s16(LARG1[15:0])`, a rectangle's width or a circle's radius. -/
def opWr (l : Led) : Int := (l.larg1.extractLsb' 0 16).toInt
/-- `ht = s16(LARG1[31:16])`. -/
def opHt (l : Led) : Int := (l.larg1.extractLsb' 16 16).toInt
/-- `phase = zext(LARG2[7:0])`. -/
def opPhase (l : Led) : Nat := l.larg2.toNat
/-- `color = LCOLOR[23:0]`. -/
def opColor (l : Led) : Pixel := l.lcolor
/-- The text snapshot T[0..len-1] with `len = TEXT_LEN[6:0]`. -/
def opText (l : Led) : List Byte := l.textbuf.toList.take l.textLen.toNat

/-! ## Parameter registers -/

/-- The eight real-valued parameter registers (10_state.md R71). -/
inductive ParamReg where
  | freq | amp | decay | offset | pdecay | nmix | envc | comp
  deriving DecidableEq, Repr

/-- MIN of a parameter register (10_state.md R71). -/
def paramMin : ParamReg → F32
  | .freq => 0x41A00000#32
  | .amp | .decay | .offset | .pdecay | .nmix | .envc | .comp => 0x00000000#32

/-- MAX of a parameter register (10_state.md R71). -/
def paramMax : ParamReg → F32
  | .freq => 0x460CA000#32
  | .decay => 0x40000000#32
  | .pdecay | .envc => 0x41200000#32
  | .amp | .offset | .nmix | .comp => 0x3F800000#32

/-- The value of a parameter register. -/
def getParam (w : WaveParams) : ParamReg → F32
  | .freq => w.freq
  | .amp => w.amp
  | .decay => w.decay
  | .offset => w.offset
  | .pdecay => w.pdecay
  | .nmix => w.nmix
  | .envc => w.envc
  | .comp => w.comp

/-- The registers with one replaced. -/
def setParam (w : WaveParams) (r : ParamReg) (v : F32) : WaveParams :=
  match r with
  | .freq => { w with freq := v }
  | .amp => { w with amp := v }
  | .decay => { w with decay := v }
  | .offset => { w with offset := v }
  | .pdecay => { w with pdecay := v }
  | .nmix => { w with nmix := v }
  | .envc => { w with envc := v }
  | .comp => { w with comp := v }

/-- A store to a parameter register, by the host or by the mapper: clamped (10_state.md R70). -/
def storeParam (s : State) (r : ParamReg) (v : F32) : State :=
  s.withSyn { s.syn with par := setParam s.syn.par r (clampP v (paramMin r) (paramMax r)) }

/-- WAVE's clamp: `min(v, 4)` on the unsigned word (10_state.md R71). -/
def clampWave (v : Word) : BitVec 3 := BitVec.ofNat 3 (min v.toNat 4)

/-- The register at a word offset from 0x200 (10_state.md R71); offset 3 is WAVE, which no table entry names. -/
def paramAt (o : BitVec 4) : ParamReg :=
  match o.toNat with
  | 0 => .freq
  | 1 => .amp
  | 2 => .decay
  | 4 => .offset
  | 5 => .pdecay
  | 6 => .nmix
  | 7 => .envc
  | _ => .comp

/-- `target(k)` (41_param_map.md R271). -/
def mapTarget (k : BitVec 3) : ParamReg := paramAt (pmTab k).target

/-! ## Mapper controls -/

/-- The state of control `c`. Controls 0 to 3 exist; NUM_CTL <= 4 keeps every legal index below 4 (notes 22). -/
def getCtl (m : Mapper) (c : Nat) : PmControl := m.ctl.toList.getD c ⟨0#3, false, false, 0#32⟩

/-- Replace the state of control `c`. -/
def setCtl (m : Mapper) (c : Nat) (x : PmControl) : Mapper := { m with ctl := m.ctl.setIfInBounds c x }

end Sys2Proof.Machine
end

