-- ==== Sys2Proof/Machine/Drawing.lean ====
section
/-! DEFINITION. The drawing primitives as lists of pixel writes (42_led_draw.md). Coordinates are exact integers
(00_scope.md R10); every pixel goes through `plot`. -/

namespace Sys2Proof.Machine

/-- `plot`: one pixel write, or none when it is off the panel (42_led_draw.md R302). -/
def plot (p : Params) (c : Pixel) (x y : Int) : List PixelWrite :=
  if 0 ≤ x ∧ x < p.w ∧ 0 ≤ y ∧ y < p.h then [⟨x.toNat, y.toNat, c⟩] else []

/-- The integers lo, lo + 1, …, n of them. -/
def intRange (lo : Int) (n : Nat) : List Int := (List.range n).map fun (i : Nat) => lo + (i : Int)

/-- Every pixel of the panel, row-major (42_led_draw.md R304, R305). -/
def drawFill (p : Params) (c : Pixel) : List PixelWrite :=
  (intRange 0 p.h).flatMap fun y => (intRange 0 p.w).flatMap fun x => plot p c x y

/-- Outlined rectangle: top, bottom, left, right edge (42_led_draw.md R307). -/
def drawRect (p : Params) (c : Pixel) (x y wr ht : Int) : List PixelWrite :=
  if 0 < wr ∧ 0 < ht then
    ((intRange 0 wr.toNat).flatMap fun i => plot p c (x + i) y) ++
    ((intRange 0 wr.toNat).flatMap fun i => plot p c (x + i) (y + ht - 1)) ++
    ((intRange 0 ht.toNat).flatMap fun j => plot p c x (y + j)) ++
    ((intRange 0 ht.toNat).flatMap fun j => plot p c (x + wr - 1) (y + j))
  else []

/-- Filled rectangle, row by row (42_led_draw.md R308). -/
def drawFrect (p : Params) (c : Pixel) (x y wr ht : Int) : List PixelWrite :=
  if 0 < wr ∧ 0 < ht then
    (intRange 0 ht.toNat).flatMap fun j => (intRange 0 wr.toNat).flatMap fun i => plot p c (x + i) (y + j)
  else []

/-- The eight points of one pass of the midpoint loop, in order (42_led_draw.md R309). -/
def octants (x y a b : Int) : List (Int × Int) :=
  [(x + a, y + b), (x - a, y + b), (x + a, y - b), (x - a, y - b),
   (x + b, y + a), (x - b, y + a), (x + b, y - a), (x - b, y - a)]

/-- The loop `while a < b` of the midpoint circle. Each pass adds 1 to `a` and none adds to `b`, so `r` passes are
enough (42_led_draw.md R309). -/
def outlineLoop (x y : Int) : Nat → Int → Int → Int → Int → Int → List (Int × Int)
  | 0, _, _, _, _, _ => []
  | n + 1, f, ddx, ddy, a, b =>
    if a < b then
      let b1 := if 0 ≤ f then b - 1 else b
      let ddy1 := if 0 ≤ f then ddy + 2 else ddy
      let f1 := if 0 ≤ f then f + (ddy + 2) else f
      let a1 := a + 1
      let ddx1 := ddx + 2
      octants x y a1 b1 ++ outlineLoop x y n (f1 + ddx1) ddx1 ddy1 a1 b1
    else []

/-- The points of the circle outline in the order they are emitted (42_led_draw.md R309). -/
def outline (x y r : Int) : List (Int × Int) :=
  [(x, y + r), (x, y - r), (x + r, y), (x - r, y)] ++ outlineLoop x y r.toNat (1 - r) 1 (-2 * r) 0 r

/-- Outlined circle (42_led_draw.md R309). -/
def drawCircle (p : Params) (c : Pixel) (x y r : Int) : List PixelWrite :=
  if 0 ≤ r then (outline x y r).flatMap fun q => plot p c q.1 q.2 else []

/-- The columns from the least to the greatest of a list; none for an empty list. -/
def columnSpan : List Int → List Int
  | [] => []
  | x :: xs => intRange (xs.foldl min x) (xs.foldl max x - xs.foldl min x + 1).toNat

/-- Filled circle: the horizontal spans of the outline, row by row (42_led_draw.md R310). -/
def drawFcircle (p : Params) (c : Pixel) (x y r : Int) : List PixelWrite :=
  if 0 ≤ r then
    (intRange (y - r) (2 * r + 1).toNat).flatMap fun py =>
      (columnSpan (((outline x y r).filter fun q => q.2 = py).map Prod.fst)).flatMap fun px => plot p c px py
  else []

/-- The 38 defined characters (42_led_draw.md R330). -/
def definedChar (ch : Byte) : Bool :=
  let n := ch.toNat
  decide (n = 0x20 ∨ n = 0x21 ∨ (0x30 ≤ n ∧ n ≤ 0x39) ∨ (0x41 ≤ n ∧ n ≤ 0x5A))

/-- `FONT(ch)[j][i] = 1`; the space glyph is blank (42_led_draw.md R330; notes 8). -/
def glyphLit (ch : Byte) (j i : Nat) : Bool := ch != 0x20#8 && Config.fontBit ch j i

/-- One glyph; unlit pixels are not written (42_led_draw.md R331). -/
def drawGlyph (p : Params) (c : Pixel) (cx cy : Int) (ch : Byte) : List PixelWrite :=
  (List.range p.gh).flatMap fun (j : Nat) => (List.range p.gw).flatMap fun (i : Nat) =>
    if glyphLit ch j i then plot p c (cx + (i : Int)) (cy + (j : Int)) else []

/-- `drawText` from column `cx` with `g` glyphs drawn so far: undefined characters are skipped without an advance
(42_led_draw.md R332). -/
def drawTextFrom (p : Params) (y : Int) (colorOf : Nat → Pixel) : List Byte → Int → Nat → List PixelWrite
  | [], _, _ => []
  | ch :: t, cx, g =>
    if definedChar ch then
      drawGlyph p (colorOf g) cx y ch ++ drawTextFrom p y colorOf t (cx + ((p.gw : Int) + 1)) (g + 1)
    else drawTextFrom p y colorOf t cx g

/-- `drawText(x0, y0, T, len, colorOf)` (42_led_draw.md R332). -/
def drawText (p : Params) (x y : Int) (t : List Byte) (colorOf : Nat → Pixel) : List PixelWrite :=
  drawTextFrom p y colorOf t x 0

/-- `PALETTE[(phase + g) mod 7]` (42_led_draw.md R333, R334). -/
def paletteColor (p : Params) (phase g : Nat) : Pixel := p.palette.getD ((phase + g) % 7) 0#24

/-- `TW(T, len)` (42_led_draw.md R335). -/
def textWidth (p : Params) (t : List Byte) : Int :=
  let ng := t.countP definedChar
  if ng = 0 then 0 else (ng : Int) * ((p.gw : Int) + 1) - 1

/-- `bandClear(sy)` (42_led_draw.md R336). -/
def bandClear (p : Params) (sy : Int) : List PixelWrite :=
  (intRange 0 p.gh).flatMap fun j => (intRange 0 p.w).flatMap fun x => plot p 0x000000#24 x (sy + j)

/-- The colour of glyph `g` in a scroll (42_led_draw.md R337). -/
def scrollColor (p : Params) (k : Scroll) (g : Nat) : Pixel :=
  if k.rainbow then paletteColor p k.phase.toNat g else k.color

/-- `scrollRender()` (42_led_draw.md R337). -/
def scrollRender (p : Params) (k : Scroll) (t : List Byte) : List PixelWrite :=
  drawText p k.xoff.toInt k.sy.toInt t (scrollColor p k)

/-- One re-render of a scroll: the band cleared, then the text (42_led_draw.md R340 to R342). -/
def renderBand (p : Params) (k : Scroll) (t : List Byte) : List PixelWrite :=
  bandClear p k.sy.toInt ++ scrollRender p k t

/-- SSTEP's new scroll state: one column to the left, or to W once the text has left the panel
(42_led_draw.md R342). -/
def scrollAdvance (p : Params) (k : Scroll) (t : List Byte) : Scroll :=
  let x := k.xoff.toInt - 1
  { k with xoff := BitVec.ofInt 16 (if x + textWidth p t ≤ 0 then (p.w : Int) else x) }

end Sys2Proof.Machine
end

