-- ==== Sys2Proof/Machine/Led.lean ====
section
/-! DEFINITION. The meanings of the LCMD commands (42_led_draw.md). A meaning is the HOST step of the command write;
LE then performs the list (Machine/Engines.lean). -/

namespace Sys2Proof.Machine

/-- The result type of a meaning. -/
abbrev Result := Host.Outcome State Fault Refusal

/-- Acceptance of a legal non-NOP LCMD word: ignored when FATAL = 1 (30_encoding.md R169), dropped with LDROP when
LBUSY = 1, else LE gets the list PW and the scroll state takes its new value (42_led_draw.md R300). -/
def ledCommand (s : State) (k : Scroll) (pw : List PixelWrite) : Result :=
  if s.ctl.fatal then .next s
  else if lbusy s then .next (raiseDrop s flagLdrop)
  else .next (s.withLed { s.led with scroll := k, pw := some pw })

/-- LED.NOP: no effect in any state (42_led_draw.md R303). -/
def execLedNop (s : State) : Result := .next s

/-- LED.CLEAR (42_led_draw.md R304). -/
def execLedClear (s : State) : Result := ledCommand s s.led.scroll (drawFill s.cfg 0x000000#24)

/-- LED.FILL (42_led_draw.md R305). -/
def execLedFill (s : State) : Result := ledCommand s s.led.scroll (drawFill s.cfg (opColor s.led))

/-- LED.PIXEL (42_led_draw.md R306). -/
def execLedPixel (s : State) : Result :=
  ledCommand s s.led.scroll (plot s.cfg (opColor s.led) (opX s.led) (opY s.led))

/-- LED.RECT (42_led_draw.md R307). -/
def execLedRect (s : State) : Result :=
  ledCommand s s.led.scroll
    (drawRect s.cfg (opColor s.led) (opX s.led) (opY s.led) (opWr s.led) (opHt s.led))

/-- LED.FRECT (42_led_draw.md R308). -/
def execLedFrect (s : State) : Result :=
  ledCommand s s.led.scroll
    (drawFrect s.cfg (opColor s.led) (opX s.led) (opY s.led) (opWr s.led) (opHt s.led))

/-- LED.CIRCLE (42_led_draw.md R309). -/
def execLedCircle (s : State) : Result :=
  ledCommand s s.led.scroll (drawCircle s.cfg (opColor s.led) (opX s.led) (opY s.led) (opWr s.led))

/-- LED.FCIRCLE (42_led_draw.md R310). -/
def execLedFcircle (s : State) : Result :=
  ledCommand s s.led.scroll (drawFcircle s.cfg (opColor s.led) (opX s.led) (opY s.led) (opWr s.led))

/-- LED.TEXT (42_led_draw.md R332). -/
def execLedText (s : State) : Result :=
  ledCommand s s.led.scroll
    (drawText s.cfg (opX s.led) (opY s.led) (opText s.led) fun _ => opColor s.led)

/-- LED.RTEXT (42_led_draw.md R333). -/
def execLedRtext (s : State) : Result :=
  ledCommand s s.led.scroll
    (drawText s.cfg (opX s.led) (opY s.led) (opText s.led) (paletteColor s.cfg (opPhase s.led)))

/-- The scroll state that LED.SCROLL starts from (42_led_draw.md R340). -/
def scrollStart (l : Led) : Scroll :=
  ⟨l.larg0.extractLsb' 0 16, l.larg0.extractLsb' 16 16, true, false, 0#8, l.lcolor⟩

/-- The scroll state that LED.RSCROLL starts from (42_led_draw.md R341). -/
def rscrollStart (l : Led) : Scroll :=
  ⟨l.larg0.extractLsb' 0 16, l.larg0.extractLsb' 16 16, true, true, l.larg2, 0#24⟩

/-- LED.SCROLL (42_led_draw.md R340). -/
def execLedScroll (s : State) : Result :=
  ledCommand s (scrollStart s.led) (renderBand s.cfg (scrollStart s.led) (opText s.led))

/-- LED.RSCROLL (42_led_draw.md R341). -/
def execLedRscroll (s : State) : Result :=
  ledCommand s (rscrollStart s.led) (renderBand s.cfg (rscrollStart s.led) (opText s.led))

/-- LED.SSTEP: with no active scroll it completes with an empty list (42_led_draw.md R342). -/
def execLedSstep (s : State) : Result :=
  if s.led.scroll.active then
    ledCommand s (scrollAdvance s.cfg s.led.scroll (opText s.led))
      (renderBand s.cfg (scrollAdvance s.cfg s.led.scroll (opText s.led)) (opText s.led))
  else ledCommand s s.led.scroll []

/-- LED.SSTOP: the other scroll fields keep their values (42_led_draw.md R343). -/
def execLedSstop (s : State) : Result := ledCommand s { s.led.scroll with active := false } []

end Sys2Proof.Machine
end

