-- ==== Sys2Proof/Machine/Transcendental.lean ====
section
/-! DEFINITION. EXP32 and LN32: free functions that keep the properties of 00_scope.md R9.

Each starts from an opaque function and is held to the properties pointwise. Monotonicity (R9 (vi)) is imposed by
`hull`: it walks down the halves of an index range, and at each cut takes the free function's value at the end of the
left half, held between the bounds so far, as the upper bound of the left half and the lower bound of the right one.
The values are held by `clampP`, which also turns -0 into the +0 that R9 (ii) starts at. A function that has the
properties already comes out unchanged, so no legal configuration is lost (notes 6, 7). -/

namespace Sys2Proof.Machine

/-- `v` held to the interval [lo, hi]; a NaN becomes `lo`, and a zero of either sign in the interval stays. -/
def fclampTo (lo hi v : F32) : F32 :=
  if fIsNaN v then lo else if flt v lo then lo else if flt hi v then hi else v

/-- The non-decreasing function on the indices a .. a + 2^k - 1 that `raw` stands for, with values in [lo, hi], at
index `n`. -/
def hull (raw : Nat → F32) : Nat → F32 → F32 → Nat → Nat → F32
  | 0, lo, hi, a, _ => clampP (raw a) lo hi
  | k + 1, lo, hi, a, n =>
    let m := clampP (raw (a + 2 ^ k - 1)) lo hi
    if n < a + 2 ^ k then hull raw k lo m a n else hull raw k m hi (a + 2 ^ k) n

/-- Magnitude pattern of the largest finite value. -/
def fmaxFinite : F32 := 0x7F7FFFFF#32
/-- 8.0, the end of the range of R9 (iii). -/
def fEight : F32 := 0x41000000#32
def fPosInf : F32 := 0x7F800000#32

/-- A free function read along the negative finite values in rising order: index 2^31 - 1 - magnitude. Indices
below the finite values read +0. -/
def rawNegative (f : F32 → F32) (n : Nat) : F32 :=
  if n + 0x7F7FFFFF < 0x7FFFFFFF then fPosZero else f (fmk true (0x7FFFFFFF - n))

/-- A free function read along the positive finite values in rising order: index = magnitude. Index 0 reads 1.0 and
indices above the finite values read +infinity. -/
def rawPositive (f : F32 → F32) (n : Nat) : F32 :=
  if n = 0 then fOne else if 0x7F7FFFFF < n then fPosInf else f (fmk false n)

/-- The value at 8.0, between 1.0 and the largest finite value. -/
def expAtEight (f : F32 → F32) : F32 := hull (rawPositive f) 31 fOne fmaxFinite 0 (fmag fEight)

/-- `f` held to R9 (i), (ii), (iii) and (vi): 1.0 at ±0; in [+0, 1.0] below; at least 1.0 and finite up to 8.0; above
that non-decreasing. R9 says nothing of the other arguments, so `f` stays there as it is. -/
def expOf (f : F32 → F32) (x : F32) : F32 :=
  if !fFinite x then f x
  else if fIsZero x then fOne
  else if fsign x then hull (rawNegative f) 31 fPosZero fOne 0 (0x7FFFFFFF - fmag x)
  else if fmag x ≤ fmag fEight then hull (rawPositive f) 31 fOne fmaxFinite 0 (fmag x)
  else hull (rawPositive f) 31 (expAtEight f) fPosInf 0 (fmag x)

/-- `f` held to R9 (iv) and (v): +0 at 1.0, finite and non-negative at every finite x >= 1. -/
def lnOf (f : F32 → F32) (x : F32) : F32 :=
  if x = fOne then fPosZero
  else if fFinite x && fle fOne x then fclampTo fPosZero fmaxFinite (f x)
  else f x

/-- EXP32 (00_scope.md R9). -/
def exp32 (x : F32) : F32 := expOf Config.expRaw x

/-- LN32 (00_scope.md R9). -/
def ln32 (x : F32) : F32 := lnOf Config.lnRaw x

end Sys2Proof.Machine
end

