-- ==== Sys2Proof/Machine/Mapper.lean ====
section
/-! DEFINITION. The parameter mapper and the meanings of the PCMD commands (41_param_map.md). -/

namespace Sys2Proof.Machine

/-- `clampRaw(v)` (41_param_map.md R264). -/
def clampRaw (v : F32) : F32 :=
  if fIsNaN v || flt v fPosZero then fPosZero
  else if flt fOne v then fOne
  else if fIsZero v then fPosZero
  else v

/-- `clamp01(a)` (41_param_map.md R267). -/
def clamp01 (a : F32) : F32 :=
  if fIsNaN a || flt a fPosZero then fPosZero else if flt fOne a then fOne else a

/-- `norm(k, v)`: a parameter value back on [0, 1] (41_param_map.md R267). -/
def mapNorm (e : PmEntry) (v : F32) : F32 :=
  clamp01 (if e.isExp then (if fle v e.min then fPosZero else fdiv (ln32 (fdiv v e.min)) e.lnr)
    else fdiv (fsub v e.min) (fsub e.max e.min))

/-- `denorm(k, r)` (41_param_map.md R266). -/
def mapDenorm (e : PmEntry) (r : F32) : F32 :=
  if e.isExp then fmul e.min (exp32 (fmul r e.lnr)) else fadd e.min (fmul r (fsub e.max e.min))

/-- Replace the state of control `c` of the machine. -/
def withControl (s : State) (c : Nat) (x : PmControl) : State := s.withPm (setCtl s.pm c x)

/-- The second half of UPDATE, on an engaged control: commit when the change exceeds the threshold
(41_param_map.md R262, R266, R270). -/
def mapCommit (s : State) (c : Nat) (x : PmControl) (r : F32) : State :=
  if flt (pmTab x.sel).thr (fabs (fsub r x.last)) then
    withControl (storeParam s (mapTarget x.sel) (mapDenorm (pmTab x.sel) r)) c
      { x with last := r, changed := true }
  else withControl s c { x with changed := false }

/-- UPDATE of control `c` (41_param_map.md R262): engagement first (R265), then the commit. -/
def mapUpdate (s : State) (c : Nat) : State :=
  let x := getCtl s.pm c
  let r := clampRaw s.pm.raw
  let cur := mapNorm (pmTab x.sel) (getParam s.syn.par (mapTarget x.sel))
  if x.engaged then mapCommit s c x r
  else if fle (fabs (fsub r cur)) s.cfg.engageTol then mapCommit s c { x with engaged := true, last := cur } r
  else withControl s c { x with changed := false }

/-- SELECT (41_param_map.md R263): the index already selected leaves ENGAGED as it is. -/
def mapSelect (s : State) (c : Nat) (k : BitVec 3) : State :=
  let x := getCtl s.pm c
  withControl s c (if k = x.sel then { x with changed := false }
    else { x with sel := k, engaged := false, changed := false })

/-- NEXT and PREV: the index moves by `d` mod 8 and the control is disengaged (41_param_map.md R268, R269). -/
def mapMove (s : State) (c : Nat) (d : BitVec 3) : State :=
  let x := getCtl s.pm c
  withControl s c { x with sel := x.sel + d, engaged := false, changed := false }

/-- A PCMD word with a control index: ignored when FATAL = 1, dropped with PILL when CTL >= NUM_CTL, else executed
at once (30_encoding.md R169, R170, 41_param_map.md R260). -/
def pmCommand (s : State) (c : BitVec 4) (s' : State) : Result :=
  if s.ctl.fatal then .next s
  else if ctlLegal s.cfg c then .next s'
  else .next (raiseDrop s flagPill)

/-- PM.NOP (41_param_map.md R261). -/
def execPmNop (s : State) : Result := .next s

/-- PM.UPDATE (41_param_map.md R262). -/
def execPmUpdate (c : BitVec 4) (s : State) : Result := pmCommand s c (mapUpdate s c.toNat)

/-- PM.SELECT (41_param_map.md R263). -/
def execPmSelect (c : BitVec 4) (k : BitVec 3) (s : State) : Result := pmCommand s c (mapSelect s c.toNat k)

/-- PM.NEXT (41_param_map.md R268). -/
def execPmNext (c : BitVec 4) (s : State) : Result := pmCommand s c (mapMove s c.toNat 1#3)

/-- PM.PREV (41_param_map.md R269). -/
def execPmPrev (c : BitVec 4) (s : State) : Result := pmCommand s c (mapMove s c.toNat 7#3)

end Sys2Proof.Machine
end

