-- ==== Sys2Proof/Machine/Synth.lean ====
section
/-! DEFINITION. The synthesizer: the per-sample pipeline of 40_synth.md and the meanings of the SCMD commands. -/

namespace Sys2Proof.Machine

/-! ## Length and time base -/

/-- `SRf = float(SAMPLE_RATE)` (40_synth.md R204). -/
def sampleRateF (p : Params) : F32 := fofNat p.sampleRate

/-- `decayEff(d)` (40_synth.md R203). -/
def decayEff (p : Params) (d : F32) : F32 := if flt d p.decayEps then p.decayEps else d

/-- `activeLen(CAP, dEff)` (40_synth.md R205). -/
def activeLen (p : Params) (cap : Nat) (dEff : F32) : Nat :=
  min cap (ftrunc (fmul dEff (sampleRateF p))).toNat

/-- N of a render, from its snapshot (40_synth.md R200). -/
def jobLen (p : Params) (j : Job) : Nat := activeLen p j.cap.toNat (decayEff p j.par.decay)

/-- `t_i` (40_synth.md R204). -/
def sampleTime (p : Params) (i : Nat) : F32 := fdiv (fofNat i) (sampleRateF p)

/-- `silence(FMT)` (40_synth.md R206). -/
def silence (fmt : Bool) : Word := if fmt then 0x00000000#32 else 0x00000080#32

/-! ## The pipeline -/

/-- Step 1, `f_i` (40_synth.md R212). -/
def pitchAt (p : Params) (w : WaveParams) (i : Nat) : F32 :=
  if feq w.pdecay fPosZero then w.freq
  else fmul w.freq (exp32 (fneg (fmul w.pdecay (sampleTime p i))))

/-- Step 6a, `e_i` (40_synth.md R223). -/
def envelopeAt (p : Params) (w : WaveParams) (i : Nat) : F32 :=
  if feq w.envc fPosZero then fOne
  else exp32 (fneg (fmul (fdiv w.envc (decayEff p w.decay)) (sampleTime p i)))

/-- Step 2 (40_synth.md R213). -/
def advancePhase (p : Params) (ph f : F32) : F32 := ffrac (fadd ph (fdiv f (sampleRateF p)))

/-- Step 3, `shifted(PH)` (40_synth.md R214). -/
def shiftPhase (w : WaveParams) (ph : F32) : F32 :=
  if feq w.offset fPosZero then ph else ffrac (fadd ph w.offset)

/-- 256.0 -/
def f256 : F32 := 0x43800000#32
/-- 128.0 -/
def f128 : F32 := 0x43000000#32

/-- `sine(p)`: the table at the truncated index, masked to 8 bits (40_synth.md R216). -/
def waveSine (p : F32) : F32 := sineAt (ftrunc (fmul p f256) % 256).toNat

/-- `square(p)` (40_synth.md R217). -/
def waveSquare (p : F32) : F32 := if flt p fHalf then fOne else fMinusOne

/-- `triangle(p)` (40_synth.md R218). -/
def waveTriangle (p : F32) : F32 :=
  if flt p fHalf then fsub (fmul fFour p) fOne else fsub fThree (fmul fFour p)

/-- `saw(p)` (40_synth.md R219). -/
def waveSaw (p : F32) : F32 := fsub (fmul fTwo p) fOne

/-- Step 4, `wave(code, p)`; code 4 draws NOISE (40_synth.md R215, R220). Codes 5 to 7 cannot be stored
(30_encoding.md R176). -/
def waveform (code : BitVec 3) (p : F32) (e : Env) : F32 × Env :=
  match code.toNat with
  | 0 => (waveSine p, e)
  | 1 => (waveSquare p, e)
  | 2 => (waveTriangle p, e)
  | 3 => (waveSaw p, e)
  | _ => drawNoise e

/-- Step 5, `blend(w)`: a draw of its own, after the waveform's (40_synth.md R222). -/
def blendNoise (nmix w : F32) (e : Env) : F32 × Env :=
  if flt fPosZero nmix then
    let d := drawNoise e
    (fadd (fmul (fsub fOne nmix) w) (fmul nmix d.1), d.2)
  else (w, e)

/-- COMP_HW (40_synth.md R226). -/
def compHighWater : F32 := 0x3F4CCCCD#32
/-- COMP_CEIL (40_synth.md R226). -/
def compCeiling : F32 := 0x3F666666#32
/-- COMP_T(c) (40_synth.md R226). -/
def compThreshold (c : F32) : F32 := fsub fOne (fmul fHalf c)
/-- COMP_R(c) (40_synth.md R226). -/
def compRatio (c : F32) : F32 := fadd fOne (fmul fFour c)
/-- COMP_M(c), the makeup gain (40_synth.md R226). -/
def compMakeup (c : F32) : F32 :=
  fdiv fOne (fadd (compThreshold c) (fdiv (fsub fOne (compThreshold c)) (compRatio c)))

/-- Step 7, `compress(s, c)` on the magnitude, the sign kept (40_synth.md R225). -/
def compress (s c : F32) : F32 :=
  let y0 := fabs s
  let y1 := if flt (compThreshold c) y0
    then fadd (compThreshold c) (fdiv (fsub y0 (compThreshold c)) (compRatio c)) else y0
  let y2 := fmul y1 (compMakeup c)
  let y3 := if flt compHighWater c then (if flt compCeiling y2 then compCeiling else y2) else y2
  fcopysign y3 s

/-- Step 8a, `clamp1(s)` (40_synth.md R227). -/
def clamp1 (s : F32) : F32 :=
  if fIsNaN s then fPosZero else if flt fOne s then fOne else if flt s fMinusOne then fMinusOne else s

/-- Step 8b, `out(s, FMT)` (40_synth.md R228). -/
def outWord (s : F32) (fmt : Bool) : Word :=
  if fmt then s else BitVec.ofNat 32 (min (ftrunc (fmul (fadd s fOne) f128)).toNat 255)

/-- `f_i` as the pipeline reads it: from PCACHE when PDECAY != 0 (40_synth.md R210, R212). An entry the fill has not
written yet is computed; none is read before it is filled. -/
def readPitch (p : Params) (j : Job) : F32 :=
  if feq j.par.pdecay fPosZero then j.par.freq else j.pcache.getD j.i (pitchAt p j.par j.i)

/-- `e_i` as the pipeline reads it: from ECACHE when ENVC != 0 (40_synth.md R210, R223). -/
def readEnvelope (p : Params) (j : Job) : F32 :=
  if feq j.par.envc fPosZero then fOne else j.ecache.getD j.i (envelopeAt p j.par j.i)

/-- `voice(i)` (40_synth.md R211): the clamped sample, the new phase and the oracle's state. -/
def voice (p : Params) (j : Job) (e : Env) : F32 × F32 × Env :=
  let ph := advancePhase p j.ph (readPitch p j)
  let w := waveform j.par.wave (shiftPhase j.par ph) e
  let b := blendNoise j.par.nmix w.1 w.2
  let s := fmul (fmul b.1 (readEnvelope p j)) j.par.amp
  let c := if flt fPosZero j.par.comp then compress s j.par.comp else s
  (clamp1 c, ph, b.2)

/-! ## The commands -/

/-- SYN.NOP: no effect in any state (40_synth.md R201). -/
def execSynNop (s : State) : Result := .next s

/-- The job that an accepted GENERATE starts (40_synth.md R200). -/
def newJob (y : Synth) : Job := ⟨y.par, y.capacity, y.fmt, 0, fPosZero, [], []⟩

/-- SYN.GENERATE: ignored when FATAL = 1 (30_encoding.md R169), dropped with SDROP while SBUSY = 1, else accepted with
a snapshot of the parameters (40_synth.md R200). -/
def execSynGenerate (s : State) : Result :=
  if s.ctl.fatal then .next s
  else if sbusy s then .next (raiseDrop s flagSdrop)
  else
    .next (s.withSyn { s.syn with
      activeLen := BitVec.ofNat 17 (jobLen s.cfg (newJob s.syn)), pos := 0#17, job := some (newJob s.syn) })

end Sys2Proof.Machine
end

