-- ==== Sys2Proof/Machine/Registers.lean ====
section
/-! DEFINITION. What a host read returns (10_state.md R42 to R94, 20_memory.md R124 to R128, 44_control.md R413). -/

namespace Sys2Proof.Machine

/-- CTRL: [0] SCAN_EN; SRST reads 0 (10_state.md R44). -/
def ctrlWord (s : State) : Word := (BitVec.ofBool s.ctl.scanEn).setWidth 32

/-- CFG0: {H, W} (10_state.md R48). A parameter that does not fit its field, readable while FATAL = 1, shows its low bits:
the model's choice (notes 28). -/
def cfg0Word (p : Params) : Word := (BitVec.ofNat 16 p.h ++ BitVec.ofNat 16 p.w : BitVec 32)

/-- CFG1: NUM_CTL, TEXT_MAX, GH, GW, ADDR_BITS, DEPTH from bit 26 down (10_state.md R49). A parameter that
does not fit its field, readable while FATAL = 1, shows its low bits, and ADDR_BITS of an illegal H is
as `addrBits` has it: the model's choices (notes 28). -/
def cfg1Word (p : Params) : Word :=
  (0#5 ++ BitVec.ofNat 3 p.numCtl ++ BitVec.ofNat 8 p.textMax ++ BitVec.ofNat 4 p.gh ++ BitVec.ofNat 4 p.gw ++
    BitVec.ofNat 4 (addrBits p) ++ BitVec.ofNat 4 p.depth : BitVec 32)

/-- CFG2: {MAX_SAMPLES, SAMPLE_RATE} (10_state.md R50). A parameter that does not fit its field, readable while FATAL = 1,
shows its low bits: the model's choice (notes 28). -/
def cfg2Word (p : Params) : Word := (BitVec.ofNat 16 p.maxSamples ++ BitVec.ofNat 16 p.sampleRate : BitVec 32)

/-- SCAN_POS: IN_SLOT [16], ROWPAIR [15:8], PLANE [3:0] (10_state.md R53). -/
def scanPosWord (s : State) : Word :=
  (0#15 ++ BitVec.ofBool (scanActive s) ++ s.scan.rowpair ++ 0#4 ++ s.scan.plane : BitVec 32)

/-- SCROLL_POS: {SY, XOFF} (10_state.md R62). -/
def scrollPosWord (k : Scroll) : Word := (k.sy ++ k.xoff : BitVec 32)

/-- SCROLL_CTL: PHASE [15:8], RAINBOW [1], ACTIVE [0] (10_state.md R62). -/
def scrollCtlWord (k : Scroll) : Word :=
  (0#16 ++ k.phase ++ 0#6 ++ BitVec.ofBool k.rainbow ++ BitVec.ofBool k.active : BitVec 32)

/-- TEXTBUF[k]; bytes at and above TEXT_MAX read 0 (10_state.md R60). -/
def textByte (s : State) (k : Nat) : Byte := if k < s.cfg.textMax then s.led.textbuf.toList.getD k 0#8 else 0#8

/-- The word of TEXTBUF at word index `m`, little-endian (10_state.md R60). -/
def textWord (s : State) (m : Nat) : Word :=
  (textByte s (4 * m + 3) ++ textByte s (4 * m + 2) ++ textByte s (4 * m + 1) ++ textByte s (4 * m) : BitVec 32)

/-- PM_STATE[c]: CHANGED [9], ENGAGED [8], SEL [2:0]; 0 for c >= NUM_CTL (10_state.md R92). -/
def pmStateWord (s : State) (c : Nat) : Word :=
  let x := getCtl s.pm c
  if c < s.cfg.numCtl then
    (0#22 ++ BitVec.ofBool x.changed ++ BitVec.ofBool x.engaged ++ 0#5 ++ x.sel : BitVec 32)
  else 0#32

/-- PM_LAST[c]; 0 for c >= NUM_CTL (10_state.md R93). -/
def pmLastWord (s : State) (c : Nat) : Word := if c < s.cfg.numCtl then (getCtl s.pm c).last else 0#32

/-- The single registers below 0x300, at word-aligned byte offset `a`. Write-only registers, read as 0, and unmapped
offsets fall to the last line (10_state.md R41, R42, 20_memory.md R128). -/
def readRegister (s : State) (a : Nat) : Word :=
  match a with
  | 0x000 => 0x42420007#32
  | 0x004 => ctrlWord s
  | 0x008 => statusWord s
  | 0x00C => s.ctl.irqPend.setWidth 32
  | 0x010 => s.ctl.irqEn.setWidth 32
  | 0x014 => cfg0Word s.cfg
  | 0x018 => cfg1Word s.cfg
  | 0x01C => cfg2Word s.cfg
  | 0x020 => s.scan.period.setWidth 32
  | 0x024 => s.scan.unit.setWidth 32
  | 0x028 => scanPosWord s
  | 0x02C => s.scan.frameCount
  | 0x040 => s.led.larg0
  | 0x044 => s.led.larg1
  | 0x048 => s.led.larg2.setWidth 32
  | 0x04C => s.led.lcolor.setWidth 32
  | 0x054 => s.led.textLen.setWidth 32
  | 0x058 => scrollPosWord s.led.scroll
  | 0x05C => scrollCtlWord s.led.scroll
  | 0x060 => s.led.scroll.color.setWidth 32
  | 0x200 => s.syn.par.freq
  | 0x204 => s.syn.par.amp
  | 0x208 => s.syn.par.decay
  | 0x20C => s.syn.par.wave.setWidth 32
  | 0x210 => s.syn.par.offset
  | 0x214 => s.syn.par.pdecay
  | 0x218 => s.syn.par.nmix
  | 0x21C => s.syn.par.envc
  | 0x220 => s.syn.par.comp
  | 0x224 => s.syn.capacity.setWidth 32
  | 0x228 => (BitVec.ofBool s.syn.fmt).setWidth 32
  | 0x230 => s.syn.activeLen.setWidth 32
  | 0x234 => s.syn.written.setWidth 32
  | 0x238 => s.syn.pos.setWidth 32
  | 0x280 => s.pm.raw
  | 0x288 => pmStateWord s 0
  | 0x28C => pmStateWord s 1
  | 0x290 => pmStateWord s 2
  | 0x294 => pmStateWord s 3
  | 0x298 => pmLastWord s 0
  | 0x29C => pmLastWord s 1
  | 0x2A0 => pmLastWord s 2
  | 0x2A4 => pmLastWord s 3
  | _ => 0#32

/-- The word at word index `n` = A[19:2] (20_memory.md R125): SRAM window, FB window, SINETAB, PMTAB, TEXTBUF, single
registers. -/
def readWord (s : State) (n : BitVec 18) : Word :=
  let i := n.toNat
  if i / 0x10000 = 2 then (if i % 0x10000 < s.cfg.maxSamples then readSram s (i % 0x10000) else 0#32)
  else if i / 0x10000 = 1 then
    (if i % 0x10000 < s.cfg.w * s.cfg.h then (readFb s (i % 0x10000)).setWidth 32 else 0#32)
  else if i / 0x100 = 1 then sineAt (i % 0x100)
  else if i / 0x40 = 3 then pmEntryWord (pmTab (BitVec.ofNat 3 (i % 0x40 / 8))) (4 * (i % 8))
  else if i / 16 = 4 then textWord s (i % 16)
  else readRegister s (4 * i)

end Sys2Proof.Machine
end

