-- ==== Sys2Proof/Machine/Control.lean ====
section
/-! DEFINITION. The meanings of the register writes and of the read (44_control.md, 20_memory.md R126). None is
dropped for being busy, and all work when FATAL = 1 (60_exceptions.md R426). -/

namespace Sys2Proof.Machine

/-! ## Control and interrupt registers -/

/-- SE back to IDLE at slot (0, 0) (43_led_scan.md R370). -/
def scanRewind (x : Scan) : Scan := { x with phase := .idle, tpend := false, plane := 0#4, rowpair := 0#8 }

/-- SCAN_EN <- v: TCNT restarts on 0 to 1; on 1 to 0 outside a slot the scan is rewound (44_control.md R400). -/
def writeScanEn (s : State) (v : Bool) : State :=
  let s1 := s.withCtl { s.ctl with scanEn := v }
  if !s.ctl.scanEn && v then s1.withScan { s.scan with tcnt := 0#24 }
  else if s.ctl.scanEn && !v && !scanActive s then s1.withScan (scanRewind s.scan)
  else s1

/-- WR CTRL (44_control.md R400). -/
def execWrCtrl (v : Word) (s : State) : Result :=
  if v.getLsbD 1 then .next (softReset s) else .next (writeScanEn s (v.getLsbD 0))

/-- WR STATUS: write 1 to clear on [13:8] (44_control.md R401). -/
def execWrStatus (v : Word) (s : State) : Result :=
  .next (s.withCtl { s.ctl with sticky := w1c s.ctl.sticky (v.extractLsb' 8 6) })

/-- WR IRQ_PEND: write 1 to clear on [3:0] (44_control.md R402). -/
def execWrIrqPend (v : Word) (s : State) : Result :=
  .next (s.withCtl { s.ctl with irqPend := w1c s.ctl.irqPend (v.extractLsb' 0 4) })

/-- WR IRQ_EN (44_control.md R403). -/
def execWrIrqEn (v : Word) (s : State) : Result := .next (s.withCtl { s.ctl with irqEn := v.extractLsb' 0 4 })

/-- WR SCAN_PERIOD: 0 is stored as 1 (44_control.md R404). -/
def execWrScanPeriod (v : Word) (s : State) : Result :=
  .next (s.withScan { s.scan with
    period := if v.extractLsb' 0 24 = 0#24 then 1#24 else v.extractLsb' 0 24 })

/-- WR HOLD_UNIT (44_control.md R405). -/
def execWrHoldUnit (v : Word) (s : State) : Result := .next (s.withScan { s.scan with unit := v.extractLsb' 0 16 })

/-! ## LED operand registers and text buffer -/

/-- WR LARG0 (44_control.md R406). -/
def execWrLarg0 (v : Word) (s : State) : Result := .next (s.withLed { s.led with larg0 := v })

/-- WR LARG1 (44_control.md R406). -/
def execWrLarg1 (v : Word) (s : State) : Result := .next (s.withLed { s.led with larg1 := v })

/-- WR LARG2 (44_control.md R406). -/
def execWrLarg2 (v : Word) (s : State) : Result := .next (s.withLed { s.led with larg2 := v.extractLsb' 0 8 })

/-- WR LCOLOR (44_control.md R406). -/
def execWrLcolor (v : Word) (s : State) : Result := .next (s.withLed { s.led with lcolor := v.extractLsb' 0 24 })

/-- WR TEXT_LEN: `min(wdata[7:0], TEXT_MAX)` (44_control.md R407). With an illegal TEXT_MAX the field keeps the low bits of
a value that does not fit it: the model's choice (notes 28). -/
def execWrTextLen (v : Word) (s : State) : Result :=
  .next (s.withLed { s.led with textLen := BitVec.ofNat 7 (min (v.extractLsb' 0 8).toNat s.cfg.textMax) })

/-- One byte of TEXTBUF; bytes at and above TEXT_MAX ignore writes (10_state.md R60). The buffer has 64 bytes, also with an
illegal TEXT_MAX (notes 28). -/
def storeTextByte (p : Params) (t : Vector Byte 64) (k : Nat) (b : Byte) : Vector Byte 64 :=
  if k < p.textMax then t.setIfInBounds k b else t

/-- WR TEXTBUF+4m, little-endian (44_control.md R408). -/
def execWrTextbuf (m : BitVec 4) (v : Word) (s : State) : Result :=
  let k := 4 * m.toNat
  let t0 := storeTextByte s.cfg s.led.textbuf k (v.extractLsb' 0 8)
  let t1 := storeTextByte s.cfg t0 (k + 1) (v.extractLsb' 8 8)
  let t2 := storeTextByte s.cfg t1 (k + 2) (v.extractLsb' 16 8)
  let t3 := storeTextByte s.cfg t2 (k + 3) (v.extractLsb' 24 8)
  .next (s.withLed { s.led with textbuf := t3 })

/-! ## Synth and mapper registers -/

/-- WR FREQ (44_control.md R409). -/
def execWrFreq (v : Word) (s : State) : Result := .next (storeParam s .freq v)

/-- WR AMP (44_control.md R409). -/
def execWrAmp (v : Word) (s : State) : Result := .next (storeParam s .amp v)

/-- WR DECAY (44_control.md R409). -/
def execWrDecay (v : Word) (s : State) : Result := .next (storeParam s .decay v)

/-- WR WAVE: the unsigned word clamped to 4 (44_control.md R409). -/
def execWrWave (v : Word) (s : State) : Result :=
  .next (s.withSyn { s.syn with par := { s.syn.par with wave := clampWave v } })

/-- WR OFFSET (44_control.md R409). -/
def execWrOffset (v : Word) (s : State) : Result := .next (storeParam s .offset v)

/-- WR PDECAY (44_control.md R409). -/
def execWrPdecay (v : Word) (s : State) : Result := .next (storeParam s .pdecay v)

/-- WR NMIX (44_control.md R409). -/
def execWrNmix (v : Word) (s : State) : Result := .next (storeParam s .nmix v)

/-- WR ENVC (44_control.md R409). -/
def execWrEnvc (v : Word) (s : State) : Result := .next (storeParam s .envc v)

/-- WR COMP (44_control.md R409). -/
def execWrComp (v : Word) (s : State) : Result := .next (storeParam s .comp v)

/-- WR CAPACITY: clamped to MAX_SAMPLES (44_control.md R410). With an illegal MAX_SAMPLES the field keeps the low bits of a
value that does not fit it: the model's choice (notes 28). -/
def execWrCapacity (v : Word) (s : State) : Result :=
  .next (s.withSyn { s.syn with capacity := BitVec.ofNat 17 (min v.toNat s.cfg.maxSamples) })

/-- WR SMODE (44_control.md R411). -/
def execWrSmode (v : Word) (s : State) : Result := .next (s.withSyn { s.syn with fmt := v.getLsbD 0 })

/-- WR PM_RAW: all 32 bits, unclamped (44_control.md R412). -/
def execWrPmRaw (v : Word) (s : State) : Result := .next (s.withPm { s.pm with raw := v })

/-! ## Windows and reads -/

/-- WR FB: one atomic pixel write; past the last pixel the write is ignored (20_memory.md R126). -/
def execWrFb (j : BitVec 16) (v : Word) (s : State) : Result :=
  if j.toNat < s.cfg.w * s.cfg.h then .next (writeFb s j.toNat (v.extractLsb' 0 24)) else .next s

/-- RD: the word goes to the bus and no state of BBX changes (44_control.md R413, 20_memory.md R124). -/
def execRd (a : BitVec 18) (s : State) : Result := .next (s.withEnv { s.env with rdata := readWord s a })

end Sys2Proof.Machine
end

