-- ==== Sys2Proof/Machine/Dispatch.lean ====
section
/-! DEFINITION. One arm per instruction; each calls its meaning. -/

namespace Sys2Proof.Machine

def exec (i : Instr) (s : State) : Host.Outcome State Fault Refusal :=
  match i with
  | .ledNop => Sys2Proof.Machine.execLedNop s
  | .ledClear => Sys2Proof.Machine.execLedClear s
  | .ledFill => Sys2Proof.Machine.execLedFill s
  | .ledPixel => Sys2Proof.Machine.execLedPixel s
  | .ledRect => Sys2Proof.Machine.execLedRect s
  | .ledFrect => Sys2Proof.Machine.execLedFrect s
  | .ledCircle => Sys2Proof.Machine.execLedCircle s
  | .ledFcircle => Sys2Proof.Machine.execLedFcircle s
  | .ledText => Sys2Proof.Machine.execLedText s
  | .ledRtext => Sys2Proof.Machine.execLedRtext s
  | .ledScroll => Sys2Proof.Machine.execLedScroll s
  | .ledRscroll => Sys2Proof.Machine.execLedRscroll s
  | .ledSstep => Sys2Proof.Machine.execLedSstep s
  | .ledSstop => Sys2Proof.Machine.execLedSstop s
  | .synNop => Sys2Proof.Machine.execSynNop s
  | .synGenerate => Sys2Proof.Machine.execSynGenerate s
  | .pmNop => Sys2Proof.Machine.execPmNop s
  | .pmUpdate c => Sys2Proof.Machine.execPmUpdate c s
  | .pmSelect c k => Sys2Proof.Machine.execPmSelect c k s
  | .pmNext c => Sys2Proof.Machine.execPmNext c s
  | .pmPrev c => Sys2Proof.Machine.execPmPrev c s
  | .wrCtrl v => Sys2Proof.Machine.execWrCtrl v s
  | .wrStatus v => Sys2Proof.Machine.execWrStatus v s
  | .wrIrqPend v => Sys2Proof.Machine.execWrIrqPend v s
  | .wrIrqEn v => Sys2Proof.Machine.execWrIrqEn v s
  | .wrScanPeriod v => Sys2Proof.Machine.execWrScanPeriod v s
  | .wrHoldUnit v => Sys2Proof.Machine.execWrHoldUnit v s
  | .wrLarg0 v => Sys2Proof.Machine.execWrLarg0 v s
  | .wrLarg1 v => Sys2Proof.Machine.execWrLarg1 v s
  | .wrLarg2 v => Sys2Proof.Machine.execWrLarg2 v s
  | .wrLcolor v => Sys2Proof.Machine.execWrLcolor v s
  | .wrTextLen v => Sys2Proof.Machine.execWrTextLen v s
  | .wrTextbuf m v => Sys2Proof.Machine.execWrTextbuf m v s
  | .wrFreq v => Sys2Proof.Machine.execWrFreq v s
  | .wrAmp v => Sys2Proof.Machine.execWrAmp v s
  | .wrDecay v => Sys2Proof.Machine.execWrDecay v s
  | .wrWave v => Sys2Proof.Machine.execWrWave v s
  | .wrOffset v => Sys2Proof.Machine.execWrOffset v s
  | .wrPdecay v => Sys2Proof.Machine.execWrPdecay v s
  | .wrNmix v => Sys2Proof.Machine.execWrNmix v s
  | .wrEnvc v => Sys2Proof.Machine.execWrEnvc v s
  | .wrComp v => Sys2Proof.Machine.execWrComp v s
  | .wrCapacity v => Sys2Proof.Machine.execWrCapacity v s
  | .wrSmode v => Sys2Proof.Machine.execWrSmode v s
  | .wrPmRaw v => Sys2Proof.Machine.execWrPmRaw v s
  | .wrFb j v => Sys2Proof.Machine.execWrFb j v s
  | .rd a => Sys2Proof.Machine.execRd a s

end Sys2Proof.Machine
end

