-- ==== Sys2Proof/Machine/Engines.lean ====
section
/-! DEFINITION. The steps of the engines LE, SE and SY and of the scan timer. Each is one atomic step
(00_scope.md R14); an agent whose condition does not hold has no enabled step, and its turn changes nothing. While
FATAL = 1 no engine has an enabled step (60_exceptions.md R426; notes 17). -/

namespace Sys2Proof.Machine

/-! ## LE -/

/-- LE: the next pixel write, or completion once PW is empty (42_led_draw.md R300, R301). -/
def leStep (s : State) : State :=
  if s.ctl.fatal then s
  else
    match s.led.pw with
    | none => s
    | some [] => pend (s.withLed { s.led with pw := none }) irqLdone
    | some (q :: t) => writePixel (s.withLed { s.led with pw := some t }) q.x q.y q.c

/-! ## SE -/

/-- `planeBit(v, b) = v[8 - DEPTH + b]` (43_led_scan.md R362). -/
def planeBit (p : Params) (v : BitVec 8) (b : Nat) : Bool := v.getLsbD (8 - p.depth + b)

/-- `frameDone()` (43_led_scan.md R374). -/
def frameDone (s : State) : State :=
  emit (pend (s.withScan { s.scan with frameCount := s.scan.frameCount + 1#32 }) irqFrame) .frameEnd

/-- `advance()`: row-pair in the inner loop, plane in the outer (43_led_scan.md R373). -/
def advanceSlot (s : State) : State :=
  if s.scan.rowpair.toNat + 1 < s.cfg.h / 2 then
    s.withScan { s.scan with rowpair := s.scan.rowpair + 1#8 }
  else if s.scan.plane.toNat + 1 < s.cfg.depth then
    s.withScan { s.scan with rowpair := 0#8, plane := s.scan.plane + 1#4 }
  else frameDone (s.withScan { s.scan with rowpair := 0#8, plane := 0#4 })

/-- The ADDR lines for row-pair `r`: ADDR_BITS bits (43_led_scan.md R361; notes 21). -/
def addrLines (p : Params) (r : Nat) : BitVec 8 := BitVec.ofNat 8 (r % 2 ^ addrBits p)

/-- SETUP: output off, row address out; the slot begins (43_led_scan.md R363). -/
def seSetup (s : State) : State :=
  let r := s.scan.rowpair.toNat
  let s1 := s.withPanel { s.panel with oeN := true, addr := addrLines s.cfg r }
  emit (emit (s1.withScan { s.scan with phase := .shift 0 }) .oeOff) (.addr r)

/-- SHIFT(c): one column of both halves in the current plane; PCLK is pulsed within the step
(43_led_scan.md R361 to R364). -/
def seShift (s : State) (c : Nat) : State :=
  let b := s.scan.plane.toNat
  let u := readPixel s c s.scan.rowpair.toNat
  let l := readPixel s c (s.scan.rowpair.toNat + s.cfg.h / 2)
  let r1 := planeBit s.cfg (u.extractLsb' 0 8) b
  let g1 := planeBit s.cfg (u.extractLsb' 8 8) b
  let b1 := planeBit s.cfg (u.extractLsb' 16 8) b
  let r2 := planeBit s.cfg (l.extractLsb' 0 8) b
  let g2 := planeBit s.cfg (l.extractLsb' 8 8) b
  let b2 := planeBit s.cfg (l.extractLsb' 16 8) b
  let s1 := s.withPanel { s.panel with
    r1 := r1, g1 := g1, b1 := b1, r2 := r2, g2 := g2, b2 := b2, pclk := false }
  emit (s1.withScan { s.scan with phase := if c + 1 < s.cfg.w then .shift (c + 1) else .latch })
    (.shift c r1 g1 b1 r2 g2 b2)

/-- LATCH: LAT is pulsed within the step (43_led_scan.md R363, R365). -/
def seLatch (s : State) : State :=
  emit ((s.withPanel { s.panel with lat := false }).withScan { s.scan with phase := .hold }) .latch

/-- The hold time of the current slot: UNIT * 2^b (43_led_scan.md R366). -/
def holdTime (s : State) : Nat := s.scan.unit.toNat * 2 ^ s.scan.plane.toNat

/-- HOLD: output on for the hold time; with hold 0 the panel stays dark (43_led_scan.md R363). -/
def seHold (s : State) : State :=
  let s1 := s.withScan { s.scan with phase := .fin (holdTime s) }
  if 0 < holdTime s then emit (s1.withPanel { s.panel with oeN := false }) (.oeOn (holdTime s)) else s1

/-- The end of END: where the scan goes on (43_led_scan.md R363, R370, R372). -/
def endSlot (s : State) : State :=
  if !s.ctl.scanEn then s.withScan (scanRewind s.scan)
  else if s.scan.tpend then s.withScan { s.scan with tpend := false, phase := .setup }
  else s.withScan { s.scan with phase := .idle }

/-- END: output off, then the next slot's place (43_led_scan.md R363). -/
def seEnd (s : State) (hold : Nat) : State :=
  let s1 := s.withPanel { s.panel with oeN := true }
  let s2 := if 0 < hold then emit s1 .oeOff else s1
  endSlot (advanceSlot s2)

/-- SE: the step of the current phase. A slot starts only while SCAN_EN = 1 (43_led_scan.md R370; notes 19). -/
def seStep (s : State) : State :=
  if s.ctl.fatal then s
  else
    match s.scan.phase with
    | .idle => s
    | .setup => if s.ctl.scanEn then seSetup s else s
    | .shift c => seShift s c
    | .latch => seLatch s
    | .hold => seHold s
    | .fin hold => seEnd s hold

/-- TICK: start the slot, or remember one tick and record the overrun (43_led_scan.md R372). -/
def tick (s : State) : State :=
  match s.scan.phase with
  | .idle => s.withScan { s.scan with phase := .setup }
  | .setup | .shift _ | .latch | .hold | .fin _ =>
    raiseDrop (s.withScan { s.scan with tpend := true }) flagScanOvr

/-- The scan timer: one system clock cycle. TCNT counts while SCAN_EN = 1 and FATAL = 0, and a tick comes at its wrap
(43_led_scan.md R372, R378; notes 12). -/
def timerStep (s : State) : State :=
  if s.ctl.scanEn && !s.ctl.fatal then
    if s.scan.period.toNat ≤ s.scan.tcnt.toNat + 1 then tick (s.withScan { s.scan with tcnt := 0#24 })
    else s.withScan { s.scan with tcnt := s.scan.tcnt + 1#24 }
  else s

/-! ## SY -/

/-- Replace SY's job. -/
def withJob (s : State) (j : Option Job) : State := s.withSyn { s.syn with job := j }

/-- The word of sample i with the new phase and the oracle's state: voice while i < N, then silence, which draws
nothing and leaves PH (40_synth.md R228, R229, R230). -/
def sampleWord (p : Params) (j : Job) (e : Env) : Word × F32 × Env :=
  if j.i < jobLen p j then
    let v := voice p j e
    (outWord v.1 j.fmt, v.2.1, v.2.2)
  else (silence j.fmt, j.ph, e)

/-- One sample step: SRAM[i], SYN_POS and the SampleWrite event in the same step (40_synth.md R230, R231). -/
def sampleStep (s : State) (j : Job) : State :=
  let v := sampleWord s.cfg j s.env
  let s1 := writeSram (s.withEnv v.2.2) j.i v.1
  let s2 := s1.withSyn { s.syn with
    pos := BitVec.ofNat 17 (j.i + 1), job := some { j with i := j.i + 1, ph := v.2.1 } }
  emit s2 (.sampleWrite j.i v.1)

/-- Completion of a GENERATE (40_synth.md R202). -/
def synComplete (s : State) (j : Job) : State :=
  pend (s.withSyn { s.syn with written := j.cap, job := none }) irqSdone

/-- What SY's next step does. -/
inductive SynAction where
  | fill
  | sample
  | complete
  | wait
  deriving DecidableEq, Repr

/-- PCACHE lacks an entry that this render needs (40_synth.md R210). -/
def needsPitch (p : Params) (j : Job) : Bool :=
  !feq j.par.pdecay fPosZero && decide (j.pcache.length < jobLen p j)

/-- ECACHE lacks an entry that this render needs (40_synth.md R210). -/
def needsEnvelope (p : Params) (j : Job) : Bool :=
  !feq j.par.envc fPosZero && decide (j.ecache.length < jobLen p j)

/-- SY fills its caches, then takes the samples, then completes (40_synth.md R202, R210, R230). `wait` is never reached
from an accepted GENERATE: the sample index stops at CAP. -/
def synAction (p : Params) (j : Job) : SynAction :=
  if needsPitch p j || needsEnvelope p j then .fill
  else if j.i < j.cap.toNat then .sample
  else if j.i = j.cap.toNat then .complete
  else .wait

/-- One cache-fill step: the next index's entry of each cache in use, so that a render takes at most N of them
(40_synth.md R210, R233; notes 16). -/
def fillCaches (p : Params) (j : Job) : Job :=
  { j with
    pcache := if needsPitch p j then j.pcache ++ [pitchAt p j.par j.pcache.length] else j.pcache
    ecache := if needsEnvelope p j then j.ecache ++ [envelopeAt p j.par j.ecache.length] else j.ecache }

/-- The step of SY on its job. -/
def synStep (s : State) (j : Job) : State :=
  match synAction s.cfg j with
  | .fill => withJob s (some (fillCaches s.cfg j))
  | .sample => sampleStep s j
  | .complete => synComplete s j
  | .wait => s

/-- SY: one step while SBUSY = 1. -/
def syStep (s : State) : State :=
  if s.ctl.fatal then s
  else
    match s.syn.job with
    | none => s
    | some j => synStep s j

end Sys2Proof.Machine
end

