-- ==== Sys2Proof/Machine/Agents.lean ====
section
/-! DEFINITION. HOST's step and the interleaving of the agents (00_scope.md R6, 20_memory.md R120, R140). -/

namespace Sys2Proof.Machine

/-- One bus access: an instruction runs; a reserved word is dropped with its flag (30_encoding.md R170); any other write
is ignored (20_memory.md R128). -/
def runAccess (x : Access) (s : State) : Result :=
  match decode x with
  | .instr i => Sys2Proof.Machine.exec i s
  | .reservedL => .next (dropIllegal s flagLill)
  | .reservedS => .next (dropIllegal s flagSill)
  | .reservedP => .next (dropIllegal s flagPill)
  | .ignored => .next s

/-- The state with the host's first coming access taken. -/
def popAccess (s : State) : State := s.withEnv { s.env with bus := s.env.bus.tail }

/-- HOST: one bus access, if the host makes one (20_memory.md R120). While the reset input is asserted the access is
ignored (70_reset_and_hazards.md R460). -/
def hostStep (s : State) : Result :=
  match s.env.bus with
  | [] => .next s
  | x :: _ => if s.env.inReset then .next (popAccess s) else runAccess x (popAccess s)

/-- The turn that comes next: the first one given in the state, else the free schedule's (notes 1). -/
def nextTurn (s : State) : Turn :=
  match s.env.turns with
  | t :: _ => t
  | [] => .agent (Config.schedule s.env.turnNo)

/-- The state with that turn taken. -/
def takeTurn (s : State) : State :=
  match s.env.turns with
  | _ :: ts => s.withEnv { s.env with turns := ts }
  | [] => s.withEnv { s.env with turnNo := s.env.turnNo + 1 }

/-- The step of an engine or of the timer; none is enabled while the reset input is asserted
(70_reset_and_hazards.md R460). -/
def engineStep (a : Agent) (s : State) : State :=
  if s.env.inReset then s
  else
    match a with
    | .host => s
    | .le => leStep s
    | .se => seStep s
    | .sy => syStep s
    | .timer => timerStep s

/-- The step that a turn stands for. -/
def runTurn (t : Turn) (s : State) : Result :=
  match t with
  | .assertReset => .next (assertReset s)
  | .releaseReset => .next (releaseReset s)
  | .agent .host => hostStep s
  | .agent .le => .next (engineStep .le s)
  | .agent .se => .next (engineStep .se s)
  | .agent .sy => .next (engineStep .sy s)
  | .agent .timer => .next (engineStep .timer s)

end Sys2Proof.Machine
end

