-- ==== Sys2Proof/Machine/Step.lean ====
section
/-! DEFINITION. One step of BBX: the next turn's agent takes one atomic step (00_scope.md R6, R14). -/

namespace Sys2Proof.Machine

/-- One step of the machine. -/
def step (s : State) : Host.Outcome State Fault Refusal := runTurn (nextTurn s) (takeTurn s)

/-- The state in which the very next step is HOST's bus access that carries the table's instruction: BBX fetches
nothing (20_memory.md R129), the host brings each access (notes 2). -/
def State.withFetchWord (s : State) (nbits w : Nat) : State :=
  s.withEnv { s.env with turns := .agent .host :: s.env.turns, bus := tableAccess nbits w :: s.env.bus }

end Sys2Proof.Machine
end

