-- ==== Sys2Proof/Machine/PanelView.lean ====
section
/-! DEFINITION. What the panel shows, read from the event history (43_led_scan.md R364, R365, R375). The panel is
environment (I37; notes 24): nothing here is a step of BBX. -/

namespace Sys2Proof.Machine

/-- The six bits of one column. -/
structure ColumnBits where
  r1 : Bool
  g1 : Bool
  b1 : Bool
  r2 : Bool
  g2 : Bool
  b2 : Bool
  deriving DecidableEq, Repr

/-- What a panel of R365 has received: the address lines, the columns shifted since the last SETUP, and the row-pair
and columns of the last latch. -/
structure PanelView where
  addr : Nat
  shifted : List (Nat × ColumnBits)
  latchedAddr : Nat
  latched : List (Nat × ColumnBits)
  deriving DecidableEq, Repr

/-- The column `c` of a list of shifted columns, dark where none was shifted. -/
def columnBits : List (Nat × ColumnBits) → Nat → ColumnBits
  | [], _ => ⟨false, false, false, false, false, false⟩
  | (k, b) :: t, c => if c = k then b else columnBits t c

/-- The panel after one event. -/
def panelAfter (v : PanelView) (e : Event) : PanelView :=
  match e with
  | .addr r => { v with addr := r, shifted := [] }
  | .shift c r1 g1 b1 r2 g2 b2 => { v with shifted := (c, ⟨r1, g1, b1, r2, g2, b2⟩) :: v.shifted }
  | .latch => { v with latchedAddr := v.addr, latched := v.shifted }
  | .oeOff | .oeOn _ | .frameEnd | .sampleWrite _ _ => v

/-- The colour channels of a pixel. -/
inductive Channel where
  | red | green | blue
  deriving DecidableEq, Repr

/-- The bit of a column for a channel of the upper or lower row. -/
def channelBit (b : ColumnBits) (lower : Bool) (ch : Channel) : Bool :=
  match lower, ch with
  | false, .red => b.r1
  | false, .green => b.g1
  | false, .blue => b.b1
  | true, .red => b.r2
  | true, .green => b.g2
  | true, .blue => b.b2

/-- Does the panel, while its output is on, light this channel of pixel (x, y) (43_led_scan.md R375)? -/
def lights (p : Params) (v : PanelView) (x y : Nat) (ch : Channel) : Bool :=
  if y = v.latchedAddr then channelBit (columnBits v.latched x) false ch
  else if y = v.latchedAddr + p.h / 2 then channelBit (columnBits v.latched x) true ch
  else false

/-- The time a channel of pixel (x, y) is lit over a list of events, oldest first: the holds of the OeOn events that
light it (43_led_scan.md R375, R376). -/
def litTime (p : Params) (x y : Nat) (ch : Channel) : List Event → PanelView → Nat
  | [], _ => 0
  | e :: t, v =>
    (match e with
      | .oeOn h => if lights p v x y ch then h else 0
      | .oeOff | .addr _ | .shift _ _ _ _ _ _ _ | .latch | .frameEnd | .sampleWrite _ _ => 0) +
    litTime p x y ch t (panelAfter v e)

end Sys2Proof.Machine
end

