-- ==== Sys2Proof/Safety.lean ====
section
/-! DEFINITION. What the statements about BBX speak of: the invariant of a legal machine, frames, runs of one engine,
the events of a slot and of a frame, and what may change a sticky flag. -/

namespace Sys2Proof.Machine

/-! ## Frames -/

/-- Every byte of FB and SRAM reads the same in both states. -/
def KeepsMemory (s t : State) : Prop := ∀ a, readByte t a = readByte s a

/-- Only bytes from `lo` on, `n` of them, may read differently. -/
def KeepsMemoryOutside (lo n : Nat) (s t : State) : Prop :=
  ∀ a, a < lo ∨ lo + n ≤ a → readByte t a = readByte s a

/-! ## The invariant -/

/-- A parameter register holds a value that its clamp stores (10_state.md R70, R71). -/
def ParamStored (w : WaveParams) (r : ParamReg) : Prop := clampP (getParam w r) (paramMin r) (paramMax r) = getParam w r

/-- The nine parameters are values their registers can store (10_state.md R70, R71). -/
structure ParamsStored (w : WaveParams) : Prop where
  real : ∀ r, ParamStored w r
  wave : w.wave.toNat ≤ 4

/-- The registers with a clamped store are within their bounds (10_state.md R51, R61, R71, R72). -/
structure RegistersInRange (s : State) : Prop where
  params : ParamsStored s.syn.par
  capacity : s.syn.capacity.toNat ≤ s.cfg.maxSamples
  textLen : s.led.textLen.toNat ≤ s.cfg.textMax
  period : s.scan.period ≠ 0#24

/-- FB and SRAM: the canonical form, and every written byte is one of a pixel or of a sample
(20_memory.md R126, R127). -/
structure MemoryInWindows (s : State) : Prop where
  canonical : s.mem.wf = true
  windows : ∀ c ∈ s.mem, (fbBase ≤ c.1 ∧ c.1 < fbAddr (s.cfg.w * s.cfg.h)) ∨
    (sramBase ≤ c.1 ∧ c.1 < sramAddr s.cfg.maxSamples)

/-- The scan position and phase (10_state.md R53, R101, 43_led_scan.md R370, R372). -/
structure ScanInRange (s : State) : Prop where
  plane : s.scan.plane.toNat < s.cfg.depth
  rowpair : s.scan.rowpair.toNat < s.cfg.h / 2
  column : ∀ c, s.scan.phase = .shift c → c < s.cfg.w
  pending : s.scan.tpend = true → s.scan.phase ≠ .idle
  setup : s.scan.phase = .setup → s.ctl.scanEn = true

/-- The panel is lit only between HOLD and END of a slot with a hold time; the strobes rest at 0; the address lines
are ADDR_BITS wide (43_led_scan.md R360, R361, R363, R365). -/
structure OutputInRange (s : State) : Prop where
  lit : s.panel.oeN = false ↔ ∃ hold, s.scan.phase = .fin hold ∧ 0 < hold
  pclk : s.panel.pclk = false
  lat : s.panel.lat = false
  addr : s.panel.addr.toNat < 2 ^ addrBits s.cfg

/-- SY's job: the snapshot can be stored, the index does not pass CAP, CAP fits the sample RAM, SYN_POS and ACTIVE_LEN
agree with it, and the caches hold what they cache (10_state.md R75, R77, R102, R103, 40_synth.md R210). -/
structure JobInRange (s : State) (j : Job) : Prop where
  params : ParamsStored j.par
  index : j.i ≤ j.cap.toNat
  capacity : j.cap.toNat ≤ s.cfg.maxSamples
  pos : s.syn.pos.toNat = j.i
  activeLen : s.syn.activeLen.toNat = jobLen s.cfg j
  pitch : j.pcache = (List.range j.pcache.length).map (pitchAt s.cfg j.par)
  pitchLen : j.pcache.length ≤ jobLen s.cfg j
  envelope : j.ecache = (List.range j.ecache.length).map (envelopeAt s.cfg j.par)
  envelopeLen : j.ecache.length ≤ jobLen s.cfg j

/-- LE's list names pixels of the panel only (10_state.md R100, 42_led_draw.md R302). -/
def ListOnPanel (p : Params) (l : List PixelWrite) : Prop := ∀ q ∈ l, q.x < p.w ∧ q.y < p.h

/-- The invariant of a machine whose configuration check passes. -/
structure Inv (s : State) : Prop where
  legal : configCheck s.cfg = true
  notFatal : s.ctl.fatal = false
  registers : RegistersInRange s
  memory : MemoryInWindows s
  scan : ScanInRange s
  output : OutputInRange s
  job : ∀ j, s.syn.job = some j → JobInRange s j
  list : ∀ l, s.led.pw = some l → ListOnPanel s.cfg l

/-! ## Runs of one engine -/

/-- `n` steps of LE. -/
def leRun (n : Nat) (s : State) : State := leStep^[n] s
/-- `n` steps of SE. -/
def seRun (n : Nat) (s : State) : State := seStep^[n] s
/-- `n` steps of SY. -/
def syRun (n : Nat) (s : State) : State := syStep^[n] s
/-- `n` system clock cycles of the scan timer. -/
def timerRun (n : Nat) (s : State) : State := timerStep^[n] s

/-- SE scans one slot: a tick if it waits for one, then the W + 4 steps of the slot (43_led_scan.md R363, R372). -/
def scanSlot (s : State) : State :=
  seRun (s.cfg.w + 4) (if s.scan.phase = .idle then tick s else s)

/-! ## A render -/

/-- Phase accumulator and environment before sample `k` of a render that starts with job `j` and environment `e`
(40_synth.md R200, R213, R230). The caches hold nothing that is not computed anyway (10_state.md R103). -/
def renderState (p : Params) (j : Job) (e : Env) : Nat → F32 × Env
  | 0 => (j.ph, e)
  | k + 1 =>
    let q := renderState p j e k
    (sampleWord p { j with i := k, ph := q.1 } q.2).2

/-- The word of sample `k` of that render. -/
def renderWord (p : Params) (j : Job) (e : Env) (k : Nat) : Word :=
  let q := renderState p j e k
  (sampleWord p { j with i := k, ph := q.1 } q.2).1

/-! ## Drawing -/

/-- The colour that a list of pixel writes leaves at (x, y), if it writes it: the last one. -/
def lastColor (x y : Nat) : List PixelWrite → Option Pixel
  | [] => none
  | q :: t => (lastColor x y t).or (if q.x = x ∧ q.y = y then some q.c else none)

/-- The pixel writes of a list of points in one colour: the points on the panel, in order (42_led_draw.md R302). -/
def clipped (p : Params) (c : Pixel) (l : List (Int × Int)) : List PixelWrite :=
  (l.filter fun q => decide (0 ≤ q.1 ∧ q.1 < (p.w : Int) ∧ 0 ≤ q.2 ∧ q.2 < (p.h : Int))).map fun q =>
    ⟨q.1.toNat, q.2.toNat, c⟩

/-- The points of a list of rows and columns, row by row. -/
def gridPoints (x y : Int) (columns rows : Nat) : List (Int × Int) :=
  (List.range rows).flatMap fun (j : Nat) => (List.range columns).map fun (i : Nat) => (x + (i : Int), y + (j : Int))

/-- The lit points of a glyph at (x, y), row by row (42_led_draw.md R331). -/
def glyphPoints (p : Params) (ch : Byte) (x y : Int) : List (Int × Int) :=
  (List.range p.gh).flatMap fun (j : Nat) =>
    ((List.range p.gw).filter fun (i : Nat) => glyphLit ch j i).map fun (i : Nat) => (x + (i : Int), y + (j : Int))

/-- The pixel writes of a text: defined character number `g` stands GW + 1 columns to the right of the one before, and
an undefined character takes no place (42_led_draw.md R332). -/
def textWrites (p : Params) (x y : Int) (t : List Byte) (colorOf : Nat → Pixel) : List PixelWrite :=
  (t.filter definedChar).zipIdx.flatMap fun q =>
    clipped p (colorOf q.2) (glyphPoints p q.1 (x + (q.2 : Int) * ((p.gw : Int) + 1)) y)

/-- The pixel writes of one re-render of a scroll: the glyph band in black, then the text
(42_led_draw.md R336, R337). -/
def scrollWrites (p : Params) (k : Scroll) (t : List Byte) : List PixelWrite :=
  clipped p 0x000000#24 (gridPoints 0 k.sy.toInt p.w p.gh) ++
    textWrites p k.xoff.toInt k.sy.toInt t
      (fun g => if k.rainbow then p.palette.getD ((k.phase.toNat + g) % 7) 0#24 else k.color)

/-! ## The events of the scan -/

/-- The six bits that SHIFT(c) of slot (b, r) puts out (43_led_scan.md R361 to R363). -/
def columnOf (p : Params) (fb : Nat → Nat → Pixel) (b r c : Nat) : ColumnBits :=
  let u := fb c r
  let l := fb c (r + p.h / 2)
  let bit (v : Pixel) (k : Nat) : Bool := v.getLsbD (8 * k + (8 - p.depth) + b)
  ⟨bit u 0, bit u 1, bit u 2, bit l 0, bit l 1, bit l 2⟩

/-- The events of slot (b, r), oldest first, with no framebuffer write in between (43_led_scan.md R363). -/
def slotEvents (p : Params) (fb : Nat → Nat → Pixel) (unit b r : Nat) : List Event :=
  [.oeOff, .addr r] ++
  (List.range p.w).map (fun c =>
    let k := columnOf p fb b r c
    .shift c k.r1 k.g1 k.b1 k.r2 k.g2 k.b2) ++
  [.latch] ++ (if 0 < unit * 2 ^ b then [.oeOn (unit * 2 ^ b), .oeOff] else [])

/-- The events of a frame: the slots in the order of 43_led_scan.md R373, then FrameEnd (R374). -/
def frameEvents (p : Params) (fb : Nat → Nat → Pixel) (unit : Nat) : List Event :=
  ((List.range p.depth).flatMap fun b => (List.range (p.h / 2)).flatMap fun r => slotEvents p fb unit b r) ++
    [.frameEnd]

/-- The 8-bit value of a channel of a pixel (10_state.md R63). -/
def channelValue (v : Pixel) : Channel → Nat
  | .red => v.toNat % 256
  | .green => v.toNat / 256 % 256
  | .blue => v.toNat / 65536 % 256

/-- The place of the current slot in its frame (43_led_scan.md R373). -/
def slotIndex (s : State) : Nat := s.scan.plane.toNat * (s.cfg.h / 2) + s.scan.rowpair.toNat

/-! ## What the host can do in a step -/

/-- The step is HOST's and makes this access. -/
def HostDoes (s : State) (x : Access) : Prop :=
  nextTurn s = .agent .host ∧ s.env.inReset = false ∧ s.env.bus.head? = some x

/-- The step ends a hard reset (70_reset_and_hazards.md R460). -/
def EndsReset (s : State) : Prop := nextTurn s = .releaseReset ∧ s.env.inReset = true

/-- The step is a soft reset (70_reset_and_hazards.md R462). -/
def SoftResets (s : State) : Prop := ∃ x v, HostDoes s x ∧ decode x = .instr (.wrCtrl v) ∧ v.getLsbD 1 = true

/-- The step is a TICK: the scan timer's turn, with the scan enabled, in the cycle in which TCNT wraps
(43_led_scan.md R372, R378; notes 12). -/
def Ticks (s : State) : Prop :=
  nextTurn s = .agent .timer ∧ s.env.inReset = false ∧ s.ctl.scanEn = true ∧ s.ctl.fatal = false ∧
    s.scan.period.toNat ≤ s.scan.tcnt.toNat + 1

/-- The event of a sticky flag happens in the step: its number counts from STATUS bit 8 (10_state.md R45,
60_exceptions.md R421). A command word is no event while FATAL = 1 (R426). -/
def FlagEvent (s : State) (k : Nat) : Prop :=
  match k with
  | 0 => s.ctl.fatal = false ∧ lbusy s = true ∧
      ∃ x i, HostDoes s x ∧ x.we = true ∧ x.addr.toNat / 4 = 0x14 ∧ decode x = .instr i ∧ i ≠ .ledNop
  | 1 => s.ctl.fatal = false ∧ ∃ x, HostDoes s x ∧ decode x = .reservedL
  | 2 => s.ctl.fatal = false ∧ sbusy s = true ∧ ∃ x, HostDoes s x ∧ decode x = .instr .synGenerate
  | 3 => s.ctl.fatal = false ∧ ∃ x, HostDoes s x ∧ decode x = .reservedS
  | 4 => s.ctl.fatal = false ∧
      ∃ x, HostDoes s x ∧ (decode x = .reservedP ∨ ∃ i, decode x = .instr i ∧ i.wf s.cfg = false)
  | _ => Ticks s ∧ s.scan.phase ≠ .idle

/-! ## Fair runs -/

/-- The agent has an enabled step (00_scope.md R14): HOST while an access waits, LE and SY while they are busy, SE in a
slot or before one, the timer while the scan is enabled; none of them but HOST with FATAL = 1 or during reset. -/
def Enabled (a : Agent) (s : State) : Prop :=
  match a with
  | .host => s.env.bus ≠ []
  | .le => s.env.inReset = false ∧ s.ctl.fatal = false ∧ lbusy s = true
  | .sy => s.env.inReset = false ∧ s.ctl.fatal = false ∧ sbusy s = true
  | .se => s.env.inReset = false ∧ s.ctl.fatal = false ∧ s.scan.phase ≠ .idle ∧
      (s.scan.phase = .setup → s.ctl.scanEn = true)
  | .timer => s.env.inReset = false ∧ s.ctl.fatal = false ∧ s.ctl.scanEn = true

/-- The states differ at most in the inputs: the coming turns, accesses and noise answers. -/
def SameButInputs (s t : State) : Prop :=
  t = s.withEnv { s.env with turns := t.env.turns, bus := t.env.bus, noise := t.env.noise }

/-- A fair run (43_led_scan.md R379, I28): a sequence of steps, with fresh inputs before each of them, in which no agent
stays enabled for ever without its turn coming. The untimed claims that something happens at last are claims about fair
runs (notes 26). -/
structure FairRun (r : Nat → State) : Prop where
  steps : ∀ n, ∃ t, step (r n) = .next t ∧ SameButInputs t (r (n + 1))
  fair : ∀ (a : Agent) (n : Nat), ∃ m, n ≤ m ∧ (nextTurn (r m) = .agent a ∨ ¬Enabled a (r m))

end Sys2Proof.Machine
end

