-- ==== Sys2Proof/Certificates/Slice0/Obligations.lean ====
section
/-! DEFINITION. The statements for the provers. Each docstring names the rules it formalises or rests on. -/

open Sys2Proof Sys2Proof.Machine

/-! ## Encoding -/

/-- Every instruction, with every operand at every value its fields admit, is read back from the access that the encoder
writes for it (30_encoding.md R160 to R168, R178). -/
def Obligations.DecodeEncodeRoundTrip : Prop := ∀ i : Instr, decode (encode i) = .instr i

/-- The other direction: an access that decodes to an instruction is that instruction's encoding, but for offset bits
[1:0], which the port does not carry (20_memory.md R123), and the data lines of a read. So no two words of one
register stand for one instruction and no bit of a word is dropped. -/
def Obligations.EncodeDecodeCanonical : Prop :=
  ∀ (x : Access) (i : Instr), decode x = .instr i →
    encode i = ⟨x.we, x.addr &&& 0xFFFFC#20, if x.we then x.wdata else 0#32⟩

/-- Some words written out from the opcode maps of 30_encoding.md R165 to R167 and the offsets of 10_state.md R42 are
read as the instructions they stand for. -/
def Obligations.SampleWordsDecode : Prop :=
  decode ⟨true, 0x00050#20, 0x00000001#32⟩ = .instr .ledClear ∧
  decode ⟨true, 0x00050#20, 0x0000000C#32⟩ = .instr .ledSstep ∧
  decode ⟨true, 0x0022C#20, 0x00000001#32⟩ = .instr .synGenerate ∧
  decode ⟨true, 0x00284#20, 0x00007302#32⟩ = .instr (.pmSelect 3#4 7#3) ∧
  decode ⟨true, 0x00284#20, 0x00000201#32⟩ = .instr (.pmUpdate 2#4) ∧
  decode ⟨true, 0x0010C#20, 0x44434241#32⟩ = .instr (.wrTextbuf 3#4 0x44434241#32) ∧
  decode ⟨true, 0x4020C#20, 0x000000FF#32⟩ = .instr (.wrFb 131#16 0x000000FF#32) ∧
  decode ⟨false, 0x80010#20, 0x00000000#32⟩ = .instr (.rd 0x20004#18)

/-- A reserved word of any of the three command registers is dropped: it sets its own sticky flag and ERR and changes
nothing else, whether the engine is idle or busy (30_encoding.md R170, 60_exceptions.md R425). -/
def Obligations.ReservedWordsAreDropped : Prop :=
  ∀ (s : State) (v : Word), s.ctl.fatal = false → 1 ≤ s.cfg.numCtl →
    let dropped (flag : BitVec 6) : Result :=
      .next (s.withCtl { s.ctl with sticky := s.ctl.sticky ||| flag, irqPend := s.ctl.irqPend ||| 8#4 })
    let op := v.toNat % 256
    let ctl := v.toNat / 256 % 16
    let pidx := v.toNat / 4096 % 8
    let rsvP := v.toNat / 32768
    (0x0E ≤ op ∨ v.toNat / 256 ≠ 0 → runAccess ⟨true, 0x00050#20, v⟩ s = dropped 0x02#6) ∧
    (0x02 ≤ op ∨ v.toNat / 256 ≠ 0 → runAccess ⟨true, 0x0022C#20, v⟩ s = dropped 0x08#6) ∧
    (0x05 ≤ op ∨ rsvP ≠ 0 ∨ s.cfg.numCtl ≤ ctl ∨ (pidx ≠ 0 ∧ op ≠ 0x02) ∨ (op = 0 ∧ ctl ≠ 0) →
      runAccess ⟨true, 0x00284#20, v⟩ s = dropped 0x10#6)

/-- A HOST step whose access decodes to an instruction is `exec` of that instruction (00_scope.md R6, 20_memory.md R120).
That the step takes the turn and the access from the environment's lists first is the model's form of the interleaving
(notes 1 and 2). -/
def Obligations.StepRunsTheDecodedInstruction : Prop :=
  ∀ (s : State) (x : Access) (i : Instr), HostDoes s x → decode x = .instr i →
    step s = exec i (popAccess (takeTurn s))

/-! ## Errors and interrupts -/

/-- The three NOP words have no effect in any state: no flag, no interrupt, no busy drop (30_encoding.md R171). -/
def Obligations.NopsHaveNoEffect : Prop :=
  ∀ s : State,
    (exec .ledNop s = .next s ∧ exec .synNop s = .next s ∧ exec .pmNop s = .next s) ∧
    (runAccess ⟨true, 0x00050#20, 0#32⟩ s = .next s ∧ runAccess ⟨true, 0x0022C#20, 0#32⟩ s = .next s ∧
      runAccess ⟨true, 0x00284#20, 0#32⟩ s = .next s)

/-- While FATAL = 1 every word written to a command register is ignored with no flag, and no engine has an enabled step
(60_exceptions.md R426, 30_encoding.md R169 step 1). -/
def Obligations.FatalStopsCommandsAndEngines : Prop :=
  ∀ s : State, s.ctl.fatal = true →
    (∀ v : Word, runAccess ⟨true, 0x00050#20, v⟩ s = .next s ∧ runAccess ⟨true, 0x0022C#20, v⟩ s = .next s ∧
      runAccess ⟨true, 0x00284#20, v⟩ s = .next s) ∧
    leStep s = s ∧ seStep s = s ∧ syStep s = s ∧ timerStep s = s

/-- A legal command that is no NOP, written while its engine is busy, is dropped: the drop flag and ERR are set and
nothing else changes (60_exceptions.md R422, 42_led_draw.md R300, 40_synth.md R200). -/
def Obligations.BusyCommandsAreDropped : Prop :=
  ∀ s : State, s.ctl.fatal = false →
    let dropped (flag : BitVec 6) : Result :=
      .next (s.withCtl { s.ctl with sticky := s.ctl.sticky ||| flag, irqPend := s.ctl.irqPend ||| 8#4 })
    (lbusy s = true →
      ∀ i ∈ [Instr.ledClear, .ledFill, .ledPixel, .ledRect, .ledFrect, .ledCircle, .ledFcircle, .ledText, .ledRtext,
        .ledScroll, .ledRscroll, .ledSstep, .ledSstop], exec i s = dropped 0x01#6) ∧
    (sbusy s = true → exec .synGenerate s = dropped 0x04#6)

/-- A sticky flag of STATUS[13:8] is set only by its own event and cleared only by a host write of 1 to its bit or by
reset (10_state.md R45, 60_exceptions.md R421). -/
def Obligations.StickyFlagsChangeOnlyByTheirEvents : Prop :=
  ∀ (s t : State) (k : Nat), k < 6 → step s = .next t →
    (s.ctl.sticky.getLsbD k = false → t.ctl.sticky.getLsbD k = true → FlagEvent s k) ∧
    (s.ctl.sticky.getLsbD k = true → t.ctl.sticky.getLsbD k = false →
      EndsReset s ∨ SoftResets s ∨
        ∃ x v, HostDoes s x ∧ decode x = .instr (.wrStatus v) ∧ v.getLsbD (8 + k) = true)

/-- The interrupt registers: STATUS and IRQ_PEND are cleared by writing 1, IRQ_EN stores bits [3:0], and the output
is the OR of the enabled pending bits (44_control.md R401 to R403, 60_exceptions.md R430). -/
def Obligations.StatusAndInterruptWrites : Prop :=
  (∀ (s : State) (v : Word), ∃ f : BitVec 6, exec (.wrStatus v) s = .next (s.withCtl { s.ctl with sticky := f }) ∧
    ∀ k, k < 6 → f.getLsbD k = (s.ctl.sticky.getLsbD k && !v.getLsbD (8 + k))) ∧
  (∀ (s : State) (v : Word), ∃ f : BitVec 4, exec (.wrIrqPend v) s = .next (s.withCtl { s.ctl with irqPend := f }) ∧
    ∀ k, k < 4 → f.getLsbD k = (s.ctl.irqPend.getLsbD k && !v.getLsbD k)) ∧
  (∀ (s : State) (v : Word),
    exec (.wrIrqEn v) s = .next (s.withCtl { s.ctl with irqEn := v.extractLsb' 0 4 })) ∧
  (∀ s : State, irq s = true ↔ ∃ k, k < 4 ∧ s.ctl.irqPend.getLsbD k = true ∧ s.ctl.irqEn.getLsbD k = true)

/-- No step stops: BBX has no exception mechanism, and every error is a clamp, a no-op, a drop or the FATAL state
(60_exceptions.md R420, R427). -/
def Obligations.NoStepStops : Prop := ∀ s : State, ∃ t, step s = .next t

/-! ## Drawing -/

/-- CLEAR and FILL, accepted, give LE the W * H pixels of the panel in row-major order, black or in LCOLOR
(42_led_draw.md R304, R305). -/
def Obligations.ClearAndFillListThePanel : Prop :=
  ∀ s : State, s.ctl.fatal = false → lbusy s = false →
    (∃ l, exec .ledClear s = .next (s.withLed { s.led with pw := some l }) ∧ l.length = s.cfg.w * s.cfg.h ∧
      ∀ k, k < l.length → l[k]? = some ⟨k % s.cfg.w, k / s.cfg.w, 0x000000#24⟩) ∧
    (∃ l, exec .ledFill s = .next (s.withLed { s.led with pw := some l }) ∧ l.length = s.cfg.w * s.cfg.h ∧
      ∀ k, k < l.length → l[k]? = some ⟨k % s.cfg.w, k / s.cfg.w, s.led.lcolor⟩)

/-- PIXEL, RECT and FRECT, accepted, give LE their points in order, each one on the panel: the operands are the signed
halves of LARG0 and LARG1, and a size that is not positive draws nothing (42_led_draw.md R302, R306 to R308,
30_encoding.md R164). -/
def Obligations.PixelAndRectanglesListTheirPoints : Prop :=
  ∀ s : State, s.ctl.fatal = false → lbusy s = false →
    let x := (s.led.larg0.extractLsb' 0 16).toInt
    let y := (s.led.larg0.extractLsb' 16 16).toInt
    let wr := (s.led.larg1.extractLsb' 0 16).toInt
    let ht := (s.led.larg1.extractLsb' 16 16).toInt
    let accepted (l : List (Int × Int)) : Result :=
      .next (s.withLed { s.led with pw := some (clipped s.cfg s.led.lcolor l) })
    exec .ledPixel s = accepted [(x, y)] ∧
    exec .ledRect s = accepted (if 0 < wr ∧ 0 < ht then
      (List.range wr.toNat).map (fun (i : Nat) => (x + (i : Int), y)) ++
      (List.range wr.toNat).map (fun (i : Nat) => (x + (i : Int), y + ht - 1)) ++
      (List.range ht.toNat).map (fun (j : Nat) => (x, y + (j : Int))) ++
      (List.range ht.toNat).map (fun (j : Nat) => (x + wr - 1, y + (j : Int))) else []) ∧
    exec .ledFrect s = accepted (if 0 < wr ∧ 0 < ht then gridPoints x y wr.toNat ht.toNat else [])

/-- CIRCLE, accepted, gives LE the points of the midpoint outline of radius s16(LARG1[15:0]) that lie on the panel, in
order; a negative radius draws nothing (42_led_draw.md R309). -/
def Obligations.CircleListsItsOutline : Prop :=
  ∀ s : State, s.ctl.fatal = false → lbusy s = false →
    let x := (s.led.larg0.extractLsb' 0 16).toInt
    let y := (s.led.larg0.extractLsb' 16 16).toInt
    let r := (s.led.larg1.extractLsb' 0 16).toInt
    exec .ledCircle s = .next (s.withLed { s.led with
      pw := some (clipped s.cfg s.led.lcolor (if 0 ≤ r then outline x y r else [])) })

/-- FCIRCLE, accepted, gives LE exactly the panel's pixels between two outline points of the same row, in LCOLOR
(42_led_draw.md R310). -/
def Obligations.FilledCircleFillsItsRows : Prop :=
  ∀ s : State, s.ctl.fatal = false → lbusy s = false →
    let x := (s.led.larg0.extractLsb' 0 16).toInt
    let y := (s.led.larg0.extractLsb' 16 16).toInt
    let r := (s.led.larg1.extractLsb' 0 16).toInt
    ∃ l, exec .ledFcircle s = .next (s.withLed { s.led with pw := some l }) ∧
      (∀ q ∈ l, q.c = s.led.lcolor) ∧
      ∀ px py : Nat, (∃ q ∈ l, q.x = px ∧ q.y = py) ↔
        px < s.cfg.w ∧ py < s.cfg.h ∧ 0 ≤ r ∧
          ∃ x1 x2 : Int, (x1, (py : Int)) ∈ outline x y r ∧ (x2, (py : Int)) ∈ outline x y r ∧
            x1 ≤ (px : Int) ∧ (px : Int) ≤ x2

/-- Every point of the midpoint outline lies next to the true circle: with u and v its distances from the centre,
u^2 + v^2 is within max(u, v) of r^2, which is half a pixel (42_led_draw.md R309). -/
def Obligations.CircleOutlineIsRound : Prop :=
  ∀ x y r : Int, 0 ≤ r → ∀ q ∈ outline x y r,
    |(q.1 - x) ^ 2 + (q.2 - y) ^ 2 - r ^ 2| ≤ max |q.1 - x| |q.2 - y|

/-- Every row from y - r to y + r holds a point of the outline, for every radius: 42_led_draw.md R310 says it of the radii
0 to 299. -/
def Obligations.CircleOutlineMeetsEveryRow : Prop :=
  ∀ x y r d : Int, y - r ≤ d → d ≤ y + r → ∃ px : Int, (px, d) ∈ outline x y r

/-- TEXT and RTEXT, accepted, give LE the lit pixels of the defined characters of TEXTBUF[0..LEN-1], GW + 1 columns apart,
undefined ones skipped; RTEXT colours glyph g with PALETTE[(phase + g) mod 7]. The defined characters are the 38 codes of
space, `!`, the digits and the upper-case letters; the space lights no pixel, and every other glyph is FONT's
(42_led_draw.md R330 to R334). -/
def Obligations.TextListsItsGlyphs : Prop :=
  (∀ ch : Byte, definedChar ch = true ↔
    ch.toNat = 0x20 ∨ ch.toNat = 0x21 ∨ (0x30 ≤ ch.toNat ∧ ch.toNat ≤ 0x39) ∨ (0x41 ≤ ch.toNat ∧ ch.toNat ≤ 0x5A)) ∧
  ((List.range 256).filter fun n => definedChar (BitVec.ofNat 8 n)).length = 38 ∧
  (∀ j i, glyphLit 0x20#8 j i = false) ∧
  (∀ (ch : Byte) (j i : Nat), ch ≠ 0x20#8 → glyphLit ch j i = Config.fontBit ch j i) ∧
  ∀ s : State, s.ctl.fatal = false → lbusy s = false →
    let x := (s.led.larg0.extractLsb' 0 16).toInt
    let y := (s.led.larg0.extractLsb' 16 16).toInt
    let t := s.led.textbuf.toList.take s.led.textLen.toNat
    exec .ledText s = .next (s.withLed { s.led with pw := some (textWrites s.cfg x y t fun _ => s.led.lcolor) }) ∧
    exec .ledRtext s = .next (s.withLed { s.led with
      pw := some (textWrites s.cfg x y t fun g => s.cfg.palette.getD ((s.led.larg2.toNat + g) % 7) 0#24) })

/-- SCROLL and RSCROLL, accepted, set the scroll state from the operands and give LE the cleared band and the text at the
start offset (42_led_draw.md R336, R337, R340, R341). Which characters and pixels a text has is in TextListsItsGlyphs. -/
def Obligations.ScrollStarts : Prop :=
  ∀ s : State, s.ctl.fatal = false → lbusy s = false →
    let t := s.led.textbuf.toList.take s.led.textLen.toNat
    let started (k : Scroll) : Result :=
      .next (s.withLed { s.led with scroll := k, pw := some (scrollWrites s.cfg k t) })
    let x := s.led.larg0.extractLsb' 0 16
    let y := s.led.larg0.extractLsb' 16 16
    exec .ledScroll s = started
      { xoff := x, sy := y, active := true, rainbow := false, phase := 0#8, color := s.led.lcolor } ∧
    exec .ledRscroll s = started
      { xoff := x, sy := y, active := true, rainbow := true, phase := s.led.larg2, color := 0#24 }

/-- SSTEP, accepted with an active scroll, moves XOFF by one column to the left, or to W once XOFF + TW <= 0, and
re-renders; without an active scroll it completes with no pixel. SSTOP clears ACTIVE and writes no pixel. XOFF
never wraps its 16 bits and stays above -TW (42_led_draw.md R335, R342, R343). -/
def Obligations.ScrollStepsAndStops : Prop :=
  ∀ s : State, configCheck s.cfg = true → s.ctl.fatal = false → lbusy s = false →
    let t := s.led.textbuf.toList.take s.led.textLen.toNat
    let ng := (t.filter definedChar).length
    let tw : Int := if ng = 0 then 0 else (ng : Int) * ((s.cfg.gw : Int) + 1) - 1
    let x := s.led.scroll.xoff.toInt - 1
    (s.led.scroll.active = true → ∃ k : Scroll,
      exec .ledSstep s = .next (s.withLed { s.led with scroll := k, pw := some (scrollWrites s.cfg k t) }) ∧
      k = { s.led.scroll with xoff := k.xoff } ∧
      k.xoff.toInt = (if x + tw ≤ 0 then (s.cfg.w : Int) else x) ∧ -tw < k.xoff.toInt) ∧
    (s.led.scroll.active = false → exec .ledSstep s = .next (s.withLed { s.led with pw := some [] })) ∧
    exec .ledSstop s = .next (s.withLed { s.led with scroll := { s.led.scroll with active := false }, pw := some [] })

/-- One LE step: with pixels left it writes the first one, changing the three bytes of that pixel and no other byte; with
none left it clears LBUSY and sets LDONE (42_led_draw.md R300, R301, 10_state.md R64). -/
def Obligations.LeStepWritesOnePixel : Prop :=
  ∀ s : State, s.ctl.fatal = false →
    (∀ q l, s.led.pw = some (q :: l) → ∃ m,
      leStep s = (s.withLed { s.led with pw := some l }).withMem m ∧
      readPixel (leStep s) q.x q.y = q.c ∧
      KeepsMemoryOutside (fbAddr (pixelIndex s.cfg q.x q.y)) 3 s (leStep s)) ∧
    (s.led.pw = some [] →
      leStep s = (s.withLed { s.led with pw := none }).withCtl { s.ctl with irqPend := s.ctl.irqPend ||| 2#4 }) ∧
    (s.led.pw = none → leStep s = s)

/-- LE performs a whole list: after one step per element and the completion step, every pixel of the panel holds the last
colour the list gives it, or its old one; LBUSY is 0, LDONE is set, and nothing else changed
(42_led_draw.md R300, R301). -/
def Obligations.LePerformsItsList : Prop :=
  ∀ (s : State) (l : List PixelWrite), configCheck s.cfg = true → s.ctl.fatal = false → s.led.pw = some l →
    ListOnPanel s.cfg l →
    ∃ m, leRun (l.length + 1) s =
        ((s.withLed { s.led with pw := none }).withCtl { s.ctl with irqPend := s.ctl.irqPend ||| 2#4 }).withMem m ∧
      (∀ x y, x < s.cfg.w → y < s.cfg.h →
        readPixel (leRun (l.length + 1) s) x y = (lastColor x y l).getD (readPixel s x y)) ∧
      KeepsMemoryOutside (fbAddr 0) (4 * (s.cfg.w * s.cfg.h)) s (leRun (l.length + 1) s)

/-- CLEAR and then a frame: after a CLEAR has run to completion, a frame scanned from slot (0, 0) shifts out zero bits
only (43_led_scan.md R377, 42_led_draw.md R304). -/
def Obligations.ClearThenRefreshIsDark : Prop :=
  ∀ s : State, configCheck s.cfg = true → s.ctl.fatal = false → lbusy s = false → s.ctl.scanEn = true →
    (s.scan.phase = .idle ∨ s.scan.phase = .setup) → slotIndex s = 0 →
    ∃ t, exec .ledClear s = .next t ∧
      let u := leRun (s.cfg.w * s.cfg.h + 1) t
      let v := scanSlot^[s.cfg.depth * (s.cfg.h / 2)] u
      ∃ l, v.env.history = l ++ s.env.history ∧
        l.countP (fun e => decide (e = .frameEnd)) = 1 ∧
        (∀ c r1 g1 b1 r2 g2 b2, Event.shift c r1 g1 b1 r2 g2 b2 ∈ l →
          r1 = false ∧ g1 = false ∧ b1 = false ∧ r2 = false ∧ g2 = false ∧ b2 = false)

/-! ## Bus windows -/

/-- The FB window: pixel j < W * H is written whole from wdata[23:0], three bytes and no other, and reads back with
bits [31:24] 0; past the last pixel a write changes nothing and a read gives 0. The SRAM window reads SRAM[j] below
MAX_SAMPLES and 0 above (20_memory.md R126, R127). -/
def Obligations.WindowsReadAndWrite : Prop :=
  ∀ (s : State) (j : BitVec 16) (v : Word),
    (j.toNat < s.cfg.w * s.cfg.h → ∃ m, exec (.wrFb j v) s = .next (s.withMem m) ∧
      readWord (s.withMem m) (0b01#2 ++ j) = v &&& 0x00FFFFFF#32 ∧
      KeepsMemoryOutside (fbAddr j.toNat) 3 s (s.withMem m)) ∧
    (s.cfg.w * s.cfg.h ≤ j.toNat → exec (.wrFb j v) s = .next s ∧ readWord s (0b01#2 ++ j) = 0#32) ∧
    readWord s (0b10#2 ++ j) = (if j.toNat < s.cfg.maxSamples then readSram s j.toNat else 0#32)

/-- Offset bits [1:0] are ignored, and no access stops for its alignment or for anything else (20_memory.md R123). -/
def Obligations.AlignmentIsIgnored : Prop :=
  ∀ (s : State) (we : Bool) (a : BitVec 20) (v : Word),
    runAccess ⟨we, a, v⟩ s = runAccess ⟨we, a &&& 0xFFFFC#20, v⟩ s ∧ ∃ t, runAccess ⟨we, a, v⟩ s = .next t

/-- A read puts the addressed word on the bus and changes no state of BBX, and reading again gives the same word
(20_memory.md R124, 44_control.md R413). -/
def Obligations.ReadsHaveNoSideEffect : Prop :=
  ∀ (s : State) (a : BitVec 18),
    exec (.rd a) s = .next (s.withEnv { s.env with rdata := readWord s a }) ∧
    KeepsMemory s (s.withEnv { s.env with rdata := readWord s a }) ∧
    ∀ b, readWord (s.withEnv { s.env with rdata := readWord s a }) b = readWord s b

/-- An offset that the map of 20_memory.md R125 gives to no register reads 0 and ignores writes, with no flag; so do
PM_STATE[c] and PM_LAST[c] for c >= NUM_CTL and the TEXTBUF bytes at and above TEXT_MAX (20_memory.md R128). -/
def Obligations.UnmappedOffsetsReadZero : Prop :=
  ∀ (s : State) (n : BitVec 18),
    let a := 4 * n.toNat
    (¬(a ≤ 0x2C ∨ (0x40 ≤ a ∧ a ≤ 0x60) ∨ (0x100 ≤ a ∧ a ≤ 0x13C) ∨ (0x200 ≤ a ∧ a ≤ 0x238) ∨
        (0x280 ≤ a ∧ a ≤ 0x2A4) ∨ (0x300 ≤ a ∧ a ≤ 0x7FC) ∨ (0x40000 ≤ a ∧ a ≤ 0xBFFFC)) →
      readWord s n = 0#32 ∧ ∀ v, runAccess ⟨true, wordOffset n, v⟩ s = .next s) ∧
    (∀ c, c < 4 → s.cfg.numCtl ≤ c → a = 0x288 + 4 * c ∨ a = 0x298 + 4 * c →
      readWord s n = 0#32 ∧ ∀ v, runAccess ⟨true, wordOffset n, v⟩ s = .next s) ∧
    (∀ m j, m < 16 → j < 4 → s.cfg.textMax ≤ 4 * m + j → a = 0x100 + 4 * m →
      (readWord s n).extractLsb' (8 * j) 8 = 0#8 ∧
      ∀ v t, runAccess ⟨true, wordOffset n, v⟩ s = .next t →
        t.led.textbuf.toList[4 * m + j]? = s.led.textbuf.toList[4 * m + j]? ∧ t.ctl = s.ctl)

/-- What a host reads of every register in every state, field by field, with all other bits 0: STATUS, CTRL and the
interrupt registers, the configuration, the scan, drawing, scroll, text, synth and mapper registers, LCMD, SCMD and PCMD as
0, PMTAB and SINETAB as their constants (10_state.md R41 to R62, R70 to R77, R80, R90 to R94). A write to a mapped read-only
word changes nothing and sets no flag (R41, 44_control.md R413). A text byte from TEXT_MAX on and a mapper word past NUM_CTL
are in UnmappedOffsetsReadZero. How a parameter of an illegal configuration reads is the model's choice (notes 28). -/
def Obligations.RegistersReadTheirFields : Prop :=
  ∀ s : State, configCheck s.cfg = true →
    let read (a : Nat) : Word := readWord s (BitVec.ofNat 18 (a / 4))
    let bit (b : Bool) (k : Nat) : Nat := if b then 2 ^ k else 0
    let p := s.cfg
    let k := s.led.scroll
    read 0x000 = 0x42420007#32 ∧ ((read 0x004).toNat = bit s.ctl.scanEn 0 ∧
      (read 0x008).toNat = bit (lbusy s) 0 + bit (sbusy s) 1 + bit (scanActive s) 2 + bit s.ctl.fatal 3 +
        s.ctl.sticky.toNat * 2 ^ 8 ∧
      (read 0x00C).toNat = s.ctl.irqPend.toNat ∧ (read 0x010).toNat = s.ctl.irqEn.toNat) ∧
    ((read 0x014).toNat = p.w + p.h * 2 ^ 16 ∧
      (read 0x018).toNat = p.depth + max 1 (Nat.clog 2 (p.h / 2)) * 2 ^ 4 + p.gw * 2 ^ 8 + p.gh * 2 ^ 12 +
        p.textMax * 2 ^ 16 + p.numCtl * 2 ^ 24 ∧
      (read 0x01C).toNat = p.sampleRate + p.maxSamples * 2 ^ 16) ∧
    ((read 0x020).toNat = s.scan.period.toNat ∧ (read 0x024).toNat = s.scan.unit.toNat ∧
      (read 0x028).toNat = s.scan.plane.toNat + s.scan.rowpair.toNat * 2 ^ 8 + bit (scanActive s) 16 ∧
      read 0x02C = s.scan.frameCount ∧
      (scanActive s = true ↔ s.scan.phase ≠ .idle ∧ s.scan.phase ≠ .setup)) ∧
    (read 0x040 = s.led.larg0 ∧ read 0x044 = s.led.larg1 ∧ (read 0x048).toNat = s.led.larg2.toNat ∧
      (read 0x04C).toNat = s.led.lcolor.toNat ∧ (read 0x054).toNat = s.led.textLen.toNat ∧
      (read 0x058).toNat = k.xoff.toNat + k.sy.toNat * 2 ^ 16 ∧
      (read 0x05C).toNat = bit k.active 0 + bit k.rainbow 1 + k.phase.toNat * 2 ^ 8 ∧
      (read 0x060).toNat = k.color.toNat ∧
      ∀ m j, m < 16 → j < 4 → 4 * m + j < p.textMax →
        s.led.textbuf.toList[4 * m + j]? = some ((read (0x100 + 4 * m)).extractLsb' (8 * j) 8)) ∧
    ((∀ q ∈ [(0x200, s.syn.par.freq), (0x204, s.syn.par.amp), (0x208, s.syn.par.decay), (0x210, s.syn.par.offset),
        (0x214, s.syn.par.pdecay), (0x218, s.syn.par.nmix), (0x21C, s.syn.par.envc), (0x220, s.syn.par.comp),
        (0x280, s.pm.raw)], read q.1 = q.2) ∧
      (read 0x20C).toNat = s.syn.par.wave.toNat ∧ (read 0x224).toNat = s.syn.capacity.toNat ∧
      (read 0x228).toNat = bit s.syn.fmt 0 ∧ (read 0x230).toNat = s.syn.activeLen.toNat ∧
      (read 0x234).toNat = s.syn.written.toNat ∧ (read 0x238).toNat = s.syn.pos.toNat) ∧
    (∀ c x, c < p.numCtl → s.pm.ctl.toList[c]? = some x →
      (read (0x288 + 4 * c)).toNat = x.sel.toNat + bit x.engaged 8 + bit x.changed 9 ∧ read (0x298 + 4 * c) = x.last) ∧
    (read 0x050 = 0#32 ∧ read 0x22C = 0#32 ∧ read 0x284 = 0#32) ∧
    (let one := 0x3F800000#32
      let step := 0x3C23D70A#32
      let table : List (List Word) :=
        [[0x41A00000#32, 0x460CA000#32, step, 0x01#32, 0x40C37EF5#32], [0#32, one, step, 0x10#32, 0#32],
         [0#32, 0x40000000#32, step, 0x20#32, 0#32], [0#32, one, step, 0x40#32, 0#32],
         [step, 0x41200000#32, step, 0x51#32, 0x40DD0C55#32], [0#32, one, step, 0x60#32, 0#32],
         [0#32, 0x41200000#32, step, 0x70#32, 0#32], [0#32, one, step, 0x80#32, 0#32]]
      ∀ i j, i < 8 → j < 8 → read (0x300 + 32 * i + 4 * j) = (table.getD i []).getD j 0#32) ∧
    (let quarter : List Word := [0x00000000#32, 0x3CC90AB0#32, 0x3D48FB30#32, 0x3D96A905#32, 0x3DC8BD36#32, 0x3DFAB273#32, 0x3E164083#32,
      0x3E2F10A2#32, 0x3E47C5C2#32, 0x3E605C13#32, 0x3E78CFCC#32, 0x3E888E93#32, 0x3E94A031#32, 0x3EA09AE5#32,
      0x3EAC7CD4#32, 0x3EB8442A#32, 0x3EC3EF15#32, 0x3ECF7BCA#32, 0x3EDAE880#32, 0x3EE63375#32, 0x3EF15AEA#32,
      0x3EFC5D27#32, 0x3F039C3D#32, 0x3F08F59B#32, 0x3F0E39DA#32, 0x3F13682A#32, 0x3F187FC0#32, 0x3F1D7FD1#32,
      0x3F226799#32, 0x3F273656#32, 0x3F2BEB4A#32, 0x3F3085BB#32, 0x3F3504F3#32, 0x3F396842#32, 0x3F3DAEF9#32,
      0x3F41D870#32, 0x3F45E403#32, 0x3F49D112#32, 0x3F4D9F02#32, 0x3F514D3D#32, 0x3F54DB31#32, 0x3F584853#32,
      0x3F5B941A#32, 0x3F5EBE05#32, 0x3F61C598#32, 0x3F64AA59#32, 0x3F676BD8#32, 0x3F6A09A7#32, 0x3F6C835E#32,
      0x3F6ED89E#32, 0x3F710908#32, 0x3F731447#32, 0x3F74FA0B#32, 0x3F76BA07#32, 0x3F7853F8#32, 0x3F79C79D#32,
      0x3F7B14BE#32, 0x3F7C3B28#32, 0x3F7D3AAC#32, 0x3F7E1324#32, 0x3F7EC46D#32, 0x3F7F4E6D#32, 0x3F7FB10F#32,
      0x3F7FEC43#32, 0x3F800000#32];
      (∀ i, i ≤ 64 → read (0x400 + 4 * i) = quarter.getD i 0#32) ∧
      (∀ i, i ≤ 64 → read (0x400 + 4 * (64 + i)) = read (0x400 + 4 * (64 - i))) ∧
      (∀ i, 1 ≤ i → i < 128 → read (0x400 + 4 * (128 + i)) = read (0x400 + 4 * i) ^^^ 0x80000000#32)) ∧
    ∀ (n : BitVec 18) (v : Word),
      let a := 4 * n.toNat
      a ∈ [0x000, 0x014, 0x018, 0x01C, 0x028, 0x02C, 0x058, 0x05C, 0x060, 0x230, 0x234, 0x238] ∨
        (0x288 ≤ a ∧ a ≤ 0x2A4) ∨ (0x300 ≤ a ∧ a ≤ 0x7FC) ∨ (0x80000 ≤ a ∧ a ≤ 0xBFFFC) →
      runAccess ⟨true, wordOffset n, v⟩ s = .next s

/-! ## Scan-out -/

/-- One slot, run from SETUP with no framebuffer write in between: it emits exactly the events of 43_led_scan.md R363 for
its plane and row-pair, leaves the output off, moves to the next slot of R373, and emits FrameEnd, counts the
frame and raises FRAME iff it was the frame's last (R374). -/
def Obligations.SlotEmitsItsEvents : Prop :=
  ∀ s : State, configCheck s.cfg = true → s.ctl.fatal = false → s.ctl.scanEn = true → s.scan.phase = .setup →
    s.scan.plane.toNat < s.cfg.depth → s.scan.rowpair.toNat < s.cfg.h / 2 →
    let last := slotIndex s + 1 = s.cfg.depth * (s.cfg.h / 2)
    let t := seRun (s.cfg.w + 4) s
    t.env.history =
      (slotEvents s.cfg (readPixel s) s.scan.unit.toNat s.scan.plane.toNat s.scan.rowpair.toNat ++
        if last then [Event.frameEnd] else []).reverse ++ s.env.history ∧
    t.panel.oeN = true ∧
    slotIndex t = (slotIndex s + 1) % (s.cfg.depth * (s.cfg.h / 2)) ∧
    t.scan.plane.toNat < s.cfg.depth ∧ t.scan.rowpair.toNat < s.cfg.h / 2 ∧
    t.scan.frameCount = (if last then s.scan.frameCount + 1#32 else s.scan.frameCount) ∧
    t.ctl = { s.ctl with irqPend := s.ctl.irqPend ||| (if last then 1#4 else 0#4) } ∧
    t.scan.phase = (if s.scan.tpend then .setup else .idle) ∧ t.scan.tpend = false ∧
    t.mem = s.mem ∧ t.led = s.led ∧ t.syn = s.syn ∧ t.pm = s.pm

/-- A slot that ends with SCAN_EN = 0 leaves SE idle at slot (0, 0) with the output off and no tick pending
(43_led_scan.md R363, R370). -/
def Obligations.DisabledScanEndsDarkAtTheFirstSlot : Prop :=
  ∀ (s : State) (hold : Nat), s.ctl.fatal = false → s.ctl.scanEn = false → s.scan.phase = .fin hold →
    (seStep s).scan.phase = .idle ∧ (seStep s).scan.tpend = false ∧ (seStep s).scan.plane = 0#4 ∧
    (seStep s).scan.rowpair = 0#8 ∧ (seStep s).panel = { s.panel with oeN := true } ∧ (seStep s).mem = s.mem

/-- A frame is the DEPTH * H/2 slots of 43_led_scan.md R373 in their order, then FrameEnd; it counts once and sets FRAME
(R374). The framebuffer is not written in between. -/
def Obligations.FrameEmitsItsEvents : Prop :=
  ∀ s : State, configCheck s.cfg = true → s.ctl.fatal = false → s.ctl.scanEn = true →
    (s.scan.phase = .idle ∨ s.scan.phase = .setup) → slotIndex s = 0 →
    let t := scanSlot^[s.cfg.depth * (s.cfg.h / 2)] s
    t.env.history = (frameEvents s.cfg (readPixel s) s.scan.unit.toNat).reverse ++ s.env.history ∧
    slotIndex t = 0 ∧ t.scan.frameCount = s.scan.frameCount + 1#32 ∧
    t.ctl = { s.ctl with irqPend := s.ctl.irqPend ||| 1#4 } ∧ t.mem = s.mem

/-- SE's steps over one frame with no framebuffer write emit events over which a panel lights each channel of each pixel
for (v >> (8 - DEPTH)) * UNIT cycles, v being the channel's 8-bit value: upper and lower half, whatever the panel showed
before (43_led_scan.md R361 to R366, R375, R376). -/
def Obligations.FrameLightsEachChannelByItsValue : Prop :=
  ∀ s : State, configCheck s.cfg = true → s.ctl.fatal = false → s.ctl.scanEn = true →
    (s.scan.phase = .idle ∨ s.scan.phase = .setup) → slotIndex s = 0 →
    ∃ l, (scanSlot^[s.cfg.depth * (s.cfg.h / 2)] s).env.history = l.reverse ++ s.env.history ∧
      ∀ (x y : Nat) (ch : Channel) (v : PanelView), x < s.cfg.w → y < s.cfg.h →
        litTime s.cfg x y ch l v = channelValue (readPixel s x y) ch / 2 ^ (8 - s.cfg.depth) * s.scan.unit.toNat

/-- Every clock cycle of the timer, in every phase: where TCNT + 1 reaches PERIOD, TCNT restarts and a tick starts the slot
when SE is idle, else is remembered and recorded as SCAN_OVR and ERR; in any other cycle TCNT counts and nothing else
changes; while SCAN_EN = 0 or FATAL = 1 nothing changes (43_led_scan.md R372, R378). The timer as an agent, and the tick and
the wrap of TCNT as one step, are the model's reading (notes 12). -/
def Obligations.TickStartsTheSlotOrIsRecorded : Prop :=
  ∀ s : State,
    (s.ctl.scanEn = false ∨ s.ctl.fatal = true → timerStep s = s) ∧
    (s.ctl.scanEn = true → s.ctl.fatal = false →
      (s.scan.tcnt.toNat + 1 < s.scan.period.toNat →
        timerStep s = s.withScan { s.scan with tcnt := BitVec.ofNat 24 (s.scan.tcnt.toNat + 1) }) ∧
      (s.scan.period.toNat ≤ s.scan.tcnt.toNat + 1 →
        (s.scan.phase = .idle → timerStep s = s.withScan { s.scan with tcnt := 0#24, phase := .setup }) ∧
        (s.scan.phase ≠ .idle → timerStep s =
          (s.withScan { s.scan with tcnt := 0#24, tpend := true }).withCtl { s.ctl with
            sticky := s.ctl.sticky ||| 0x20#6, irqPend := s.ctl.irqPend ||| 8#4 })))

/-- From TCNT = 0 the timer counts PERIOD cycles and ticks in the last of them, not before (43_led_scan.md R378). That one
turn of the timer is one system clock cycle is the model's choice (notes 12). -/
def Obligations.TimerTicksEveryPeriod : Prop :=
  ∀ s : State, s.ctl.scanEn = true → s.ctl.fatal = false → s.scan.tcnt = 0#24 → s.scan.period ≠ 0#24 →
    s.scan.phase = .idle →
    (∀ n, n < s.scan.period.toNat → timerRun n s = s.withScan { s.scan with tcnt := BitVec.ofNat 24 n }) ∧
    timerRun s.scan.period.toNat s = s.withScan { s.scan with phase := .setup }

/-- A CTRL write without SRST: SCAN_EN takes bit 0; on 0 to 1 TCNT restarts; on 1 to 0 outside a slot SE returns to IDLE
at slot (0, 0); inside a slot the slot goes on; nothing else changes (44_control.md R400, 43_led_scan.md R370). -/
def Obligations.CtrlWriteStartsAndStopsTheScan : Prop :=
  ∀ (s : State) (v : Word), v.getLsbD 1 = false →
    let s1 := s.withCtl { s.ctl with scanEn := v.getLsbD 0 }
    (s.ctl.scanEn = v.getLsbD 0 → exec (.wrCtrl v) s = .next s) ∧
    (s.ctl.scanEn = false → v.getLsbD 0 = true →
      exec (.wrCtrl v) s = .next (s1.withScan { s.scan with tcnt := 0#24 })) ∧
    (s.ctl.scanEn = true → v.getLsbD 0 = false → s.scan.phase = .idle ∨ s.scan.phase = .setup →
      exec (.wrCtrl v) s =
        .next (s1.withScan { s.scan with phase := .idle, tpend := false, plane := 0#4, rowpair := 0#8 })) ∧
    (s.ctl.scanEn = true → v.getLsbD 0 = false → s.scan.phase ≠ .idle → s.scan.phase ≠ .setup →
      exec (.wrCtrl v) s = .next s1)

/-! ## Register stores -/

/-- SCAN_PERIOD stores bits [23:0] and 0 as 1; HOLD_UNIT stores bits [15:0] (44_control.md R404, R405). -/
def Obligations.ScanRegistersStore : Prop :=
  ∀ (s : State) (v : Word),
    exec (.wrScanPeriod v) s = .next (s.withScan { s.scan with
      period := BitVec.ofNat 24 (if v.toNat % 2 ^ 24 = 0 then 1 else v.toNat % 2 ^ 24) }) ∧
    exec (.wrHoldUnit v) s = .next (s.withScan { s.scan with unit := BitVec.ofNat 16 v.toNat })

/-- The drawing operand registers store their words, LARG2 bits [7:0] and LCOLOR bits [23:0], at their offsets, and change
nothing else: a command in progress keeps its list (44_control.md R406). -/
def Obligations.OperandRegistersStore : Prop :=
  ∀ (s : State) (v : Word),
    let stores (i : Instr) (a : BitVec 20) (l : Led) : Prop :=
      exec i s = .next (s.withLed l) ∧ runAccess ⟨true, a, v⟩ s = .next (s.withLed l)
    stores (.wrLarg0 v) 0x00040#20 { s.led with larg0 := v } ∧
    stores (.wrLarg1 v) 0x00044#20 { s.led with larg1 := v } ∧
    stores (.wrLarg2 v) 0x00048#20 { s.led with larg2 := BitVec.ofNat 8 v.toNat } ∧
    stores (.wrLcolor v) 0x0004C#20 { s.led with lcolor := BitVec.ofNat 24 v.toNat }

/-- TEXT_LEN stores min(wdata[7:0], TEXT_MAX); a TEXTBUF word stores its four bytes, least significant first, below
TEXT_MAX, and no other byte of the buffer changes (44_control.md R407, R408, 10_state.md R60). -/
def Obligations.TextRegistersStore : Prop :=
  ∀ (s : State) (m : BitVec 4) (v : Word), configCheck s.cfg = true →
    (∃ n : BitVec 7, exec (.wrTextLen v) s = .next (s.withLed { s.led with textLen := n }) ∧
      n.toNat = min (v.toNat % 256) s.cfg.textMax) ∧
    (∃ t : Vector Byte 64, exec (.wrTextbuf m v) s = .next (s.withLed { s.led with textbuf := t }) ∧
      ∀ k, k < 64 → t.toList[k]? =
        if k / 4 = m.toNat ∧ k < s.cfg.textMax then some (v.extractLsb' (8 * (k % 4)) 8)
        else s.led.textbuf.toList[k]?)

/-- A write to a parameter register stores the word clamped into its range [MIN, MAX]: a NaN or a value below MIN as MIN,
a value above MAX as MAX, a zero in the range as +0, any other value as it is; WAVE stores the lesser of the unsigned word
and 4 (10_state.md R70, R71, 44_control.md R409). -/
def Obligations.ParameterRegistersClamp : Prop :=
  ∀ (s : State) (v : Word),
    let stored (lo hi y : F32) : Prop :=
      fle lo y = true ∧ fle y hi = true ∧ (fIsNaN v = true → y = lo) ∧ (flt v lo = true → y = lo) ∧
      (fle lo v = true → fle v hi = true → fIsZero v = false → y = v) ∧
      (fIsZero v = true → y = lo) ∧ (flt hi v = true → y = hi)
    let next (p : WaveParams) : Result := .next (s.withSyn { s.syn with par := p })
    (∃ y, stored 0x41A00000#32 0x460CA000#32 y ∧ exec (.wrFreq v) s = next { s.syn.par with freq := y }) ∧
    (∃ y, stored 0x00000000#32 0x3F800000#32 y ∧ exec (.wrAmp v) s = next { s.syn.par with amp := y }) ∧
    (∃ y, stored 0x00000000#32 0x40000000#32 y ∧ exec (.wrDecay v) s = next { s.syn.par with decay := y }) ∧
    (∃ y, stored 0x00000000#32 0x3F800000#32 y ∧ exec (.wrOffset v) s = next { s.syn.par with offset := y }) ∧
    (∃ y, stored 0x00000000#32 0x41200000#32 y ∧ exec (.wrPdecay v) s = next { s.syn.par with pdecay := y }) ∧
    (∃ y, stored 0x00000000#32 0x3F800000#32 y ∧ exec (.wrNmix v) s = next { s.syn.par with nmix := y }) ∧
    (∃ y, stored 0x00000000#32 0x41200000#32 y ∧ exec (.wrEnvc v) s = next { s.syn.par with envc := y }) ∧
    (∃ y, stored 0x00000000#32 0x3F800000#32 y ∧ exec (.wrComp v) s = next { s.syn.par with comp := y }) ∧
    exec (.wrWave v) s = next { s.syn.par with wave := BitVec.ofNat 3 (min v.toNat 4) }

/-- CAPACITY stores min(wdata, MAX_SAMPLES), SMODE bit 0, PM_RAW the whole word unclamped
(44_control.md R410 to R412). -/
def Obligations.SynthAndMapperRegistersStore : Prop :=
  ∀ (s : State) (v : Word), configCheck s.cfg = true →
    (∃ n : BitVec 17, exec (.wrCapacity v) s = .next (s.withSyn { s.syn with capacity := n }) ∧
      n.toNat = min v.toNat s.cfg.maxSamples) ∧
    exec (.wrSmode v) s = .next (s.withSyn { s.syn with fmt := v.getLsbD 0 }) ∧
    exec (.wrPmRaw v) s = .next (s.withPm { s.pm with raw := v })

/-- What an instruction leaves alone. Only WR_FB stores to memory, at most the three bytes of its pixel; only a CTRL
write touches the scan position or the panel; a read changes `bus_rdata` only; a command either changes only its own
engine's state, and no flag, or sets the flag of its drop and ERR and changes nothing else
(00_scope.md R13, 20_memory.md R126, R140, 44_control.md R413). -/
def Obligations.InstructionFrames : Prop :=
  ∀ (i : Instr) (s t : State), exec i s = .next t →
    let dropped (flag : BitVec 6) : State :=
      s.withCtl { s.ctl with sticky := s.ctl.sticky ||| flag, irqPend := s.ctl.irqPend ||| 8#4 }
    t.cfg = s.cfg ∧ ((∀ a, i ≠ .rd a) → t.env = s.env) ∧
    (∀ a, i = .rd a → t = s.withEnv { s.env with rdata := t.env.rdata }) ∧
    (∀ j v, i = .wrFb j v → KeepsMemoryOutside (fbAddr j.toNat) 3 s t) ∧
    ((∀ j v, i ≠ .wrFb j v) → KeepsMemory s t) ∧
    ((∀ v, i ≠ .wrCtrl v) → t.panel = s.panel ∧ t.scan = { s.scan with period := t.scan.period, unit := t.scan.unit }) ∧
    ((encode i).we = true → (encode i).addr = 0x00050#20 →
      t = s.withLed { s.led with scroll := t.led.scroll, pw := t.led.pw } ∨ t = dropped 0x01#6) ∧
    ((encode i).we = true → (encode i).addr = 0x0022C#20 →
      t = s.withSyn { s.syn with activeLen := t.syn.activeLen, pos := t.syn.pos, job := t.syn.job } ∨
        t = dropped 0x04#6) ∧
    ((encode i).we = true → (encode i).addr = 0x00284#20 →
      t = (s.withSyn { s.syn with par := t.syn.par }).withPm { s.pm with ctl := t.pm.ctl } ∨ t = dropped 0x10#6)

/-! ## Synthesizer -/

/-- GENERATE, accepted: the parameters, CAP and FMT are snapshot, ACTIVE_LEN is min(CAP, trunc(dEff * SRf)), SYN_POS is 0,
the index and the phase start at 0, and SBUSY is set (40_synth.md R200, R203, R205). -/
def Obligations.GenerateIsAccepted : Prop :=
  ∀ s : State, s.ctl.fatal = false → sbusy s = false →
    let d := s.syn.par.decay
    let dEff := if flt d s.cfg.decayEps then s.cfg.decayEps else d
    let n := min s.syn.capacity.toNat (ftrunc (fmul dEff (fofNat s.cfg.sampleRate))).toNat
    exec .synGenerate s = .next (s.withSyn { s.syn with
      activeLen := BitVec.ofNat 17 n, pos := 0#17,
      job := some { par := s.syn.par, cap := s.syn.capacity, fmt := s.syn.fmt, i := 0, ph := 0x00000000#32,
                    pcache := [], ecache := [] } })

/-- A DECAY register value of at most 2.0 gives at most 2 * SAMPLE_RATE rendered samples, for every decay floor of at
most 2.0 (40_synth.md R205). -/
def Obligations.ActiveLengthIsBounded : Prop :=
  ∀ (p : Params) (cap : Nat) (d : F32), configCheck p = true → fle p.decayEps fTwo = true →
    clampP d (paramMin .decay) (paramMax .decay) = d →
    activeLen p cap (decayEff p d) ≤ cap ∧ activeLen p cap (decayEff p d) ≤ 2 * p.sampleRate

/-- A GENERATE writes exactly CAP samples in at most N + CAP + 1 steps of SY: one SampleWrite event for each index in
rising order, each word in SRAM and equal to that sample of the render, with the phase and the oracle's answers carried
from sample to sample (SampleWordFollowsThePipeline says what one sample's word is), the tail from N on the silence value;
then WRITTEN and SYN_POS are CAP, SBUSY is 0 and SDONE is set, and no other state changes but the oracle's
(40_synth.md R202, R210, R211, R229 to R233). That one fill step serves both caches is the model's choice (notes 16). -/
def Obligations.GenerateWritesItsSamples : Prop :=
  ∀ s : State, configCheck s.cfg = true → s.ctl.fatal = false → sbusy s = false →
    s.syn.capacity.toNat ≤ s.cfg.maxSamples →
    ∃ t, exec .synGenerate s = .next t ∧
      let cap17 := s.syn.capacity
      let cap := cap17.toNat
      ∃ (n : Nat) (words : List Word) (m : Memory), n ≤ t.syn.activeLen.toNat + cap + 1 ∧ words.length = cap ∧
        let u := syRun n t
        u.env.history = (words.zipIdx.map fun q => Event.sampleWrite q.2 q.1).reverse ++ s.env.history ∧
        let job : Job := ⟨s.syn.par, s.syn.capacity, s.syn.fmt, 0, 0x00000000#32, [], []⟩
        let oracle := (renderState s.cfg job s.env cap).2
        (∀ j, j < cap → words[j]? = some (readSram u j)) ∧
        (∀ j, j < cap → words[j]? = some (renderWord s.cfg job s.env j)) ∧
        (∀ j, t.syn.activeLen.toNat ≤ j → j < cap → readSram u j = if s.syn.fmt then 0x00000000#32 else 0x00000080#32) ∧
        let done := { s.syn with activeLen := t.syn.activeLen, written := cap17, pos := cap17, job := none }
        u = (((s.withSyn done).withCtl { s.ctl with irqPend := s.ctl.irqPend ||| 4#4 }).withMem m).withEnv u.env ∧
        u.env = { s.env with history := u.env.history, noise := oracle.noise, draws := oracle.draws } ∧
        KeepsMemoryOutside (sramAddr 0) (4 * cap) s u

/-- Every sample word is in range: 0 to 255 in FMT 0, a binary32 value in [-1, 1] in FMT 1, whatever the parameters,
the phase and the noise (40_synth.md R232). -/
def Obligations.SamplesStayInRange : Prop :=
  ∀ (p : Params) (j : Job) (e : Env),
    (j.fmt = false → (sampleWord p j e).1.toNat ≤ 255) ∧
    (j.fmt = true → fle fMinusOne (sampleWord p j e).1 = true ∧ fle (sampleWord p j e).1 fOne = true)

/-- The word of sample i, the new phase and the oracle's state: below N the eight steps of 40_synth.md R211 to R228 in their
order, with every formula of frequency, phase, offset, waveform, blend, envelope, amplitude, compression, clamp and output
written out; from N on the silence value, with no draw and the phase as it was (R229). The premise on the caches, that an
entry that is there is the value it caches, is R210's; a render's caches meet it at every step (R103). What WAVE codes
above 4 do is the model's choice (notes 22), and no register stores one. -/
def Obligations.SampleWordFollowsThePipeline : Prop :=
  ∀ (p : Params) (j : Job) (e : Env), j.par.wave.toNat ≤ 4 →
    let w := j.par
    let sr := fofNat p.sampleRate
    let dEff := if flt w.decay p.decayEps then p.decayEps else w.decay
    let n := min j.cap.toNat (ftrunc (fmul dEff sr)).toNat
    let time (i : Nat) : F32 := fdiv (fofNat i) sr
    let pitch (i : Nat) : F32 := fmul w.freq (exp32 (fneg (fmul w.pdecay (time i))))
    let envelope (i : Nat) : F32 := exp32 (fneg (fmul (fdiv w.envc dEff) (time i)))
    (n ≤ j.i → sampleWord p j e = (if j.fmt then 0x00000000#32 else 0x00000080#32, j.ph, e)) ∧
    (j.i < n → (∀ y, j.pcache[j.i]? = some y → y = pitch j.i) → (∀ y, j.ecache[j.i]? = some y → y = envelope j.i) →
      let frac (a : F32) : F32 := fsub a (ffloor a)
      let f := if feq w.pdecay 0x00000000#32 then w.freq else pitch j.i
      let ph := frac (fadd j.ph (fdiv f sr))
      let q := if feq w.offset 0x00000000#32 then ph else frac (fadd ph w.offset)
      let wave : F32 × Env :=
        if w.wave = 0#3 then (sineAt (ftrunc (fmul q 0x43800000#32) % 256).toNat, e)
        else if w.wave = 1#3 then (if flt q 0x3F000000#32 then 0x3F800000#32 else 0xBF800000#32, e)
        else if w.wave = 2#3 then
          (if flt q 0x3F000000#32 then fsub (fmul 0x40800000#32 q) 0x3F800000#32
            else fsub 0x40400000#32 (fmul 0x40800000#32 q), e)
        else if w.wave = 3#3 then (fsub (fmul 0x40000000#32 q) 0x3F800000#32, e)
        else drawNoise e
      let noise := drawNoise wave.2
      let blend : F32 × Env :=
        if flt 0x00000000#32 w.nmix then
          (fadd (fmul (fsub 0x3F800000#32 w.nmix) wave.1) (fmul w.nmix noise.1), noise.2)
        else wave
      let env := if feq w.envc 0x00000000#32 then 0x3F800000#32 else envelope j.i
      let s1 := fmul (fmul blend.1 env) w.amp
      let thr := fsub 0x3F800000#32 (fmul 0x3F000000#32 w.comp)
      let ratio := fadd 0x3F800000#32 (fmul 0x40800000#32 w.comp)
      let gain := fdiv 0x3F800000#32 (fadd thr (fdiv (fsub 0x3F800000#32 thr) ratio))
      let y1 := if flt thr (fabs s1) then fadd thr (fdiv (fsub (fabs s1) thr) ratio) else fabs s1
      let y2 := fmul y1 gain
      let y3 := if flt 0x3F4CCCCD#32 w.comp ∧ flt 0x3F666666#32 y2 then 0x3F666666#32 else y2
      let s2 := if flt 0x00000000#32 w.comp then fcopysign y3 s1 else s1
      let s3 := if fIsNaN s2 then 0x00000000#32 else if flt 0x3F800000#32 s2 then 0x3F800000#32
        else if flt s2 0xBF800000#32 then 0xBF800000#32 else s2
      let duty := BitVec.ofNat 32 (min (ftrunc (fmul (fadd s3 0x3F800000#32) 0x43000000#32)).toNat 255)
      sampleWord p j e = (if j.fmt then s3 else duty, ph, blend.2))

/-- Every draw of NOISE is in [-1, 1] and no NaN, and every such value can be drawn (40_synth.md R221). That the answers
stand in `env.noise` and that one in the range is taken as it is are the model's form of the oracle (notes 5). -/
def Obligations.NoiseStaysInRange : Prop :=
  (∀ e : Env, fle fMinusOne (drawNoise e).1 = true ∧ fle (drawNoise e).1 fOne = true) ∧
  (∀ (e : Env) (v : F32) (t : List F32), e.noise = v :: t → fle fMinusOne v = true → fle v fOne = true →
    drawNoise e = (v, { e with noise := t }))

/-- The envelope never rises: sample i + 1 has at most the envelope of sample i, for every EXP32 that the configuration
may have, as long as the exponent is finite (95_test_vectors.md V-SYN-20, 40_synth.md R223, 00_scope.md R9 (vi)). -/
def Obligations.EnvelopeNeverRises : Prop :=
  ∀ (p : Params) (w : WaveParams) (i : Nat), configCheck p = true → fle fPosZero w.envc = true →
    fFinite (fmul (fdiv w.envc (decayEff p w.decay)) (sampleTime p (i + 1))) = true →
    fle (envelopeAt p w (i + 1)) (envelopeAt p w i) = true

/-- EXP32 has the properties (i), (ii), (iii) and (vi) that a claim may assume: the range of (ii) starts at +0, so no -0
comes out (00_scope.md R9). -/
def Obligations.ExpKeepsItsProperties : Prop :=
  exp32 0x00000000#32 = fOne ∧ exp32 0x80000000#32 = fOne ∧
  (∀ x, fFinite x = true → fle x fPosZero = true →
    fFinite (exp32 x) = true ∧ fsign (exp32 x) = false ∧ fle fPosZero (exp32 x) = true ∧ fle (exp32 x) fOne = true) ∧
  (∀ x, fFinite x = true → fle fPosZero x = true → fle x fEight = true →
    fFinite (exp32 x) = true ∧ fle fOne (exp32 x) = true) ∧
  (∀ x y, fFinite x = true → fFinite y = true → fle x y = true → fle (exp32 x) (exp32 y) = true)

/-- LN32 has the properties (iv) and (v) (00_scope.md R9). -/
def Obligations.LnKeepsItsProperties : Prop :=
  ln32 fOne = fPosZero ∧
  ∀ x, fFinite x = true → fle fOne x = true → fFinite (ln32 x) = true ∧ fle fPosZero (ln32 x) = true

/-- Fractions are exact and in [0, 1): for a finite a with sign 0, frac(a) is a's value modulo 1 (00_scope.md R12, the
ground of 40_synth.md R213). -/
def Obligations.FractionIsExact : Prop :=
  ∀ a : F32, fFinite a = true → fsign a = false →
    fFinite (ffrac a) = true ∧ fsign (ffrac a) = false ∧ funits (ffrac a) = funits a % 2 ^ 149 ∧
    flt (ffrac a) fOne = true

/-- Every waveform value lies in [-1, 1], at every phase in [0, 1) (40_synth.md R215 to R221). -/
def Obligations.WaveformsStayInRange : Prop :=
  ∀ (code : BitVec 3) (p : F32) (e : Env), fFinite p = true → fle fPosZero p = true → flt p fOne = true →
    fle fMinusOne (waveform code p e).1 = true ∧ fle (waveform code p e).1 fOne = true

/-! ## Mapper -/

/-- UPDATE of a legal control: it engages when |r - cur| <= ENGAGE_TOL; an engaged control commits when the change from
LAST (from cur, if it has just engaged) exceeds THR, and then the target register takes the clamped value; a control
that stays disengaged changes nothing but CHANGED. PMTAB, the targets, their ranges and the formulas of the raw clamp,
norm and denorm are written out (41_param_map.md R262, R264 to R267, R270, R271, R273, 10_state.md R71, R94). -/
def Obligations.UpdateEngagesThenCommits : Prop :=
  ∀ (s : State) (c : BitVec 4), configCheck s.cfg = true → s.ctl.fatal = false → c.toNat < s.cfg.numCtl →
    let x := getCtl s.pm c.toNat
    let k := x.sel.toNat
    let w := s.syn.par
    let zero : F32 := 0x00000000#32
    let one : F32 := 0x3F800000#32
    let step : F32 := 0x3C23D70A#32
    let table : List PmEntry :=
      [⟨0x41A00000#32, 0x460CA000#32, step, true, 0x0#4, 0x40C37EF5#32⟩, ⟨zero, one, step, false, 0x1#4, zero⟩,
       ⟨zero, 0x40000000#32, step, false, 0x2#4, zero⟩, ⟨zero, one, step, false, 0x4#4, zero⟩,
       ⟨step, 0x41200000#32, step, true, 0x5#4, 0x40DD0C55#32⟩, ⟨zero, one, step, false, 0x6#4, zero⟩,
       ⟨zero, 0x41200000#32, step, false, 0x7#4, zero⟩, ⟨zero, one, step, false, 0x8#4, zero⟩]
    let entry := table.getD k ⟨zero, zero, zero, false, 0#4, zero⟩
    let lo := if k = 0 then 0x41A00000#32 else zero
    let hi := [0x460CA000#32, one, 0x40000000#32, one, 0x41200000#32, one, 0x41200000#32, one].getD k zero
    let reg := [w.freq, w.amp, w.decay, w.offset, w.pdecay, w.nmix, w.envc, w.comp].getD k zero
    let raw := s.pm.raw
    let r := if fIsNaN raw ∨ flt raw zero then zero else if flt one raw then one else if fIsZero raw then zero else raw
    let scaled := if entry.isExp then (if fle reg entry.min then zero else fdiv (ln32 (fdiv reg entry.min)) entry.lnr)
      else fdiv (fsub reg entry.min) (fsub entry.max entry.min)
    let cur := if fIsNaN scaled ∨ flt scaled zero then zero else if flt one scaled then one else scaled
    let engaged := x.engaged || fle (fabs (fsub r cur)) s.cfg.engageTol
    let base := if x.engaged then x.last else cur
    let commits := engaged && flt entry.thr (fabs (fsub r base))
    let back := if entry.isExp then fmul entry.min (exp32 (fmul r entry.lnr))
      else fadd entry.min (fmul r (fsub entry.max entry.min))
    let v := if fIsNaN back ∨ flt back lo then lo else if flt hi back then hi else if fIsZero back then zero else back
    let stored := [{ w with freq := v }, { w with amp := v }, { w with decay := v }, { w with offset := v },
      { w with pdecay := v }, { w with nmix := v }, { w with envc := v }, { w with comp := v }].getD k w
    let par := if commits then stored else w
    ∃ t, exec (.pmUpdate c) s = .next t ∧
      t = (s.withSyn { s.syn with par := par }).withPm { s.pm with ctl := t.pm.ctl } ∧
      ∀ d, d < 4 → getCtl t.pm d =
        if d = c.toNat then
          ⟨x.sel, engaged, commits, if commits then r else if engaged then base else x.last⟩
        else getCtl s.pm d

/-- SELECT disengages on a new index and leaves ENGAGED on the same one; NEXT and PREV move the index modulo 8 and
disengage; all clear CHANGED, keep LAST and touch no other control (41_param_map.md R263, R268, R269, R272). -/
def Obligations.SelectNextPrevMoveTheIndex : Prop :=
  ∀ (s : State) (c : BitVec 4) (k : BitVec 3), configCheck s.cfg = true → s.ctl.fatal = false →
    c.toNat < s.cfg.numCtl →
    let x := getCtl s.pm c.toNat
    let moved (i : Instr) (y : PmControl) : Prop :=
      ∃ t, exec i s = .next t ∧ t = s.withPm { s.pm with ctl := t.pm.ctl } ∧
        ∀ d, d < 4 → getCtl t.pm d = if d = c.toNat then y else getCtl s.pm d
    moved (.pmSelect c k) ⟨k, decide (k = x.sel) && x.engaged, false, x.last⟩ ∧
    moved (.pmNext c) ⟨BitVec.ofNat 3 ((x.sel.toNat + 1) % 8), false, false, x.last⟩ ∧
    moved (.pmPrev c) ⟨BitVec.ofNat 3 ((x.sel.toNat + 7) % 8), false, false, x.last⟩

/-! ## Reset and the invariant -/

/-- What a host reads right after reset in the reference configuration at every mapped offset but the two ROMs and the FB
and SRAM windows: the words that 70_reset_and_hazards.md R461 gives (95_test_vectors.md V-RST-1), the write-only registers as
0, the mapper words past NUM_CTL as 0. -/
def Obligations.ResetReadsItsValues : Prop :=
  (∀ q ∈ [(0x000, 0x42420007#32), (0x004, 0#32), (0x008, 0#32), (0x00C, 0#32), (0x010, 0#32), (0x014, 0x00400040#32),
      (0x018, 0x01407554#32), (0x01C, 0x40001F40#32), (0x020, 0x00000800#32), (0x024, 0x00000010#32), (0x028, 0#32),
      (0x02C, 0#32), (0x040, 0#32), (0x044, 0#32), (0x048, 0#32), (0x04C, 0#32), (0x050, 0#32), (0x054, 0#32),
      (0x058, 0#32), (0x05C, 0#32), (0x060, 0#32), (0x200, 0x43DC0000#32), (0x204, 0x3F800000#32),
      (0x208, 0x3F000000#32), (0x20C, 0#32), (0x210, 0#32), (0x214, 0#32), (0x218, 0#32), (0x21C, 0x3F800000#32),
      (0x220, 0#32), (0x224, 0x00004000#32), (0x228, 0#32), (0x22C, 0#32), (0x230, 0#32), (0x234, 0#32),
      (0x238, 0#32), (0x280, 0#32), (0x284, 0#32)],
    readWord State.reset (BitVec.ofNat 18 (q.1 / 4)) = q.2) ∧
  (∀ m, m < 16 → readWord State.reset (BitVec.ofNat 18 (0x40 + m)) = 0#32) ∧
  (∀ c, c < 4 → readWord State.reset (BitVec.ofNat 18 (0xA2 + c)) = 0#32 ∧
    readWord State.reset (BitVec.ofNat 18 (0xA6 + c)) = 0#32) ∧
  irq State.reset = false ∧ State.reset.panel = ⟨false, false, false, false, false, false, 0#8, false, false, true⟩

/-- A soft reset, a CTRL write with SRST = 1, does all that a hard reset does in the host's step but keeps FB and SRAM:
every register is at its reset value, every engine is idle, OE_N is 1, and FATAL keeps the check's result
(70_reset_and_hazards.md R462 to R464). Which value an illegal parameter leaves in a field it does not fit is the model's
choice (notes 28). -/
def Obligations.SoftResetKeepsTheMemories : Prop :=
  ∀ (s : State) (v : Word), v.getLsbD 1 = true →
    ∃ t, exec (.wrCtrl v) s = .next t ∧ KeepsMemory s t ∧ t.cfg = s.cfg ∧
      t.ctl = ⟨false, !configCheck s.cfg, 0#6, if configCheck s.cfg then 0#4 else 8#4, 0#4⟩ ∧
      t.scan = ⟨BitVec.ofNat 24 s.cfg.scanPeriodReset, BitVec.ofNat 16 s.cfg.holdUnitReset, 0#4, 0#8, 0#32, .idle, 0#24, false⟩ ∧
      t.panel = Panel.reset ∧ t.panel.oeN = true ∧ t.led = Led.reset ∧ lbusy t = false ∧
      t.syn = Synth.resetOf s.cfg ∧ sbusy t = false ∧ t.pm = Mapper.reset

/-- While the reset input is asserted no agent changes BBX and host accesses are taken without effect; releasing it puts
every part of BBX at its reset value in one step (70_reset_and_hazards.md R460). FB and SRAM then hold any value: that no
byte stays listed and that the contents are drawn anew by the count of hard resets are the model's form of it (notes 4).
Asserting and releasing the input as turns of the environment, and a read during reset leaving `bus_rdata`, are the model's
choices (notes 18), and so is which value an illegal parameter leaves in a field it does not fit (notes 28). -/
def Obligations.HardResetRestartsTheMachine : Prop :=
  ∀ s : State,
    (nextTurn s = .assertReset → ∃ t, step s = .next t ∧ t = s.withEnv t.env ∧ t.env.inReset = true) ∧
    (s.env.inReset = true → (∀ a, nextTurn s = .agent a →
      ∃ t, step s = .next t ∧ t = s.withEnv t.env ∧ t.env.inReset = true ∧ t.env.rdata = s.env.rdata)) ∧
    (EndsReset s → ∃ t, step s = .next t ∧ t = (State.resetOf s.cfg).withEnv t.env ∧ t.env.inReset = false ∧
      t.mem = [] ∧ t.env.epoch = s.env.epoch + 1)

/-- The invariant holds right after reset (70_reset_and_hazards.md R465). -/
def Obligations.InvariantHoldsAtReset : Prop := Inv State.reset

/-- Every step of every agent keeps the invariant: registers in range, memory in canonical form and in its windows, scan
position and phase legal, the panel lit only between HOLD and END, SY's job and caches consistent, LE's list on the
panel (10_state.md R70 to R72, R100 to R103, 43_led_scan.md R365, R370). -/
def Obligations.EveryStepKeepsTheInvariant : Prop :=
  ∀ s t : State, Inv s → step s = .next t → Inv t

/-- Only SY writes SRAM, and only LE and the host's FB window write FB: in any other step every byte reads as before,
unless a hard reset draws the memories anew (10_state.md R63, R78, 20_memory.md R126, R127). -/
def Obligations.OnlyTheirEnginesWriteTheMemories : Prop :=
  ∀ s t : State, Inv s → step s = .next t → ¬EndsReset s →
    (nextTurn s ≠ .agent .sy → ∀ a, sramBase ≤ a → readByte t a = readByte s a) ∧
    (nextTurn s ≠ .agent .le → (∀ x j v, HostDoes s x → decode x ≠ .instr (.wrFb j v)) →
      ∀ a, a < sramBase → readByte t a = readByte s a)
end

