-- ==== Sys2Proof/Laws/State.lean ====
section
/-! SUPPORT. One lemma per field per update of State, each true by rfl: later proofs unfold no record update. -/

namespace Sys2Proof.Machine

@[simp] theorem withCtl_cfg (s : State) (x : Ctl) : (s.withCtl x).cfg = s.cfg := rfl
@[simp] theorem withCtl_ctl (s : State) (x : Ctl) : (s.withCtl x).ctl = x := rfl
@[simp] theorem withCtl_scan (s : State) (x : Ctl) : (s.withCtl x).scan = s.scan := rfl
@[simp] theorem withCtl_panel (s : State) (x : Ctl) : (s.withCtl x).panel = s.panel := rfl
@[simp] theorem withCtl_led (s : State) (x : Ctl) : (s.withCtl x).led = s.led := rfl
@[simp] theorem withCtl_syn (s : State) (x : Ctl) : (s.withCtl x).syn = s.syn := rfl
@[simp] theorem withCtl_pm (s : State) (x : Ctl) : (s.withCtl x).pm = s.pm := rfl
@[simp] theorem withCtl_mem (s : State) (x : Ctl) : (s.withCtl x).mem = s.mem := rfl
@[simp] theorem withCtl_env (s : State) (x : Ctl) : (s.withCtl x).env = s.env := rfl
@[simp] theorem withCtl_withCtl (s : State) (x y : Ctl) : (s.withCtl x).withCtl y = s.withCtl y := rfl
@[simp] theorem withCtl_self (s : State) : s.withCtl s.ctl = s := rfl

@[simp] theorem withScan_cfg (s : State) (x : Scan) : (s.withScan x).cfg = s.cfg := rfl
@[simp] theorem withScan_ctl (s : State) (x : Scan) : (s.withScan x).ctl = s.ctl := rfl
@[simp] theorem withScan_scan (s : State) (x : Scan) : (s.withScan x).scan = x := rfl
@[simp] theorem withScan_panel (s : State) (x : Scan) : (s.withScan x).panel = s.panel := rfl
@[simp] theorem withScan_led (s : State) (x : Scan) : (s.withScan x).led = s.led := rfl
@[simp] theorem withScan_syn (s : State) (x : Scan) : (s.withScan x).syn = s.syn := rfl
@[simp] theorem withScan_pm (s : State) (x : Scan) : (s.withScan x).pm = s.pm := rfl
@[simp] theorem withScan_mem (s : State) (x : Scan) : (s.withScan x).mem = s.mem := rfl
@[simp] theorem withScan_env (s : State) (x : Scan) : (s.withScan x).env = s.env := rfl
@[simp] theorem withScan_withScan (s : State) (x y : Scan) : (s.withScan x).withScan y = s.withScan y := rfl
@[simp] theorem withScan_self (s : State) : s.withScan s.scan = s := rfl

@[simp] theorem withPanel_cfg (s : State) (x : Panel) : (s.withPanel x).cfg = s.cfg := rfl
@[simp] theorem withPanel_ctl (s : State) (x : Panel) : (s.withPanel x).ctl = s.ctl := rfl
@[simp] theorem withPanel_scan (s : State) (x : Panel) : (s.withPanel x).scan = s.scan := rfl
@[simp] theorem withPanel_panel (s : State) (x : Panel) : (s.withPanel x).panel = x := rfl
@[simp] theorem withPanel_led (s : State) (x : Panel) : (s.withPanel x).led = s.led := rfl
@[simp] theorem withPanel_syn (s : State) (x : Panel) : (s.withPanel x).syn = s.syn := rfl
@[simp] theorem withPanel_pm (s : State) (x : Panel) : (s.withPanel x).pm = s.pm := rfl
@[simp] theorem withPanel_mem (s : State) (x : Panel) : (s.withPanel x).mem = s.mem := rfl
@[simp] theorem withPanel_env (s : State) (x : Panel) : (s.withPanel x).env = s.env := rfl
@[simp] theorem withPanel_withPanel (s : State) (x y : Panel) : (s.withPanel x).withPanel y = s.withPanel y := rfl
@[simp] theorem withPanel_self (s : State) : s.withPanel s.panel = s := rfl

@[simp] theorem withLed_cfg (s : State) (x : Led) : (s.withLed x).cfg = s.cfg := rfl
@[simp] theorem withLed_ctl (s : State) (x : Led) : (s.withLed x).ctl = s.ctl := rfl
@[simp] theorem withLed_scan (s : State) (x : Led) : (s.withLed x).scan = s.scan := rfl
@[simp] theorem withLed_panel (s : State) (x : Led) : (s.withLed x).panel = s.panel := rfl
@[simp] theorem withLed_led (s : State) (x : Led) : (s.withLed x).led = x := rfl
@[simp] theorem withLed_syn (s : State) (x : Led) : (s.withLed x).syn = s.syn := rfl
@[simp] theorem withLed_pm (s : State) (x : Led) : (s.withLed x).pm = s.pm := rfl
@[simp] theorem withLed_mem (s : State) (x : Led) : (s.withLed x).mem = s.mem := rfl
@[simp] theorem withLed_env (s : State) (x : Led) : (s.withLed x).env = s.env := rfl
@[simp] theorem withLed_withLed (s : State) (x y : Led) : (s.withLed x).withLed y = s.withLed y := rfl
@[simp] theorem withLed_self (s : State) : s.withLed s.led = s := rfl

@[simp] theorem withSyn_cfg (s : State) (x : Synth) : (s.withSyn x).cfg = s.cfg := rfl
@[simp] theorem withSyn_ctl (s : State) (x : Synth) : (s.withSyn x).ctl = s.ctl := rfl
@[simp] theorem withSyn_scan (s : State) (x : Synth) : (s.withSyn x).scan = s.scan := rfl
@[simp] theorem withSyn_panel (s : State) (x : Synth) : (s.withSyn x).panel = s.panel := rfl
@[simp] theorem withSyn_led (s : State) (x : Synth) : (s.withSyn x).led = s.led := rfl
@[simp] theorem withSyn_syn (s : State) (x : Synth) : (s.withSyn x).syn = x := rfl
@[simp] theorem withSyn_pm (s : State) (x : Synth) : (s.withSyn x).pm = s.pm := rfl
@[simp] theorem withSyn_mem (s : State) (x : Synth) : (s.withSyn x).mem = s.mem := rfl
@[simp] theorem withSyn_env (s : State) (x : Synth) : (s.withSyn x).env = s.env := rfl
@[simp] theorem withSyn_withSyn (s : State) (x y : Synth) : (s.withSyn x).withSyn y = s.withSyn y := rfl
@[simp] theorem withSyn_self (s : State) : s.withSyn s.syn = s := rfl

@[simp] theorem withPm_cfg (s : State) (x : Mapper) : (s.withPm x).cfg = s.cfg := rfl
@[simp] theorem withPm_ctl (s : State) (x : Mapper) : (s.withPm x).ctl = s.ctl := rfl
@[simp] theorem withPm_scan (s : State) (x : Mapper) : (s.withPm x).scan = s.scan := rfl
@[simp] theorem withPm_panel (s : State) (x : Mapper) : (s.withPm x).panel = s.panel := rfl
@[simp] theorem withPm_led (s : State) (x : Mapper) : (s.withPm x).led = s.led := rfl
@[simp] theorem withPm_syn (s : State) (x : Mapper) : (s.withPm x).syn = s.syn := rfl
@[simp] theorem withPm_pm (s : State) (x : Mapper) : (s.withPm x).pm = x := rfl
@[simp] theorem withPm_mem (s : State) (x : Mapper) : (s.withPm x).mem = s.mem := rfl
@[simp] theorem withPm_env (s : State) (x : Mapper) : (s.withPm x).env = s.env := rfl
@[simp] theorem withPm_withPm (s : State) (x y : Mapper) : (s.withPm x).withPm y = s.withPm y := rfl
@[simp] theorem withPm_self (s : State) : s.withPm s.pm = s := rfl

@[simp] theorem withMem_cfg (s : State) (x : Memory) : (s.withMem x).cfg = s.cfg := rfl
@[simp] theorem withMem_ctl (s : State) (x : Memory) : (s.withMem x).ctl = s.ctl := rfl
@[simp] theorem withMem_scan (s : State) (x : Memory) : (s.withMem x).scan = s.scan := rfl
@[simp] theorem withMem_panel (s : State) (x : Memory) : (s.withMem x).panel = s.panel := rfl
@[simp] theorem withMem_led (s : State) (x : Memory) : (s.withMem x).led = s.led := rfl
@[simp] theorem withMem_syn (s : State) (x : Memory) : (s.withMem x).syn = s.syn := rfl
@[simp] theorem withMem_pm (s : State) (x : Memory) : (s.withMem x).pm = s.pm := rfl
@[simp] theorem withMem_mem (s : State) (x : Memory) : (s.withMem x).mem = x := rfl
@[simp] theorem withMem_env (s : State) (x : Memory) : (s.withMem x).env = s.env := rfl
@[simp] theorem withMem_withMem (s : State) (x y : Memory) : (s.withMem x).withMem y = s.withMem y := rfl
@[simp] theorem withMem_self (s : State) : s.withMem s.mem = s := rfl

@[simp] theorem withEnv_cfg (s : State) (x : Env) : (s.withEnv x).cfg = s.cfg := rfl
@[simp] theorem withEnv_ctl (s : State) (x : Env) : (s.withEnv x).ctl = s.ctl := rfl
@[simp] theorem withEnv_scan (s : State) (x : Env) : (s.withEnv x).scan = s.scan := rfl
@[simp] theorem withEnv_panel (s : State) (x : Env) : (s.withEnv x).panel = s.panel := rfl
@[simp] theorem withEnv_led (s : State) (x : Env) : (s.withEnv x).led = s.led := rfl
@[simp] theorem withEnv_syn (s : State) (x : Env) : (s.withEnv x).syn = s.syn := rfl
@[simp] theorem withEnv_pm (s : State) (x : Env) : (s.withEnv x).pm = s.pm := rfl
@[simp] theorem withEnv_mem (s : State) (x : Env) : (s.withEnv x).mem = s.mem := rfl
@[simp] theorem withEnv_env (s : State) (x : Env) : (s.withEnv x).env = x := rfl
@[simp] theorem withEnv_withEnv (s : State) (x y : Env) : (s.withEnv x).withEnv y = s.withEnv y := rfl
@[simp] theorem withEnv_self (s : State) : s.withEnv s.env = s := rfl

@[simp] theorem emit_cfg (s : State) (e : Event) : (emit s e).cfg = s.cfg := rfl
@[simp] theorem emit_ctl (s : State) (e : Event) : (emit s e).ctl = s.ctl := rfl
@[simp] theorem emit_scan (s : State) (e : Event) : (emit s e).scan = s.scan := rfl
@[simp] theorem emit_panel (s : State) (e : Event) : (emit s e).panel = s.panel := rfl
@[simp] theorem emit_led (s : State) (e : Event) : (emit s e).led = s.led := rfl
@[simp] theorem emit_syn (s : State) (e : Event) : (emit s e).syn = s.syn := rfl
@[simp] theorem emit_pm (s : State) (e : Event) : (emit s e).pm = s.pm := rfl
@[simp] theorem emit_mem (s : State) (e : Event) : (emit s e).mem = s.mem := rfl
@[simp] theorem emit_env (s : State) (e : Event) : (emit s e).env = { s.env with history := e :: s.env.history } := rfl

@[simp] theorem pend_cfg (s : State) (m : BitVec 4) : (pend s m).cfg = s.cfg := rfl
@[simp] theorem pend_ctl (s : State) (m : BitVec 4) : (pend s m).ctl = { s.ctl with irqPend := s.ctl.irqPend ||| m } := rfl
@[simp] theorem pend_scan (s : State) (m : BitVec 4) : (pend s m).scan = s.scan := rfl
@[simp] theorem pend_panel (s : State) (m : BitVec 4) : (pend s m).panel = s.panel := rfl
@[simp] theorem pend_led (s : State) (m : BitVec 4) : (pend s m).led = s.led := rfl
@[simp] theorem pend_syn (s : State) (m : BitVec 4) : (pend s m).syn = s.syn := rfl
@[simp] theorem pend_pm (s : State) (m : BitVec 4) : (pend s m).pm = s.pm := rfl
@[simp] theorem pend_mem (s : State) (m : BitVec 4) : (pend s m).mem = s.mem := rfl
@[simp] theorem pend_env (s : State) (m : BitVec 4) : (pend s m).env = s.env := rfl

@[simp] theorem raiseDrop_cfg (s : State) (f : BitVec 6) : (raiseDrop s f).cfg = s.cfg := rfl
@[simp] theorem raiseDrop_ctl (s : State) (f : BitVec 6) : (raiseDrop s f).ctl = { s.ctl with sticky := s.ctl.sticky ||| f, irqPend := s.ctl.irqPend ||| irqErr } := rfl
@[simp] theorem raiseDrop_scan (s : State) (f : BitVec 6) : (raiseDrop s f).scan = s.scan := rfl
@[simp] theorem raiseDrop_panel (s : State) (f : BitVec 6) : (raiseDrop s f).panel = s.panel := rfl
@[simp] theorem raiseDrop_led (s : State) (f : BitVec 6) : (raiseDrop s f).led = s.led := rfl
@[simp] theorem raiseDrop_syn (s : State) (f : BitVec 6) : (raiseDrop s f).syn = s.syn := rfl
@[simp] theorem raiseDrop_pm (s : State) (f : BitVec 6) : (raiseDrop s f).pm = s.pm := rfl
@[simp] theorem raiseDrop_mem (s : State) (f : BitVec 6) : (raiseDrop s f).mem = s.mem := rfl
@[simp] theorem raiseDrop_env (s : State) (f : BitVec 6) : (raiseDrop s f).env = s.env := rfl

@[simp] theorem writeByte_cfg (s : State) (a : Nat) (v : Byte) : (writeByte s a v).cfg = s.cfg := rfl
@[simp] theorem writeByte_ctl (s : State) (a : Nat) (v : Byte) : (writeByte s a v).ctl = s.ctl := rfl
@[simp] theorem writeByte_scan (s : State) (a : Nat) (v : Byte) : (writeByte s a v).scan = s.scan := rfl
@[simp] theorem writeByte_panel (s : State) (a : Nat) (v : Byte) : (writeByte s a v).panel = s.panel := rfl
@[simp] theorem writeByte_led (s : State) (a : Nat) (v : Byte) : (writeByte s a v).led = s.led := rfl
@[simp] theorem writeByte_syn (s : State) (a : Nat) (v : Byte) : (writeByte s a v).syn = s.syn := rfl
@[simp] theorem writeByte_pm (s : State) (a : Nat) (v : Byte) : (writeByte s a v).pm = s.pm := rfl
@[simp] theorem writeByte_mem (s : State) (a : Nat) (v : Byte) : (writeByte s a v).mem = s.mem.store a v := rfl
@[simp] theorem writeByte_env (s : State) (a : Nat) (v : Byte) : (writeByte s a v).env = s.env := rfl

@[simp] theorem writeFb_cfg (s : State) (j : Nat) (c : Pixel) : (writeFb s j c).cfg = s.cfg := rfl
@[simp] theorem writeFb_ctl (s : State) (j : Nat) (c : Pixel) : (writeFb s j c).ctl = s.ctl := rfl
@[simp] theorem writeFb_scan (s : State) (j : Nat) (c : Pixel) : (writeFb s j c).scan = s.scan := rfl
@[simp] theorem writeFb_panel (s : State) (j : Nat) (c : Pixel) : (writeFb s j c).panel = s.panel := rfl
@[simp] theorem writeFb_led (s : State) (j : Nat) (c : Pixel) : (writeFb s j c).led = s.led := rfl
@[simp] theorem writeFb_syn (s : State) (j : Nat) (c : Pixel) : (writeFb s j c).syn = s.syn := rfl
@[simp] theorem writeFb_pm (s : State) (j : Nat) (c : Pixel) : (writeFb s j c).pm = s.pm := rfl
@[simp] theorem writeFb_env (s : State) (j : Nat) (c : Pixel) : (writeFb s j c).env = s.env := rfl

@[simp] theorem writePixel_cfg (s : State) (x y : Nat) (c : Pixel) : (writePixel s x y c).cfg = s.cfg := rfl
@[simp] theorem writePixel_ctl (s : State) (x y : Nat) (c : Pixel) : (writePixel s x y c).ctl = s.ctl := rfl
@[simp] theorem writePixel_scan (s : State) (x y : Nat) (c : Pixel) : (writePixel s x y c).scan = s.scan := rfl
@[simp] theorem writePixel_panel (s : State) (x y : Nat) (c : Pixel) : (writePixel s x y c).panel = s.panel := rfl
@[simp] theorem writePixel_led (s : State) (x y : Nat) (c : Pixel) : (writePixel s x y c).led = s.led := rfl
@[simp] theorem writePixel_syn (s : State) (x y : Nat) (c : Pixel) : (writePixel s x y c).syn = s.syn := rfl
@[simp] theorem writePixel_pm (s : State) (x y : Nat) (c : Pixel) : (writePixel s x y c).pm = s.pm := rfl
@[simp] theorem writePixel_env (s : State) (x y : Nat) (c : Pixel) : (writePixel s x y c).env = s.env := rfl

@[simp] theorem writeSram_cfg (s : State) (j : Nat) (v : Word) : (writeSram s j v).cfg = s.cfg := rfl
@[simp] theorem writeSram_ctl (s : State) (j : Nat) (v : Word) : (writeSram s j v).ctl = s.ctl := rfl
@[simp] theorem writeSram_scan (s : State) (j : Nat) (v : Word) : (writeSram s j v).scan = s.scan := rfl
@[simp] theorem writeSram_panel (s : State) (j : Nat) (v : Word) : (writeSram s j v).panel = s.panel := rfl
@[simp] theorem writeSram_led (s : State) (j : Nat) (v : Word) : (writeSram s j v).led = s.led := rfl
@[simp] theorem writeSram_syn (s : State) (j : Nat) (v : Word) : (writeSram s j v).syn = s.syn := rfl
@[simp] theorem writeSram_pm (s : State) (j : Nat) (v : Word) : (writeSram s j v).pm = s.pm := rfl
@[simp] theorem writeSram_env (s : State) (j : Nat) (v : Word) : (writeSram s j v).env = s.env := rfl

@[simp] theorem assertReset_cfg (s : State) : (assertReset s).cfg = s.cfg := rfl
@[simp] theorem assertReset_ctl (s : State) : (assertReset s).ctl = s.ctl := rfl
@[simp] theorem assertReset_scan (s : State) : (assertReset s).scan = s.scan := rfl
@[simp] theorem assertReset_panel (s : State) : (assertReset s).panel = s.panel := rfl
@[simp] theorem assertReset_led (s : State) : (assertReset s).led = s.led := rfl
@[simp] theorem assertReset_syn (s : State) : (assertReset s).syn = s.syn := rfl
@[simp] theorem assertReset_pm (s : State) : (assertReset s).pm = s.pm := rfl
@[simp] theorem assertReset_mem (s : State) : (assertReset s).mem = s.mem := rfl
@[simp] theorem assertReset_env (s : State) : (assertReset s).env = { s.env with inReset := true } := rfl

@[simp] theorem softReset_cfg (s : State) : (softReset s).cfg = s.cfg := rfl
@[simp] theorem softReset_ctl (s : State) : (softReset s).ctl = Ctl.resetOf s.cfg := rfl
@[simp] theorem softReset_scan (s : State) : (softReset s).scan = Scan.resetOf s.cfg := rfl
@[simp] theorem softReset_panel (s : State) : (softReset s).panel = Panel.reset := rfl
@[simp] theorem softReset_led (s : State) : (softReset s).led = Led.reset := rfl
@[simp] theorem softReset_syn (s : State) : (softReset s).syn = Synth.resetOf s.cfg := rfl
@[simp] theorem softReset_pm (s : State) : (softReset s).pm = Mapper.reset := rfl
@[simp] theorem softReset_mem (s : State) : (softReset s).mem = s.mem := rfl
@[simp] theorem softReset_env (s : State) : (softReset s).env = s.env := rfl

end Sys2Proof.Machine
end

