-- ==== Sys2Proof/Laws/Drawing.lean ====
section
/-! SUPPORT. What the drawing primitives can list: pixels of the panel only (42_led_draw.md R302). -/

namespace Sys2Proof.Machine

/-- A plot lists its point when it is on the panel, else nothing. -/
theorem mem_plot {p : Params} {c : Pixel} {x y : Int} {q : PixelWrite} :
    q ∈ plot p c x y ↔ (0 ≤ x ∧ x < p.w ∧ 0 ≤ y ∧ y < p.h) ∧ q = ⟨x.toNat, y.toNat, c⟩ := by
  unfold plot
  split_ifs with h <;> simp [h]

/-- Plotting a list of points is the list clipped to the panel. -/
theorem flatMap_plot (p : Params) (c : Pixel) (l : List (Int × Int)) :
    l.flatMap (fun q => plot p c q.1 q.2) = clipped p c l := by
  induction l with
  | nil => rfl
  | cons q t ih =>
    rw [List.flatMap_cons, ih]
    by_cases h : 0 ≤ q.1 ∧ q.1 < p.w ∧ 0 ≤ q.2 ∧ q.2 < p.h <;> simp [clipped, plot, h]

theorem clipped_append (p : Params) (c : Pixel) (a b : List (Int × Int)) :
    clipped p c (a ++ b) = clipped p c a ++ clipped p c b := by
  simp [clipped]

theorem clipped_flatMap {α : Type} (p : Params) (c : Pixel) (l : List α) (f : α → List (Int × Int)) :
    clipped p c (l.flatMap f) = l.flatMap fun a => clipped p c (f a) := by
  induction l with
  | nil => rfl
  | cons a t ih => rw [List.flatMap_cons, List.flatMap_cons, clipped_append, ih]

theorem intRange_flatMap_plot (p : Params) (c : Pixel) (n : Nat) (f : Int → Int × Int) :
    (intRange 0 n).flatMap (fun i => plot p c (f i).1 (f i).2) =
      clipped p c ((List.range n).map fun (i : Nat) => f i) := by
  rw [← flatMap_plot]
  simp only [intRange, List.flatMap_map, Int.zero_add]

/-- Plotting rows and columns is the clipped grid. -/
theorem grid_flatMap_plot (p : Params) (c : Pixel) (x y : Int) (w h : Nat) :
    ((intRange 0 h).flatMap fun j => (intRange 0 w).flatMap fun i => plot p c (x + i) (y + j)) =
      clipped p c (gridPoints x y w h) := by
  unfold gridPoints
  rw [clipped_flatMap]
  simp only [intRange_flatMap_plot p c w (fun i => (x + i, _))]
  simp only [intRange, List.flatMap_map, Int.zero_add]

/-- A glyph lists its lit points on the panel. -/
theorem drawGlyph_eq (p : Params) (c : Pixel) (x y : Int) (ch : Byte) :
    drawGlyph p c x y ch = clipped p c (glyphPoints p ch x y) := by
  unfold drawGlyph glyphPoints
  rw [clipped_flatMap]
  congr 1; funext j
  rw [← flatMap_plot]
  generalize List.range p.gw = l
  induction l with
  | nil => rfl
  | cons i t ih =>
    rw [List.flatMap_cons, ih, List.filter_cons]
    split <;> simp

/-- `drawText` with the cursor at glyph `g`. -/
theorem drawTextFrom_eq (p : Params) (y : Int) (colorOf : Nat → Pixel) (t : List Byte) (cx : Int) (g : Nat) :
    drawTextFrom p y colorOf t cx g = ((t.filter definedChar).zipIdx g).flatMap fun q =>
      clipped p (colorOf q.2) (glyphPoints p q.1 (cx + ((q.2 : Int) - g) * ((p.gw : Int) + 1)) y) := by
  induction t generalizing cx g with
  | nil => rfl
  | cons ch t ih =>
    unfold drawTextFrom
    by_cases h : definedChar ch = true
    · rw [if_pos h, List.filter_cons_of_pos h, List.zipIdx_cons, List.flatMap_cons, drawGlyph_eq, ih]
      congr 1
      · simp
      · congr 1; funext q; congr 2; push_cast; ring
    · rw [if_neg h, List.filter_cons_of_neg h, ih]

/-- `drawText` lists its glyphs one after another. -/
theorem drawText_eq (p : Params) (x y : Int) (t : List Byte) (colorOf : Nat → Pixel) :
    drawText p x y t colorOf = textWrites p x y t colorOf := by
  unfold drawText textWrites
  rw [drawTextFrom_eq]
  simp

/-- One re-render of a scroll clears the band and then writes the text. -/
theorem renderBand_eq (p : Params) (k : Scroll) (t : List Byte) : renderBand p k t = scrollWrites p k t := by
  unfold renderBand scrollWrites bandClear scrollRender
  rw [drawText_eq]
  congr 1
  rw [← grid_flatMap_plot]
  simp

/-- CLEAR and FILL list every pixel of the panel, row by row. -/
theorem drawFill_eq (p : Params) (c : Pixel) :
    drawFill p c = (List.range p.h).flatMap fun y => (List.range p.w).map fun x => (⟨x, y, c⟩ : PixelWrite) := by
  unfold drawFill intRange
  simp only [List.flatMap_map]
  refine List.flatMap_congr fun y hy => ?_
  simp only [List.mem_range] at hy
  rw [List.map_eq_flatMap]
  refine List.flatMap_congr fun x hx => ?_
  simp only [List.mem_range] at hx
  simp [plot, hx, hy]

theorem plot_onPanel (p : Params) (c : Pixel) (x y : Int) : ListOnPanel p (plot p c x y) := by
  intro q hq
  obtain ⟨h, rfl⟩ := mem_plot.mp hq
  simp only
  omega

theorem ListOnPanel.flatMap {α : Type} {p : Params} {l : List α} {f : α → List PixelWrite}
    (h : ∀ a, ListOnPanel p (f a)) : ListOnPanel p (l.flatMap f) := by
  intro q hq
  obtain ⟨a, -, ha⟩ := List.mem_flatMap.mp hq
  exact h a q ha

theorem ListOnPanel.append {p : Params} {a b : List PixelWrite} (ha : ListOnPanel p a) (hb : ListOnPanel p b) :
    ListOnPanel p (a ++ b) := by
  intro q hq
  rcases List.mem_append.mp hq with h | h
  exacts [ha q h, hb q h]

theorem ListOnPanel.nil (p : Params) : ListOnPanel p [] := by
  intro q hq; simp at hq

theorem drawFill_onPanel (p : Params) (c : Pixel) : ListOnPanel p (drawFill p c) :=
  .flatMap fun _ => .flatMap fun _ => plot_onPanel _ _ _ _

theorem drawRect_onPanel (p : Params) (c : Pixel) (x y wr ht : Int) : ListOnPanel p (drawRect p c x y wr ht) := by
  unfold drawRect
  split
  · refine .append (.append (.append ?_ ?_) ?_) ?_ <;> exact .flatMap fun _ => plot_onPanel _ _ _ _
  · exact .nil p

theorem drawFrect_onPanel (p : Params) (c : Pixel) (x y wr ht : Int) : ListOnPanel p (drawFrect p c x y wr ht) := by
  unfold drawFrect
  split
  · exact .flatMap fun _ => .flatMap fun _ => plot_onPanel _ _ _ _
  · exact .nil p

theorem drawCircle_onPanel (p : Params) (c : Pixel) (x y r : Int) : ListOnPanel p (drawCircle p c x y r) := by
  unfold drawCircle
  split
  · exact .flatMap fun _ => plot_onPanel _ _ _ _
  · exact .nil p

theorem drawFcircle_onPanel (p : Params) (c : Pixel) (x y r : Int) : ListOnPanel p (drawFcircle p c x y r) := by
  unfold drawFcircle
  split
  · exact .flatMap fun _ => .flatMap fun _ => plot_onPanel _ _ _ _
  · exact .nil p

theorem drawGlyph_onPanel (p : Params) (c : Pixel) (x y : Int) (ch : Byte) :
    ListOnPanel p (drawGlyph p c x y ch) := by
  unfold drawGlyph
  refine .flatMap fun _ => .flatMap fun _ => ?_
  split
  · exact plot_onPanel _ _ _ _
  · exact .nil p

theorem drawTextFrom_onPanel (p : Params) (y : Int) (colorOf : Nat → Pixel) (t : List Byte) :
    ∀ cx g, ListOnPanel p (drawTextFrom p y colorOf t cx g) := by
  induction t with
  | nil => exact fun _ _ => .nil p
  | cons a t ih =>
    intro cx g
    unfold drawTextFrom
    split
    · exact .append (drawGlyph_onPanel _ _ _ _ _) (ih _ _)
    · exact ih _ _

theorem renderBand_onPanel (p : Params) (k : Scroll) (t : List Byte) : ListOnPanel p (renderBand p k t) :=
  .append (.flatMap fun _ => .flatMap fun _ => plot_onPanel _ _ _ _) (drawTextFrom_onPanel _ _ _ _ _ _)

end Sys2Proof.Machine
end

