-- ==== Sys2Proof/Laws/Memory.lean ====
section
/-! SUPPORT. The laws of FB and SRAM: read after write, and the canonical form is kept. -/

namespace Sys2Proof.Machine

theorem Memory.lookup_store_same (m : Memory) (a : Nat) (v : Byte) : (m.store a v).lookup a = some v := by
  induction m with
  | nil => simp [Memory.store, Memory.lookup]
  | cons q t ih =>
    obtain ⟨b, u⟩ := q
    unfold Memory.store
    split_ifs with h1 h2
    · simp [Memory.lookup]
    · simp [Memory.lookup]
    · simp [Memory.lookup, h2, ih]

theorem Memory.lookup_store_other (m : Memory) {a b : Nat} (v : Byte) (h : b ≠ a) :
    (m.store a v).lookup b = m.lookup b := by
  induction m with
  | nil => simp [Memory.store, Memory.lookup, h]
  | cons q t ih =>
    obtain ⟨c, u⟩ := q
    unfold Memory.store
    split_ifs with h1 h2
    · simp [Memory.lookup, h]
    · subst h2; simp [Memory.lookup, h]
    · simp [Memory.lookup, ih]

theorem Memory.risingFrom_store (m : Memory) {lo a : Nat} (v : Byte) (h : Memory.risingFrom lo m = true)
    (ha : lo < a) : Memory.risingFrom lo (m.store a v) = true := by
  induction m generalizing lo with
  | nil => simp [Memory.store, Memory.risingFrom, ha]
  | cons q t ih =>
    obtain ⟨b, u⟩ := q
    simp only [Memory.risingFrom, Bool.and_eq_true, decide_eq_true_eq] at h
    unfold Memory.store
    split_ifs with h1 h2
    · simp [Memory.risingFrom, ha, h1, h.2]
    · subst h2; simp [Memory.risingFrom, ha, h.2]
    · have hb : b < a := by omega
      simp [Memory.risingFrom, h.1, ih h.2 hb]

/-- A write keeps the canonical form. -/
theorem Memory.wf_store (m : Memory) (a : Nat) (v : Byte) (h : m.wf = true) : (m.store a v).wf = true := by
  cases m with
  | nil => simp [Memory.store, Memory.wf, Memory.risingFrom]
  | cons q t =>
    obtain ⟨b, u⟩ := q
    simp only [Memory.wf] at h
    unfold Memory.store
    split_ifs with h1 h2
    · simp [Memory.wf, Memory.risingFrom, h1, h]
    · subst h2; simpa [Memory.wf] using h
    · have hb : b < a := by omega
      simp [Memory.wf, Memory.risingFrom_store t v h hb]

theorem reset_memory_wf : State.reset.mem.wf = true := rfl

@[simp] theorem readByte_writeByte_same (s : State) (a : Nat) (v : Byte) : readByte (writeByte s a v) a = v := by
  simp [readByte, Memory.lookup_store_same]

theorem readByte_writeByte_other (s : State) {a b : Nat} (v : Byte) (h : b ≠ a) :
    readByte (writeByte s a v) b = readByte s b := by
  simp [readByte, unwritten, Memory.lookup_store_other _ _ h]

/-- Two states with the same memory and the same number of hard resets read the same bytes. -/
theorem readByte_congr {s t : State} (hm : t.mem = s.mem) (he : t.env.epoch = s.env.epoch) (a : Nat) :
    readByte t a = readByte s a := by
  simp [readByte, unwritten, hm, he]

theorem readFb_congr {s t : State} (hm : t.mem = s.mem) (he : t.env.epoch = s.env.epoch) (j : Nat) :
    readFb t j = readFb s j := by
  simp [readFb, readByte_congr hm he]

theorem readSram_congr {s t : State} (hm : t.mem = s.mem) (he : t.env.epoch = s.env.epoch) (j : Nat) :
    readSram t j = readSram s j := by
  simp [readSram, readByte_congr hm he]

/-- A pixel write changes the three bytes of that pixel and no other byte. -/
theorem readByte_writeFb_other (s : State) (j : Nat) (c : Pixel) {a : Nat}
    (h : a < fbAddr j ∨ fbAddr j + 2 < a) : readByte (writeFb s j c) a = readByte s a := by
  unfold writeFb
  rw [readByte_writeByte_other _ _ (by omega), readByte_writeByte_other _ _ (by omega),
    readByte_writeByte_other _ _ (by omega)]

/-- A sample write changes the four bytes of that sample and no other byte. -/
theorem readByte_writeSram_other (s : State) (j : Nat) (v : Word) {a : Nat}
    (h : a < sramAddr j ∨ sramAddr j + 3 < a) : readByte (writeSram s j v) a = readByte s a := by
  unfold writeSram
  rw [readByte_writeByte_other _ _ (by omega), readByte_writeByte_other _ _ (by omega),
    readByte_writeByte_other _ _ (by omega), readByte_writeByte_other _ _ (by omega)]

theorem append_bytes3 (c : BitVec 24) :
    (c.extractLsb' 16 8 ++ c.extractLsb' 8 8 ++ c.extractLsb' 0 8 : BitVec 24) = c := by
  ext i hi
  simp only [BitVec.getElem_append, BitVec.getElem_extractLsb']
  split_ifs <;> simp [BitVec.getElem_eq_testBit_toNat] <;> congr 1 <;> omega

theorem append_bytes4 (c : BitVec 32) :
    (c.extractLsb' 24 8 ++ c.extractLsb' 16 8 ++ c.extractLsb' 8 8 ++ c.extractLsb' 0 8 : BitVec 32) = c := by
  ext i hi
  simp only [BitVec.getElem_append, BitVec.getElem_extractLsb']
  split_ifs <;> simp [BitVec.getElem_eq_testBit_toNat] <;> congr 1 <;> omega

theorem readFb_writeFb_same (s : State) (j : Nat) (c : Pixel) : readFb (writeFb s j c) j = c := by
  unfold readFb writeFb
  rw [readByte_writeByte_same, readByte_writeByte_other _ _ (by omega), readByte_writeByte_same,
    readByte_writeByte_other _ _ (by omega), readByte_writeByte_other _ _ (by omega), readByte_writeByte_same]
  exact append_bytes3 c

theorem readFb_writeFb_other (s : State) {j k : Nat} (c : Pixel) (h : k ≠ j) :
    readFb (writeFb s j c) k = readFb s k := by
  unfold readFb
  rw [readByte_writeFb_other, readByte_writeFb_other, readByte_writeFb_other] <;> simp only [fbAddr] <;> omega

theorem readSram_writeSram_same (s : State) (j : Nat) (v : Word) : readSram (writeSram s j v) j = v := by
  unfold readSram writeSram
  rw [readByte_writeByte_same, readByte_writeByte_other _ _ (by omega), readByte_writeByte_same,
    readByte_writeByte_other _ _ (by omega), readByte_writeByte_other _ _ (by omega), readByte_writeByte_same,
    readByte_writeByte_other _ _ (by omega), readByte_writeByte_other _ _ (by omega),
    readByte_writeByte_other _ _ (by omega), readByte_writeByte_same]
  exact append_bytes4 v

theorem readSram_writeSram_other (s : State) {j k : Nat} (v : Word) (h : k ≠ j) :
    readSram (writeSram s j v) k = readSram s k := by
  unfold readSram
  rw [readByte_writeSram_other, readByte_writeSram_other, readByte_writeSram_other, readByte_writeSram_other] <;>
    simp only [sramAddr] <;> omega

/-- A write inside the FB window leaves every sample. -/
theorem readSram_writeFb (s : State) {j : Nat} (k : Nat) (c : Pixel) (h : j < 0x10000) :
    readSram (writeFb s j c) k = readSram s k := by
  unfold readSram
  rw [readByte_writeFb_other, readByte_writeFb_other, readByte_writeFb_other, readByte_writeFb_other] <;>
    simp only [fbAddr, sramAddr, fbBase, sramBase] <;> omega

/-- A sample write leaves every pixel of the FB window. -/
theorem readFb_writeSram (s : State) (j : Nat) {k : Nat} (v : Word) (h : k < 0x10000) :
    readFb (writeSram s j v) k = readFb s k := by
  unfold readFb
  rw [readByte_writeSram_other, readByte_writeSram_other, readByte_writeSram_other] <;>
    simp only [fbAddr, sramAddr, fbBase, sramBase] <;> omega

theorem writeFb_wf (s : State) (j : Nat) (c : Pixel) (h : s.mem.wf = true) : (writeFb s j c).mem.wf = true := by
  unfold writeFb
  simp only [writeByte_mem]
  exact Memory.wf_store _ _ _ (Memory.wf_store _ _ _ (Memory.wf_store _ _ _ h))

theorem writeSram_wf (s : State) (j : Nat) (v : Word) (h : s.mem.wf = true) :
    (writeSram s j v).mem.wf = true := by
  unfold writeSram
  simp only [writeByte_mem]
  exact Memory.wf_store _ _ _ (Memory.wf_store _ _ _ (Memory.wf_store _ _ _ (Memory.wf_store _ _ _ h)))

/-- In the panel, different pixels have different indices. -/
theorem pixelIndex_inj (p : Params) {x y x' y' : Nat} (hx : x < p.w) (hx' : x' < p.w)
    (h : pixelIndex p x y = pixelIndex p x' y') : x = x' ∧ y = y' := by
  unfold pixelIndex at h
  have hw : 0 < p.w := by omega
  have h1 := congrArg (· % p.w) h
  have h2 := congrArg (· / p.w) h
  simp only [Nat.mul_add_mod_self_right, Nat.mod_eq_of_lt hx, Nat.mod_eq_of_lt hx'] at h1
  simp only [Nat.add_comm _ x, Nat.add_comm _ x', Nat.add_mul_div_right _ _ hw, Nat.div_eq_of_lt hx,
    Nat.div_eq_of_lt hx', Nat.zero_add] at h2
  exact ⟨h1, h2⟩

/-- A pixel write is read back, and leaves every other pixel of the panel (10_state.md R64). -/
theorem readPixel_writePixel (s : State) {x y x' y' : Nat} (c : Pixel) (hx : x < s.cfg.w) (hx' : x' < s.cfg.w) :
    readPixel (writePixel s x y c) x' y' = if x' = x ∧ y' = y then c else readPixel s x' y' := by
  unfold readPixel writePixel
  simp only [writeFb_cfg]
  split_ifs with h
  · rw [h.1, h.2]; exact readFb_writeFb_same _ _ _
  · exact readFb_writeFb_other _ _ fun e => h (pixelIndex_inj s.cfg hx' hx e)

end Sys2Proof.Machine
end

