-- ==== Sys2Proof/Laws/Ops.lean ====
section
/-! SUPPORT. What each shared operation of the instructions can do, said once. -/

namespace Sys2Proof.Machine

/-! ## Drops and commands -/

theorem dropIllegal_of_fatal {s : State} (f : BitVec 6) (h : s.ctl.fatal = true) : dropIllegal s f = s := by
  simp [dropIllegal, h]

theorem dropIllegal_of_running {s : State} (f : BitVec 6) (h : s.ctl.fatal = false) :
    dropIllegal s f = raiseDrop s f := by
  simp [dropIllegal, h]

theorem ledCommand_of_fatal {s : State} (k : Scroll) (pw : List PixelWrite) (h : s.ctl.fatal = true) :
    ledCommand s k pw = .next s := by
  simp [ledCommand, h]

theorem ledCommand_of_busy {s : State} (k : Scroll) (pw : List PixelWrite) (h : s.ctl.fatal = false)
    (hb : lbusy s = true) : ledCommand s k pw = .next (raiseDrop s flagLdrop) := by
  simp [ledCommand, h, hb]

theorem ledCommand_of_idle {s : State} (k : Scroll) (pw : List PixelWrite) (h : s.ctl.fatal = false)
    (hb : lbusy s = false) : ledCommand s k pw = .next (s.withLed { s.led with scroll := k, pw := some pw }) := by
  simp [ledCommand, h, hb]

/-- A drawing command is ignored, dropped or accepted. -/
theorem ledCommand_cases (s : State) (k : Scroll) (pw : List PixelWrite) :
    ledCommand s k pw = .next s ∨ (lbusy s = true ∧ ledCommand s k pw = .next (raiseDrop s flagLdrop)) ∨
      (lbusy s = false ∧ s.ctl.fatal = false ∧
        ledCommand s k pw = .next (s.withLed { s.led with scroll := k, pw := some pw })) := by
  unfold ledCommand
  split_ifs <;> simp_all

theorem pmCommand_of_fatal {s : State} (c : BitVec 4) (s' : State) (h : s.ctl.fatal = true) :
    pmCommand s c s' = .next s := by
  simp [pmCommand, h]

theorem pmCommand_of_illegal {s : State} (c : BitVec 4) (s' : State) (h : s.ctl.fatal = false)
    (hc : s.cfg.numCtl ≤ c.toNat) : pmCommand s c s' = .next (raiseDrop s flagPill) := by
  simp [pmCommand, h, ctlLegal, Nat.not_lt.mpr hc]

theorem pmCommand_of_legal {s : State} (c : BitVec 4) (s' : State) (h : s.ctl.fatal = false)
    (hc : c.toNat < s.cfg.numCtl) : pmCommand s c s' = .next s' := by
  simp [pmCommand, h, ctlLegal, hc]

/-- A mapper command is ignored, dropped as illegal or executed. -/
theorem pmCommand_cases (s : State) (c : BitVec 4) (s' : State) :
    pmCommand s c s' = .next s ∨ (ctlLegal s.cfg c = false ∧ pmCommand s c s' = .next (raiseDrop s flagPill)) ∨
      pmCommand s c s' = .next s' := by
  unfold pmCommand
  split_ifs <;> simp_all

theorem execSynGenerate_of_busy {s : State} (h : s.ctl.fatal = false) (hb : sbusy s = true) :
    execSynGenerate s = .next (raiseDrop s flagSdrop) := by
  simp [execSynGenerate, h, hb]

theorem execSynGenerate_of_idle {s : State} (h : s.ctl.fatal = false) (hb : sbusy s = false) :
    execSynGenerate s = .next (s.withSyn { s.syn with
      activeLen := BitVec.ofNat 17 (jobLen s.cfg (newJob s.syn)), pos := 0#17, job := some (newJob s.syn) }) := by
  simp [execSynGenerate, h, hb]

theorem execSynGenerate_cases (s : State) :
    execSynGenerate s = .next s ∨ (sbusy s = true ∧ execSynGenerate s = .next (raiseDrop s flagSdrop)) ∨
      (sbusy s = false ∧ s.ctl.fatal = false ∧ execSynGenerate s = .next (s.withSyn { s.syn with
        activeLen := BitVec.ofNat 17 (jobLen s.cfg (newJob s.syn)), pos := 0#17, job := some (newJob s.syn) })) := by
  unfold execSynGenerate
  split_ifs <;> simp_all

/-- SSTEP is one drawing command, with the advanced scroll state when a scroll is active. -/
theorem execLedSstep_eq (s : State) :
    execLedSstep s = ledCommand s
      (if s.led.scroll.active then scrollAdvance s.cfg s.led.scroll (opText s.led) else s.led.scroll)
      (if s.led.scroll.active then
        renderBand s.cfg (scrollAdvance s.cfg s.led.scroll (opText s.led)) (opText s.led) else []) := by
  unfold execLedSstep
  split_ifs <;> rfl

/-! ## Every access and every step goes on -/

theorem ledCommand_next (s : State) (k : Scroll) (pw : List PixelWrite) : ∃ t, ledCommand s k pw = .next t := by
  rcases ledCommand_cases s k pw with h | ⟨-, h⟩ | ⟨-, -, h⟩ <;> exact ⟨_, h⟩

theorem pmCommand_next (s : State) (c : BitVec 4) (s' : State) : ∃ t, pmCommand s c s' = .next t := by
  rcases pmCommand_cases s c s' with h | ⟨-, h⟩ | h <;> exact ⟨_, h⟩

theorem exec_next (i : Instr) (s : State) : ∃ t, exec i s = .next t := by
  cases i
  case ledSstep => rw [show exec .ledSstep s = _ from execLedSstep_eq s]; exact ledCommand_next _ _ _
  case synGenerate => rcases execSynGenerate_cases s with h | ⟨-, h⟩ | ⟨-, -, h⟩ <;> exact ⟨_, h⟩
  case wrCtrl v => simp only [exec, execWrCtrl]; split <;> exact ⟨_, rfl⟩
  case wrFb j v => simp only [exec, execWrFb]; split <;> exact ⟨_, rfl⟩
  case pmUpdate c => exact pmCommand_next _ _ _
  case pmSelect c k => exact pmCommand_next _ _ _
  case pmNext c => exact pmCommand_next _ _ _
  case pmPrev c => exact pmCommand_next _ _ _
  all_goals first | exact ⟨_, rfl⟩ | exact ledCommand_next _ _ _

theorem runAccess_next (x : Access) (s : State) : ∃ t, runAccess x s = .next t := by
  unfold runAccess
  split
  · exact exec_next _ _
  all_goals exact ⟨_, rfl⟩

/-- What a step can be: a change of the reset input, a step of an engine or of the timer, or HOST's access, which is
ignored while the reset input is asserted. -/
theorem step_cases {s t : State} (h : step s = .next t) :
    (nextTurn s = .assertReset ∧ t = assertReset (takeTurn s)) ∨
    (nextTurn s = .releaseReset ∧ t = releaseReset (takeTurn s)) ∨
    (∃ a, a ≠ .host ∧ nextTurn s = .agent a ∧ t = engineStep a (takeTurn s)) ∨
    (nextTurn s = .agent .host ∧ (t = takeTurn s ∨ t = popAccess (takeTurn s) ∨
      ∃ x, HostDoes s x ∧ runAccess x (popAccess (takeTurn s)) = .next t)) := by
  have henv : (takeTurn s).env.bus = s.env.bus ∧ (takeTurn s).env.inReset = s.env.inReset := by
    unfold takeTurn; split <;> simp
  unfold step runTurn at h
  split at h
  · next e => cases h; exact .inl ⟨e, rfl⟩
  · next e => cases h; exact .inr (.inl ⟨e, rfl⟩)
  · next e =>
    refine .inr (.inr (.inr ⟨e, ?_⟩))
    unfold hostStep at h
    split at h
    · cases h; exact .inl rfl
    · next x xs hb =>
      split at h
      · cases h; exact .inr (.inl rfl)
      · next hr =>
        refine .inr (.inr ⟨x, ⟨e, ?_, ?_⟩, h⟩)
        · rw [← henv.2]; simpa using hr
        · rw [← henv.1, hb]; rfl
  all_goals
    next e => cases h; exact .inr (.inr (.inl ⟨_, by decide, e, rfl⟩))

/-! ## The turn, the host's queue and the reset input are no state of BBX -/

@[simp] theorem takeTurn_cfg (s : State) : (takeTurn s).cfg = s.cfg := by unfold takeTurn; split <;> rfl
@[simp] theorem takeTurn_ctl (s : State) : (takeTurn s).ctl = s.ctl := by unfold takeTurn; split <;> rfl
@[simp] theorem takeTurn_scan (s : State) : (takeTurn s).scan = s.scan := by unfold takeTurn; split <;> rfl
@[simp] theorem takeTurn_panel (s : State) : (takeTurn s).panel = s.panel := by unfold takeTurn; split <;> rfl
@[simp] theorem takeTurn_led (s : State) : (takeTurn s).led = s.led := by unfold takeTurn; split <;> rfl
@[simp] theorem takeTurn_syn (s : State) : (takeTurn s).syn = s.syn := by unfold takeTurn; split <;> rfl
@[simp] theorem takeTurn_pm (s : State) : (takeTurn s).pm = s.pm := by unfold takeTurn; split <;> rfl
@[simp] theorem takeTurn_mem (s : State) : (takeTurn s).mem = s.mem := by unfold takeTurn; split <;> rfl
@[simp] theorem takeTurn_epoch (s : State) : (takeTurn s).env.epoch = s.env.epoch := by unfold takeTurn; split <;> rfl
@[simp] theorem takeTurn_inReset (s : State) : (takeTurn s).env.inReset = s.env.inReset := by
  unfold takeTurn; split <;> rfl
@[simp] theorem takeTurn_bus (s : State) : (takeTurn s).env.bus = s.env.bus := by unfold takeTurn; split <;> rfl
@[simp] theorem takeTurn_rdata (s : State) : (takeTurn s).env.rdata = s.env.rdata := by unfold takeTurn; split <;> rfl

@[simp] theorem popAccess_cfg (s : State) : (popAccess s).cfg = s.cfg := rfl
@[simp] theorem popAccess_ctl (s : State) : (popAccess s).ctl = s.ctl := rfl
@[simp] theorem popAccess_scan (s : State) : (popAccess s).scan = s.scan := rfl
@[simp] theorem popAccess_panel (s : State) : (popAccess s).panel = s.panel := rfl
@[simp] theorem popAccess_led (s : State) : (popAccess s).led = s.led := rfl
@[simp] theorem popAccess_syn (s : State) : (popAccess s).syn = s.syn := rfl
@[simp] theorem popAccess_pm (s : State) : (popAccess s).pm = s.pm := rfl
@[simp] theorem popAccess_mem (s : State) : (popAccess s).mem = s.mem := rfl
@[simp] theorem popAccess_env (s : State) : (popAccess s).env = { s.env with bus := s.env.bus.tail } := rfl

/-! ## Mapper controls -/

/-- A control's state is read back; the others stay. -/
theorem getCtl_setCtl (m : Mapper) {c d : Nat} (x : PmControl) (hc : c < 4) (hd : d < 4) :
    getCtl (setCtl m c x) d = if d = c then x else getCtl m d := by
  simp only [getCtl, setCtl, List.getD_eq_getElem?_getD, Vector.getElem?_toList]
  rw [Vector.getElem?_setIfInBounds]
  by_cases h : d = c
  · subst h; simp [hd]
  · simp [h, Ne.symm h]

/-- A commit stores the clamped value and its LAST; without one only CHANGED is cleared (41_param_map.md R262). -/
theorem mapCommit_eq (s : State) (c : Nat) (x : PmControl) (r : F32) :
    mapCommit s c x r =
      (if flt (pmTab x.sel).thr (fabs (fsub r x.last)) then
        (storeParam s (mapTarget x.sel) (mapDenorm (pmTab x.sel) r)).withPm (setCtl s.pm c { x with last := r, changed := true })
      else s.withPm (setCtl s.pm c { x with changed := false })) := rfl

end Sys2Proof.Machine
end

