-- ==== Sys2Proof/Laws/Engines.lean ====
section
/-! SUPPORT. What the steps of the engines can do, said once: how a slot ends, what a tick does, and which engine leaves
which memory alone. -/

namespace Sys2Proof.Machine

/-- The constraints of a legal configuration, apart (00_scope.md R7, R8). -/
theorem configCheck_iff {p : Params} : configCheck p = true ↔
    (1 ≤ p.w ∧ p.w ≤ 256) ∧ (2 ≤ p.h ∧ p.h ≤ 256 ∧ p.h % 2 = 0) ∧ (1 ≤ p.depth ∧ p.depth ≤ 8) ∧
    ((p.gw = 3 ∧ p.gh = 5) ∨ (p.gw = 5 ∧ p.gh = 7)) ∧ (1 ≤ p.textMax ∧ p.textMax ≤ 64) ∧ p.palette.length = 7 ∧
    (1 ≤ p.sampleRate ∧ p.sampleRate ≤ 65535) ∧ (1 ≤ p.maxSamples ∧ p.maxSamples ≤ 65535) ∧
    (1 ≤ p.numCtl ∧ p.numCtl ≤ 4) ∧ flt fPosZero p.decayEps = true ∧
    (fle fPosZero p.engageTol = true ∧ fle p.engageTol fOne = true) ∧
    (1 ≤ p.scanPeriodReset ∧ p.scanPeriodReset < 2 ^ 24) ∧ p.holdUnitReset ≤ 65535 := by
  simp only [configCheck, Bool.and_eq_true, decide_eq_true_eq, and_assoc]

/-! ## SE and the timer -/

/-- The SHIFT event of column `c` of the current slot. -/
def shiftEvent (s : State) (c : Nat) : Event :=
  let k := columnOf s.cfg (readPixel s) s.scan.plane.toNat s.scan.rowpair.toNat c
  .shift c k.r1 k.g1 k.b1 k.r2 k.g2 k.b2

theorem planeBit_extract (p : Params) (v : Pixel) (k b : Nat) (hb : b < p.depth) (hd : p.depth ≤ 8) :
    planeBit p (v.extractLsb' k 8) b = v.getLsbD (k + (8 - p.depth) + b) := by
  unfold planeBit
  rw [BitVec.getLsbD_extractLsb']
  have : 8 - p.depth + b < 8 := by omega
  simp only [this, decide_true, Bool.true_and]
  congr 1; omega

/-- SHIFT(c) emits its column, keeps OE_N and goes on to the next column or to LATCH. -/
theorem seShift_eq (s : State) (c : Nat) (hb : s.scan.plane.toNat < s.cfg.depth) (hd : s.cfg.depth ≤ 8) :
    ∃ p : Panel, p.oeN = s.panel.oeN ∧
      seShift s c = ((s.withPanel p).withScan { s.scan with
        phase := if c + 1 < s.cfg.w then .shift (c + 1) else .latch }).withEnv
          { s.env with history := shiftEvent s c :: s.env.history } := by
  refine ⟨(seShift s c).panel, rfl, ?_⟩
  have : shiftEvent s c = .shift c
      (planeBit s.cfg ((readPixel s c s.scan.rowpair.toNat).extractLsb' 0 8) s.scan.plane.toNat)
      (planeBit s.cfg ((readPixel s c s.scan.rowpair.toNat).extractLsb' 8 8) s.scan.plane.toNat)
      (planeBit s.cfg ((readPixel s c s.scan.rowpair.toNat).extractLsb' 16 8) s.scan.plane.toNat)
      (planeBit s.cfg ((readPixel s c (s.scan.rowpair.toNat + s.cfg.h / 2)).extractLsb' 0 8) s.scan.plane.toNat)
      (planeBit s.cfg ((readPixel s c (s.scan.rowpair.toNat + s.cfg.h / 2)).extractLsb' 8 8) s.scan.plane.toNat)
      (planeBit s.cfg ((readPixel s c (s.scan.rowpair.toNat + s.cfg.h / 2)).extractLsb' 16 8) s.scan.plane.toNat) := by
    simp only [shiftEvent, columnOf, planeBit_extract _ _ _ _ hb hd, Nat.mul_zero, Nat.mul_one, Nat.zero_add]
  rw [this]
  rfl

theorem endSlot_disabled (s : State) (h : s.ctl.scanEn = false) : endSlot s = s.withScan (scanRewind s.scan) := by
  simp [endSlot, h]

theorem endSlot_pending (s : State) (h : s.ctl.scanEn = true) (ht : s.scan.tpend = true) :
    endSlot s = s.withScan { s.scan with tpend := false, phase := .setup } := by
  simp [endSlot, h, ht]

theorem endSlot_waiting (s : State) (h : s.ctl.scanEn = true) (ht : s.scan.tpend = false) :
    endSlot s = s.withScan { s.scan with phase := .idle } := by
  simp [endSlot, h, ht]

/-- A tick changes the scan state and, as an overrun, the flags; nothing else. -/
theorem tick_frame (s : State) : tick s = (s.withScan (tick s).scan).withCtl (tick s).ctl := by
  unfold tick
  split <;> rfl

theorem timerStep_frame (s : State) :
    timerStep s = (s.withScan (timerStep s).scan).withCtl (timerStep s).ctl := by
  unfold timerStep
  split
  · split
    · rw [tick_frame]; rfl
    · rfl
  · rfl

theorem advanceSlot_memory (s : State) :
    (advanceSlot s).mem = s.mem ∧ (advanceSlot s).env.epoch = s.env.epoch := by
  unfold advanceSlot
  split_ifs <;> exact ⟨rfl, rfl⟩

theorem endSlot_memory (s : State) : (endSlot s).mem = s.mem ∧ (endSlot s).env.epoch = s.env.epoch := by
  unfold endSlot
  split
  · exact ⟨rfl, rfl⟩
  · split <;> exact ⟨rfl, rfl⟩

theorem seEnd_memory (s : State) (hold : Nat) :
    (seEnd s hold).mem = s.mem ∧ (seEnd s hold).env.epoch = s.env.epoch := by
  unfold seEnd
  simp only
  rw [(endSlot_memory _).1, (endSlot_memory _).2, (advanceSlot_memory _).1, (advanceSlot_memory _).2]
  split <;> exact ⟨rfl, rfl⟩

/-- SE writes no memory. -/
theorem seStep_memory (s : State) : (seStep s).mem = s.mem ∧ (seStep s).env.epoch = s.env.epoch := by
  unfold seStep
  split
  · exact ⟨rfl, rfl⟩
  · split
    · exact ⟨rfl, rfl⟩
    · split <;> exact ⟨rfl, rfl⟩
    · exact ⟨rfl, rfl⟩
    · exact ⟨rfl, rfl⟩
    · unfold seHold
      simp only
      split <;> exact ⟨rfl, rfl⟩
    · exact seEnd_memory _ _

/-! ## LE and SY -/

theorem pixelIndex_lt (p : Params) {x y : Nat} (hx : x < p.w) (hy : y < p.h) : pixelIndex p x y < p.w * p.h := by
  unfold pixelIndex
  have h1 : (y + 1) * p.w ≤ p.h * p.w := Nat.mul_le_mul_right _ hy
  have h2 : (y + 1) * p.w = y * p.w + p.w := by ring
  have h3 : p.h * p.w = p.w * p.h := Nat.mul_comm _ _
  omega

/-- The bytes of the panel's pixels lie below the SRAM window (20_memory.md R125, R126). -/
theorem fbAddr_below {p : Params} {j : Nat} (hc : configCheck p = true) (h : j < p.w * p.h) :
    fbAddr j + 2 < sramBase := by
  obtain ⟨hw, hh, -⟩ := configCheck_iff.mp hc
  have : p.w * p.h ≤ 256 * 256 := Nat.mul_le_mul (by omega) (by omega)
  simp only [fbAddr, sramBase, fbBase]
  omega

theorem Memory.mem_store {m : Memory} {a : Nat} {v : Byte} {c : Host.Cell} (h : c ∈ m.store a v) :
    c ∈ m ∨ c = (a, v) := by
  induction m with
  | nil => simp only [Memory.store, List.mem_singleton] at h; exact .inr h
  | cons q t ih =>
    obtain ⟨b, u⟩ := q
    unfold Memory.store at h
    split_ifs at h <;> simp only [List.mem_cons] at h ⊢
    · tauto
    · tauto
    · rcases h with h | h
      · tauto
      · rcases ih h with h | h <;> tauto

/-- A pixel write of the panel keeps FB and SRAM in their windows. -/
theorem MemoryInWindows.writeFb {s : State} {j : Nat} (h : MemoryInWindows s) (c : Pixel)
    (hj : j < s.cfg.w * s.cfg.h) : MemoryInWindows (writeFb s j c) := by
  refine ⟨writeFb_wf _ _ _ h.1, fun q hq => ?_⟩
  simp only [Machine.writeFb, writeByte_mem] at hq
  simp only [writeFb_cfg]
  rcases Memory.mem_store hq with hq | rfl
  · rcases Memory.mem_store hq with hq | rfl
    · rcases Memory.mem_store hq with hq | rfl
      · exact h.2 q hq
      · left; simp only [fbAddr]; omega
    · left; simp only [fbAddr]; omega
  · left; simp only [fbAddr]; omega

/-- A sample write below MAX_SAMPLES keeps FB and SRAM in their windows. -/
theorem MemoryInWindows.writeSram {s : State} {j : Nat} (h : MemoryInWindows s) (v : Word)
    (hj : j < s.cfg.maxSamples) : MemoryInWindows (writeSram s j v) := by
  refine ⟨writeSram_wf _ _ _ h.1, fun q hq => ?_⟩
  simp only [Machine.writeSram, writeByte_mem] at hq
  simp only [writeSram_cfg]
  rcases Memory.mem_store hq with hq | rfl
  · rcases Memory.mem_store hq with hq | rfl
    · rcases Memory.mem_store hq with hq | rfl
      · rcases Memory.mem_store hq with hq | rfl
        · exact h.2 q hq
        · right; simp only [sramAddr]; omega
      · right; simp only [sramAddr]; omega
    · right; simp only [sramAddr]; omega
  · right; simp only [sramAddr]; omega

theorem jobLen_le (p : Params) (j : Job) : jobLen p j ≤ j.cap.toNat := by
  unfold jobLen activeLen
  omega

/-- A draw of NOISE touches the oracle's fields only. -/
theorem drawNoise_env (e : Env) :
    (drawNoise e).2 = { e with noise := (drawNoise e).2.noise, draws := (drawNoise e).2.draws } := by
  unfold drawNoise
  split <;> rfl

theorem waveform_env (code : BitVec 3) (p : F32) (e : Env) :
    (waveform code p e).2 = { e with noise := (waveform code p e).2.noise, draws := (waveform code p e).2.draws } := by
  unfold waveform
  split <;> first | rfl | exact drawNoise_env e

theorem blendNoise_env (nmix w : F32) (e : Env) :
    (blendNoise nmix w e).2 =
      { e with noise := (blendNoise nmix w e).2.noise, draws := (blendNoise nmix w e).2.draws } := by
  unfold blendNoise
  split
  · exact drawNoise_env e
  · rfl

/-- A sample touches the oracle's fields of the environment only. -/
theorem sampleWord_env (p : Params) (j : Job) (e : Env) :
    (sampleWord p j e).2.2 =
      { e with noise := (sampleWord p j e).2.2.noise, draws := (sampleWord p j e).2.2.draws } := by
  unfold sampleWord
  split
  · simp only [voice]
    rw [blendNoise_env, waveform_env]
  · rfl

theorem sampleStep_below (s : State) (j : Job) {a : Nat} (h : a < sramBase) :
    readByte (sampleStep s j) a = readByte s a := by
  let v := sampleWord s.cfg j s.env
  have he : v.2.2.epoch = s.env.epoch := by simp only [v]; rw [sampleWord_env]
  refine (readByte_congr (s := writeSram (s.withEnv v.2.2) j.i v.1) rfl rfl a).trans ?_
  rw [readByte_writeSram_other _ _ _ (by left; simp only [sramAddr]; omega)]
  exact readByte_congr (s := s) (t := s.withEnv v.2.2) rfl he a

end Sys2Proof.Machine
end

