-- ==== Sys2Proof/Laws/Fairness.lean ====
section
/-! SUPPORT. What a fair run with the scan enabled does at last: ticks keep happening and frames keep completing
(43_led_scan.md R379). -/

namespace Sys2Proof.Machine

/-! ## What a step does to the scan -/

/-- The scan state is the same but for the two registers that the host writes. -/
def SameScan (s t : State) : Prop := t.scan = { s.scan with period := t.scan.period, unit := t.scan.unit }

/-- A CTRL write that finds and leaves the scan enabled changes nothing. -/
theorem writeScanEn_enabled {s : State} {v : Bool} (hs : s.ctl.scanEn = true)
    (ht : (writeScanEn s v).ctl.scanEn = true) : writeScanEn s v = s := by
  have hv : v = true := by
    unfold writeScanEn at ht
    simp only at ht
    split_ifs at ht <;> exact ht
  subst hv
  unfold writeScanEn
  simp only [hs, Bool.not_true, Bool.false_and, Bool.and_false, Bool.false_eq_true, if_false]
  rw [← hs]
  rfl

/-- No instruction moves the scan while it leaves it enabled. -/
theorem exec_scan {i : Instr} {s t : State} (h : exec i s = .next t) (hs : s.ctl.scanEn = true)
    (ht : t.ctl.scanEn = true) : t.cfg = s.cfg ∧ t.ctl.fatal = s.ctl.fatal ∧ SameScan s t := by
  have led : ∀ k pw, ledCommand s k pw = .next t → t.cfg = s.cfg ∧ t.ctl.fatal = s.ctl.fatal ∧ SameScan s t := by
    intro k pw h
    rcases ledCommand_cases s k pw with e | ⟨-, e⟩ | ⟨-, -, e⟩ <;> rw [e] at h <;> cases h <;> exact ⟨rfl, rfl, rfl⟩
  have pm : ∀ c s', pmCommand s c s' = .next t → s'.cfg = s.cfg ∧ s'.ctl = s.ctl ∧ s'.scan = s.scan →
      t.cfg = s.cfg ∧ t.ctl.fatal = s.ctl.fatal ∧ SameScan s t := by
    intro c s' h ⟨h1, h2, h3⟩
    rcases pmCommand_cases s c s' with e | ⟨-, e⟩ | e <;> rw [e] at h <;> cases h
    · exact ⟨rfl, rfl, rfl⟩
    · exact ⟨rfl, rfl, rfl⟩
    · exact ⟨h1, by rw [h2], by unfold SameScan; rw [h3]⟩
  cases i
  case wrCtrl v =>
    simp only [exec, execWrCtrl] at h
    split at h <;> cases h
    · simp [softReset, State.resetOf, Ctl.resetOf] at ht
    · rw [writeScanEn_enabled hs ht]; exact ⟨rfl, rfl, rfl⟩
  case wrFb j v => simp only [exec, execWrFb] at h; split at h <;> cases h <;> exact ⟨rfl, rfl, rfl⟩
  case synGenerate =>
    rcases execSynGenerate_cases s with e | ⟨-, e⟩ | ⟨-, -, e⟩ <;> rw [show exec .synGenerate s = _ from e] at h <;>
      cases h <;> exact ⟨rfl, rfl, rfl⟩
  case ledSstep =>
    rw [show exec .ledSstep s = _ from execLedSstep_eq s] at h
    exact led _ _ h
  case pmUpdate c => exact pm c _ h (by unfold mapUpdate mapCommit; simp only; split_ifs <;> exact ⟨rfl, rfl, rfl⟩)
  case pmSelect c k => exact pm c _ h ⟨rfl, rfl, rfl⟩
  case pmNext c => exact pm c _ h ⟨rfl, rfl, rfl⟩
  case pmPrev c => exact pm c _ h ⟨rfl, rfl, rfl⟩
  all_goals first
    | exact led _ _ h
    | (cases h; exact ⟨rfl, rfl, rfl⟩)

theorem dropIllegal_scan (s : State) (f : BitVec 6) : (dropIllegal s f).cfg = s.cfg ∧
    (dropIllegal s f).ctl.fatal = s.ctl.fatal ∧ SameScan s (dropIllegal s f) := by
  unfold dropIllegal
  split <;> exact ⟨rfl, rfl, rfl⟩

theorem runAccess_scan {x : Access} {s t : State} (h : runAccess x s = .next t) (hs : s.ctl.scanEn = true)
    (ht : t.ctl.scanEn = true) : t.cfg = s.cfg ∧ t.ctl.fatal = s.ctl.fatal ∧ SameScan s t := by
  unfold runAccess at h
  split at h
  · exact exec_scan h hs ht
  · cases h; exact dropIllegal_scan s flagLill
  · cases h; exact dropIllegal_scan s flagSill
  · cases h; exact dropIllegal_scan s flagPill
  · cases h; exact ⟨rfl, rfl, rfl⟩

/-- LE and SY leave the scan alone. -/
theorem leStep_scan (s : State) : (leStep s).cfg = s.cfg ∧ (leStep s).ctl.fatal = s.ctl.fatal ∧ (leStep s).scan = s.scan := by
  unfold leStep
  split
  · exact ⟨rfl, rfl, rfl⟩
  · split <;> exact ⟨rfl, rfl, rfl⟩

theorem sampleStep_scan (s : State) (j : Job) :
    (sampleStep s j).cfg = s.cfg ∧ (sampleStep s j).ctl.fatal = s.ctl.fatal ∧ (sampleStep s j).scan = s.scan := by
  simp [sampleStep]

theorem syStep_scan (s : State) : (syStep s).cfg = s.cfg ∧ (syStep s).ctl.fatal = s.ctl.fatal ∧ (syStep s).scan = s.scan := by
  unfold syStep
  split
  · exact ⟨rfl, rfl, rfl⟩
  · split
    · exact ⟨rfl, rfl, rfl⟩
    · unfold synStep
      generalize synAction s.cfg _ = a
      cases a
      exacts [⟨rfl, rfl, rfl⟩, sampleStep_scan s _, ⟨rfl, rfl, rfl⟩, ⟨rfl, rfl, rfl⟩]

/-- A step between two states with the scan enabled and no reset: SE's step, the timer's, or one that moves neither the
scan position nor TCNT. -/
theorem step_scan {s t : State} (h : step s = .next t) (hs : s.ctl.scanEn = true) (ht : t.ctl.scanEn = true)
    (rs : s.env.inReset = false) (rt : t.env.inReset = false) :
    (nextTurn s = .agent .se ∧ t = seStep (takeTurn s)) ∨
    (nextTurn s = .agent .timer ∧ t = timerStep (takeTurn s)) ∨
    (nextTurn s ≠ .agent .se ∧ nextTurn s ≠ .agent .timer ∧ t.cfg = s.cfg ∧ t.ctl.fatal = s.ctl.fatal ∧ SameScan s t) := by
  have same : ∀ u : State, u.cfg = s.cfg ∧ u.ctl.fatal = s.ctl.fatal ∧ u.scan = s.scan →
      u.cfg = s.cfg ∧ u.ctl.fatal = s.ctl.fatal ∧ SameScan s u :=
    fun u ⟨h1, h2, h3⟩ => ⟨h1, h2, by unfold SameScan; rw [h3]⟩
  rcases step_cases h with ⟨-, rfl⟩ | ⟨e, rfl⟩ | ⟨a, ha, e, rfl⟩ | ⟨e, rfl | rfl | ⟨x, -, hr⟩⟩
  · simp [assertReset] at rt
  · refine .inr (.inr ⟨by rw [e]; decide, by rw [e]; decide, same _ ?_⟩)
    simp [releaseReset, rs]
  · simp only [engineStep, takeTurn_inReset, rs, Bool.false_eq_true, if_false]
    cases a
    · exact absurd rfl ha
    · refine .inr (.inr ⟨by rw [e]; decide, by rw [e]; decide, same _ ?_⟩)
      simpa using leStep_scan (takeTurn s)
    · exact .inl ⟨e, rfl⟩
    · refine .inr (.inr ⟨by rw [e]; decide, by rw [e]; decide, same _ ?_⟩)
      simpa using syStep_scan (takeTurn s)
    · exact .inr (.inl ⟨e, rfl⟩)
  · exact .inr (.inr ⟨by rw [e]; decide, by rw [e]; decide, same _ (by simp)⟩)
  · exact .inr (.inr ⟨by rw [e]; decide, by rw [e]; decide, same _ (by simp [popAccess])⟩)
  · refine .inr (.inr ⟨by rw [e]; decide, by rw [e]; decide, ?_⟩)
    have := runAccess_scan hr (by simpa [popAccess] using hs) ht
    simpa [SameScan, popAccess] using this

/-! ## The place in the frame -/

/-- Plane, row-pair and column are within the panel. -/
structure ScanPlace (s : State) : Prop where
  plane : s.scan.plane.toNat < s.cfg.depth
  rowpair : s.scan.rowpair.toNat < s.cfg.h / 2
  column : ∀ c, s.scan.phase = .shift c → c < s.cfg.w

/-- How far a phase is in its slot. -/
def phaseRank (w : Nat) : Phase → Nat
  | .idle => 0
  | .setup => 1
  | .shift c => c + 2
  | .latch => w + 2
  | .hold => w + 3
  | .fin _ => w + 4

/-- The slots of the frame after the current one. -/
def slotsLeft (s : State) : Nat :=
  (s.cfg.depth - 1 - s.scan.plane.toNat) * (s.cfg.h / 2) + (s.cfg.h / 2 - 1 - s.scan.rowpair.toNat)

/-- Bounds the ticks and SE steps that the frame still takes. -/
def frameLeft (s : State) : Nat := slotsLeft s * (s.cfg.w + 6) + (s.cfg.w + 5 - phaseRank s.cfg.w s.scan.phase)

theorem ScanPlace.of_sameScan {s t : State} (h : ScanPlace s) (hc : t.cfg = s.cfg) (hs : SameScan s t) : ScanPlace t := by
  unfold SameScan at hs
  refine ⟨?_, ?_, ?_⟩ <;> rw [hs, hc]
  exacts [h.plane, h.rowpair, h.column]

theorem frameLeft_of_sameScan {s t : State} (hc : t.cfg = s.cfg) (hs : SameScan s t) : frameLeft t = frameLeft s := by
  unfold SameScan at hs
  unfold frameLeft slotsLeft
  rw [hs, hc]

/-- The next slot is in the frame and one fewer is left after it, or the frame is done. -/
theorem advanceSlot_place {s : State} (h : ScanPlace s) (hc : configCheck s.cfg = true) :
    (advanceSlot s).scan.plane.toNat < s.cfg.depth ∧ (advanceSlot s).scan.rowpair.toNat < s.cfg.h / 2 ∧
      ((advanceSlot s).scan.frameCount = s.scan.frameCount + 1#32 ∨ slotsLeft s = slotsLeft (advanceSlot s) + 1) := by
  have hp := h.plane
  have hr := h.rowpair
  obtain ⟨-, hh, hd, -⟩ := configCheck_iff.mp hc
  unfold advanceSlot
  split_ifs with c1 c2
  · have e : (s.scan.rowpair + 1#8).toNat = s.scan.rowpair.toNat + 1 := by
      rw [BitVec.toNat_add]; simp; omega
    simp only [slotsLeft, withScan_scan, withScan_cfg, e]
    omega
  · have e : (s.scan.plane + 1#4).toNat = s.scan.plane.toNat + 1 := by
      rw [BitVec.toNat_add]; simp; omega
    refine ⟨by simp only [withScan_scan, e]; omega, by simp only [withScan_scan]; simp; omega, .inr ?_⟩
    simp only [slotsLeft, withScan_scan, withScan_cfg, e]
    obtain ⟨k, hk⟩ : ∃ k, s.cfg.depth - 1 - s.scan.plane.toNat = k + 1 :=
      ⟨s.cfg.depth - 2 - s.scan.plane.toNat, by omega⟩
    rw [hk, show s.cfg.depth - 1 - (s.scan.plane.toNat + 1) = k by omega, Nat.add_mul]
    simp
    omega
  · exact ⟨by simp [frameDone]; omega, by simp [frameDone]; omega, .inl rfl⟩

/-- One SE step inside a slot, with the scan enabled, moves on in the frame or completes it. -/
theorem seStep_progress {s : State} (h : ScanPlace s) (hc : configCheck s.cfg = true) (hf : s.ctl.fatal = false)
    (he : s.ctl.scanEn = true) (hp : s.scan.phase ≠ .idle) :
    (seStep s).cfg = s.cfg ∧ (seStep s).ctl.fatal = false ∧ (seStep s).scan.tcnt = s.scan.tcnt ∧
      ScanPlace (seStep s) ∧
      ((seStep s).scan.frameCount = s.scan.frameCount + 1#32 ∨ frameLeft (seStep s) < frameLeft s) := by
  obtain ⟨p1, p2, p3⟩ := h
  have hw := (configCheck_iff.mp hc).1
  unfold seStep
  simp only [hf, Bool.false_eq_true, if_false]
  split
  · contradiction
  · next e =>
    simp only [he, if_true]
    refine ⟨rfl, hf, rfl, ⟨p1, p2, fun c h => ?_⟩, .inr ?_⟩
    · cases h; exact hw.1
    · show slotsLeft s * (s.cfg.w + 6) + (s.cfg.w + 5 - phaseRank s.cfg.w (.shift 0)) < _
      simp only [frameLeft, e, phaseRank]
      omega
  · next c e =>
    have hcw := p3 c e
    refine ⟨rfl, hf, rfl, ⟨p1, p2, fun d h => ?_⟩, .inr ?_⟩
    · have h : (if c + 1 < s.cfg.w then Phase.shift (c + 1) else .latch) = .shift d := h
      split_ifs at h with q
      cases h
      exact q
    · show slotsLeft s * (s.cfg.w + 6) + (s.cfg.w + 5 -
        phaseRank s.cfg.w (if c + 1 < s.cfg.w then Phase.shift (c + 1) else .latch)) < _
      simp only [frameLeft, e]
      split_ifs <;> simp only [phaseRank] <;> omega
  · next e =>
    refine ⟨rfl, hf, rfl, ⟨p1, p2, fun c h => by cases h⟩, .inr ?_⟩
    show slotsLeft s * (s.cfg.w + 6) + (s.cfg.w + 5 - phaseRank s.cfg.w .hold) < _
    simp only [frameLeft, e, phaseRank]
    omega
  · next e =>
    have hs : (seHold s).cfg = s.cfg ∧ (seHold s).ctl = s.ctl ∧
        (seHold s).scan = { s.scan with phase := .fin (holdTime s) } := by
      unfold seHold
      simp only
      split_ifs <;> exact ⟨rfl, rfl, rfl⟩
    obtain ⟨h1, h2, h3⟩ := hs
    refine ⟨h1, by rw [h2, hf], by rw [h3], ⟨by rw [h1, h3]; exact p1, by rw [h1, h3]; exact p2, fun c h => by
      rw [h3] at h; cases h⟩, .inr ?_⟩
    simp only [frameLeft, slotsLeft, h1, h3, e, phaseRank]
    omega
  · next hold e =>
    have key : ∀ u : State, u.cfg = s.cfg → u.ctl = s.ctl → u.scan = s.scan →
        (endSlot (advanceSlot u)).cfg = s.cfg ∧ (endSlot (advanceSlot u)).ctl.fatal = false ∧
          (endSlot (advanceSlot u)).scan.tcnt = s.scan.tcnt ∧ ScanPlace (endSlot (advanceSlot u)) ∧
          ((endSlot (advanceSlot u)).scan.frameCount = s.scan.frameCount + 1#32 ∨
            frameLeft (endSlot (advanceSlot u)) < frameLeft s) := by
      intro u u1 u2 u3
      obtain ⟨a1, a2, a3⟩ := advanceSlot_place (s := u) ⟨by rw [u1, u3]; exact p1, by rw [u1, u3]; exact p2, by
        rw [u1, u3]; exact p3⟩ (by rw [u1]; exact hc)
      have fr : (advanceSlot u).cfg = u.cfg ∧ (advanceSlot u).ctl.fatal = u.ctl.fatal ∧
          (advanceSlot u).ctl.scanEn = u.ctl.scanEn ∧ (advanceSlot u).scan.tcnt = u.scan.tcnt := by
        unfold advanceSlot
        split_ifs <;> exact ⟨rfl, rfl, rfl, rfl⟩
      obtain ⟨f1, f2, f3, f4⟩ := fr
      have hsl : slotsLeft u = slotsLeft s := by unfold slotsLeft; rw [u1, u3]
      generalize advanceSlot u = v at *
      have fin : ∃ q, (q = .setup ∨ q = .idle) ∧ ∃ b, endSlot v = v.withScan { v.scan with tpend := b, phase := q } := by
        cases ht : v.scan.tpend
        · exact ⟨.idle, .inr rfl, false, by rw [endSlot_waiting v (by rw [f3, u2, he]) ht, ← ht]⟩
        · exact ⟨.setup, .inl rfl, false, endSlot_pending v (by rw [f3, u2, he]) ht⟩
      obtain ⟨q, hq, b, hv⟩ := fin
      rw [hv]
      refine ⟨by rw [← u1, ← f1]; rfl, by rw [← hf, ← u2, ← f2]; rfl, by rw [← u3, ← f4]; rfl,
        ⟨by rw [← f1] at a1; exact a1, by rw [← f1] at a2; exact a2, fun c h => ?_⟩, a3.imp (fun h => ?_) fun h => ?_⟩
      · have h : q = .shift c := h
        rcases hq with rfl | rfl <;> cases h
      · rw [← u3, ← h]; rfl
      · show slotsLeft v * (v.cfg.w + 6) + (v.cfg.w + 5 - phaseRank v.cfg.w q) < _
        simp only [frameLeft, e, ← hsl, h, f1, u1, Nat.add_mul]
        rcases hq with rfl | rfl <;> simp only [phaseRank] <;> omega
    unfold seEnd
    simp only
    split_ifs
    · exact key _ rfl rfl rfl
    · exact key _ rfl rfl rfl

/-- A tick starts the slot when SE is idle and is remembered otherwise. -/
theorem tick_scan (u : State) : (tick u).cfg = u.cfg ∧ (tick u).ctl.fatal = u.ctl.fatal ∧
    ∃ b, (tick u).scan =
      { u.scan with tpend := b, phase := if u.scan.phase = .idle then .setup else u.scan.phase } := by
  unfold tick
  split
  · next h => exact ⟨rfl, rfl, u.scan.tpend, by rw [if_pos h]; rfl⟩
  all_goals next h => exact ⟨rfl, rfl, true, by rw [h, if_neg (by nofun), ← h]; rfl⟩

/-- A clock cycle counts, or it is a tick. -/
theorem timerStep_progress {s : State} (hf : s.ctl.fatal = false) (he : s.ctl.scanEn = true) :
    (timerStep s).cfg = s.cfg ∧ (timerStep s).ctl.fatal = false ∧
      ((s.scan.tcnt.toNat + 1 < s.scan.period.toNat ∧ (timerStep s).scan = { s.scan with tcnt := s.scan.tcnt + 1#24 }) ∨
        (s.scan.period.toNat ≤ s.scan.tcnt.toNat + 1 ∧ ∃ b, (timerStep s).scan = { s.scan with
          tcnt := 0#24, tpend := b, phase := if s.scan.phase = .idle then .setup else s.scan.phase })) := by
  unfold timerStep
  simp only [he, hf, Bool.not_false, Bool.and_self, if_true]
  by_cases c : s.scan.period.toNat ≤ s.scan.tcnt.toNat + 1
  · rw [if_pos c]
    obtain ⟨h1, h2, h3⟩ := tick_scan (s.withScan { s.scan with tcnt := 0#24 })
    exact ⟨h1, h2.trans hf, .inr ⟨c, h3⟩⟩
  · rw [if_neg c]
    exact ⟨rfl, hf, .inl ⟨by omega, rfl⟩⟩

/-! ## Fair runs with the scan enabled -/

/-- What such a run keeps: the configuration passes its check and the scan position is in the panel. -/
structure Scanning (s : State) : Prop where
  legal : configCheck s.cfg = true
  notFatal : s.ctl.fatal = false
  place : ScanPlace s

/-- A step completes a frame, brings its end nearer, or leaves the phase. -/
def FrameMove (s t : State) : Prop :=
  t.scan.frameCount = s.scan.frameCount + 1#32 ∨ frameLeft t < frameLeft s ∨
    (frameLeft t = frameLeft s ∧ t.scan.phase = s.scan.phase)

/-- One step of a machine with the scan enabled, and the two turns that bring the frame's end nearer. -/
theorem step_frame {s t : State} (h : step s = .next t) (k : Scanning s)
    (hs : s.ctl.scanEn = true) (ht : t.ctl.scanEn = true)
    (rs : s.env.inReset = false) (rt : t.env.inReset = false) :
    Scanning t ∧ FrameMove s t ∧
      (Ticks s ∨ s.scan.tcnt.toNat ≤ t.scan.tcnt.toNat ∧
        (nextTurn s = .agent .timer → s.scan.tcnt.toNat < t.scan.tcnt.toNat)) ∧
      (t.scan.phase = s.scan.phase → frameLeft t = frameLeft s →
        (s.scan.phase ≠ .idle → nextTurn s = .agent .se → t.scan.frameCount = s.scan.frameCount + 1#32) ∧
        (s.scan.phase = .idle → ¬Ticks s)) := by
  obtain ⟨hc, hf, hp⟩ := k
  have tp : ScanPlace (takeTurn s) := ⟨by simpa using hp.plane, by simpa using hp.rowpair, by simpa using hp.column⟩
  have tl : frameLeft (takeTurn s) = frameLeft s := by simp [frameLeft, slotsLeft]
  rcases step_scan h hs ht rs rt with ⟨e, rfl⟩ | ⟨e, rfl⟩ | ⟨e1, e2, h1, h2, h3⟩
  · by_cases hi : s.scan.phase = .idle
    · have : seStep (takeTurn s) = takeTurn s := by
        unfold seStep
        simp only [takeTurn_scan, hi, ite_self]
      rw [this, FrameMove, tl]
      exact ⟨⟨by simpa using hc, by simpa using hf, tp⟩, .inr (.inr ⟨rfl, by simp⟩),
        .inr ⟨by simp, by rw [e]; nofun⟩, fun _ _ => ⟨fun h => absurd hi h, fun _ h => by simp [Ticks, e] at h⟩⟩
    · obtain ⟨h1, h2, h3, h4, h5⟩ := seStep_progress tp (by simpa using hc) (by simpa using hf) (by simpa using hs)
        (by simpa using hi)
      rw [tl] at h5
      simp only [takeTurn_scan, takeTurn_cfg] at h1 h3 h5
      refine ⟨⟨by rw [h1]; exact hc, h2, h4⟩, h5.imp_right .inl, .inr ⟨by rw [h3], by rw [e]; nofun⟩, fun _ q =>
        ⟨fun _ _ => h5.resolve_right (by omega), fun h => absurd h hi⟩⟩
  · obtain ⟨h1, h2, h3⟩ := timerStep_progress (s := takeTurn s) (by simpa using hf) (by simpa using hs)
    simp only [takeTurn_scan, takeTurn_cfg] at h1 h3
    rcases h3 with ⟨c, h3⟩ | ⟨c, b, h3⟩
    · have hn : (s.scan.tcnt + 1#24).toNat = s.scan.tcnt.toNat + 1 := by
        have := s.scan.period.isLt
        rw [BitVec.toNat_add]
        simp
        omega
      refine ⟨⟨by rw [h1]; exact hc, h2, ?_⟩, .inr (.inr ?_), .inr ?_, fun _ _ => ⟨fun _ h => by simp [e] at h,
        fun _ h => absurd h.2.2.2.2 (by omega)⟩⟩
      · refine ⟨?_, ?_, ?_⟩ <;> rw [h3, h1]
        exacts [hp.plane, hp.rowpair, hp.column]
      · simp only [frameLeft, slotsLeft, h1, h3, and_self]
      · rw [h3]
        simp only [hn]
        omega
    · have tk : Ticks s := ⟨e, rs, hs, hf, c⟩
      refine ⟨⟨by rw [h1]; exact hc, h2, ?_⟩, .inr ?_, .inl tk, ?_⟩
      · refine ⟨?_, ?_, fun d hd => ?_⟩
        · rw [h3, h1]; exact hp.plane
        · rw [h3, h1]; exact hp.rowpair
        · rw [h3] at hd
          simp only at hd
          split_ifs at hd
          rw [h1]
          exact hp.column d hd
      · by_cases hi : s.scan.phase = .idle
        · left
          simp only [frameLeft, slotsLeft, h1, h3, hi, if_true, phaseRank]
          omega
        · right
          simp only [frameLeft, slotsLeft, h1, h3, if_neg hi, and_self]
      · intro q _
        refine ⟨fun _ h => by simp [e] at h, fun hi => ?_⟩
        rw [h3] at q
        simp only [hi, if_true] at q
        cases q
  · have hl := frameLeft_of_sameScan h1 h3
    have hph : t.scan = { s.scan with period := t.scan.period, unit := t.scan.unit } := h3
    have htc : t.scan.tcnt = s.scan.tcnt := by rw [hph]
    refine ⟨⟨by rw [h1]; exact hc, by rw [h2]; exact hf, hp.of_sameScan h1 h3⟩, .inr (.inr ⟨hl, by rw [hph]⟩),
      .inr ⟨by rw [htc], fun h => absurd h e2⟩, fun _ _ => ⟨fun _ h => absurd h e1, fun _ h => e2 h.1⟩⟩

/-- A fair run with the scan enabled and no reset, from a legal machine. -/
structure ScanRun (r : Nat → State) : Prop where
  fair : FairRun r
  start : Scanning (r 0)
  on : ∀ n, (r n).ctl.scanEn = true
  noReset : ∀ n, (r n).env.inReset = false

/-- Each step of such a run, with the next state's inputs chosen afresh. -/
theorem ScanRun.move {r : Nat → State} (h : ScanRun r) (n : Nat) : Scanning (r n) → Scanning (r (n + 1)) ∧
    FrameMove (r n) (r (n + 1)) ∧
      (Ticks (r n) ∨ (r n).scan.tcnt.toNat ≤ (r (n + 1)).scan.tcnt.toNat ∧
        (nextTurn (r n) = .agent .timer → (r n).scan.tcnt.toNat < (r (n + 1)).scan.tcnt.toNat)) ∧
      ((r (n + 1)).scan.phase = (r n).scan.phase → frameLeft (r (n + 1)) = frameLeft (r n) →
        ((r n).scan.phase ≠ .idle → nextTurn (r n) = .agent .se →
          (r (n + 1)).scan.frameCount = (r n).scan.frameCount + 1#32) ∧
        ((r n).scan.phase = .idle → ¬Ticks (r n))) := by
  intro k
  obtain ⟨t, ht, hu⟩ := h.fair.steps n
  have on := h.on (n + 1)
  have nr := h.noReset (n + 1)
  unfold SameButInputs at hu
  generalize r (n + 1) = u at *
  have e1 : t.cfg = u.cfg := by rw [hu]; rfl
  have e2 : t.ctl = u.ctl := by rw [hu]; rfl
  have e3 : t.scan = u.scan := by rw [hu]; rfl
  have e4 : t.env.inReset = u.env.inReset := by rw [hu]; rfl
  have el : frameLeft t = frameLeft u := by unfold frameLeft slotsLeft; rw [e1, e3]
  obtain ⟨⟨a1, a2, a3⟩, b, c⟩ := step_frame ht k (h.on n) (by rw [e2]; exact on) (h.noReset n) (by rw [e4]; exact nr)
  rw [FrameMove, el, e3] at b
  rw [el, e3] at c
  refine ⟨⟨by rw [← e1]; exact a1, by rw [← e2]; exact a2, ?_⟩, b, c⟩
  refine ⟨?_, ?_, ?_⟩ <;> rw [← e1, ← e3]
  exacts [a3.plane, a3.rowpair, a3.column]

theorem ScanRun.scanning {r : Nat → State} (h : ScanRun r) : ∀ n, Scanning (r n)
  | 0 => h.start
  | n + 1 => (h.move n (h.scanning n)).1

/-- Ticks keep happening (43_led_scan.md R379). -/
theorem ScanRun.ticks_recur {r : Nat → State} (h : ScanRun r) (n : Nat) : ∃ m, n ≤ m ∧ Ticks (r m) := by
  by_contra q
  have no : ∀ m, n ≤ m → ¬Ticks (r m) := fun m hm ht => q ⟨m, hm, ht⟩
  have up : ∀ j m, n ≤ m → (r m).scan.tcnt.toNat ≤ (r (m + j)).scan.tcnt.toNat := by
    intro j
    induction j with
    | zero => exact fun _ _ => Nat.le_refl _
    | succ j ih =>
      intro m hm
      exact (ih m hm).trans ((h.move (m + j) (h.scanning _)).2.2.1.resolve_left (no _ (by omega))).1
  have more : ∀ k, ∃ m, n ≤ m ∧ k ≤ (r m).scan.tcnt.toNat := by
    intro k
    induction k with
    | zero => exact ⟨n, Nat.le_refl _, Nat.zero_le _⟩
    | succ k ih =>
      obtain ⟨m, hm, hk⟩ := ih
      obtain ⟨l, hl, turn | dis⟩ := h.fair.fair .timer m
      · have h1 := up (l - m) m hm
        rw [Nat.add_sub_cancel' hl] at h1
        have h2 := ((h.move l (h.scanning l)).2.2.1.resolve_left (no l (by omega))).2 turn
        exact ⟨l + 1, by omega, by omega⟩
      · exact absurd ⟨h.noReset l, (h.scanning l).notFatal, h.on l⟩ dis
  obtain ⟨m, -, hm⟩ := more (2 ^ 24)
  have := (r m).scan.tcnt.isLt
  omega

/-- Frames keep completing (43_led_scan.md R379): an enabled step of SE is taken at last, and so the scan goes through
every slot of the frame. -/
theorem ScanRun.frames_complete {r : Nat → State} (h : ScanRun r) (n : Nat) :
    ∃ m, n ≤ m ∧ (r (m + 1)).scan.frameCount = (r m).scan.frameCount + 1#32 := by
  induction hd : frameLeft (r n) using Nat.strong_induction_on generalizing n with
  | _ d ih =>
    subst hd
    by_contra q
    have no : ∀ m, n ≤ m → (r (m + 1)).scan.frameCount ≠ (r m).scan.frameCount + 1#32 := fun m hm ht => q ⟨m, hm, ht⟩
    have low : ∀ m, n ≤ m → ¬frameLeft (r m) < frameLeft (r n) := fun m hm hl => by
      obtain ⟨l, hl, e⟩ := ih _ hl m rfl
      exact no l (by omega) e
    have stay : ∀ j, frameLeft (r (n + j)) = frameLeft (r n) ∧ (r (n + j)).scan.phase = (r n).scan.phase := by
      intro j
      induction j with
      | zero => exact ⟨rfl, rfl⟩
      | succ j ij =>
        obtain f | f | ⟨f1, f2⟩ := (h.move (n + j) (h.scanning _)).2.1
        · exact absurd f (no _ (by omega))
        · exact absurd (ij.1 ▸ f) (low (n + j + 1) (by omega))
        · exact ⟨f1.trans ij.1, f2.trans ij.2⟩
    have same : ∀ m, n ≤ m → frameLeft (r m) = frameLeft (r n) ∧ (r m).scan.phase = (r n).scan.phase := by
      intro m hm
      have := stay (m - n)
      rwa [Nat.add_sub_cancel' hm] at this
    have go : ∀ m, n ≤ m → _ := fun m hm => (h.move m (h.scanning m)).2.2.2
      ((same (m + 1) (by omega)).2.trans (same m hm).2.symm) ((same (m + 1) (by omega)).1.trans (same m hm).1.symm)
    by_cases hi : (r n).scan.phase = .idle
    · obtain ⟨m, hm, ht⟩ := h.ticks_recur n
      exact (go m hm).2 ((same m hm).2.trans hi) ht
    · obtain ⟨m, hm, turn | dis⟩ := h.fair.fair .se n
      · exact no m hm ((go m hm).1 (by rw [(same m hm).2]; exact hi) turn)
      · exact dis ⟨h.noReset m, (h.scanning m).notFatal, by rw [(same m hm).2]; exact hi, fun _ => h.on m⟩

/-! ## There are fair runs -/

/-- SE keeps the scan enabled and the reset input as it is. -/
theorem seStep_on (s : State) :
    (seStep s).ctl.scanEn = s.ctl.scanEn ∧ (seStep s).env.inReset = s.env.inReset := by
  have adv : ∀ u : State, (advanceSlot u).ctl.scanEn = u.ctl.scanEn ∧ (advanceSlot u).env.inReset = u.env.inReset := by
    intro u
    unfold advanceSlot
    split_ifs <;> exact ⟨rfl, rfl⟩
  have fin : ∀ u : State, (endSlot u).ctl.scanEn = u.ctl.scanEn ∧ (endSlot u).env.inReset = u.env.inReset := by
    intro u
    unfold endSlot
    split_ifs <;> exact ⟨rfl, rfl⟩
  unfold seStep
  split
  · exact ⟨rfl, rfl⟩
  · split
    · exact ⟨rfl, rfl⟩
    · split <;> exact ⟨rfl, rfl⟩
    · exact ⟨rfl, rfl⟩
    · exact ⟨rfl, rfl⟩
    · unfold seHold
      simp only
      split <;> exact ⟨rfl, rfl⟩
    · unfold seEnd
      simp only
      rw [(fin _).1, (fin _).2, (adv _).1, (adv _).2]
      split <;> exact ⟨rfl, rfl⟩

/-- So do the other engines and the timer. -/
theorem engineStep_on (a : Agent) (s : State) :
    (engineStep a s).ctl.scanEn = s.ctl.scanEn ∧ (engineStep a s).env.inReset = s.env.inReset := by
  unfold engineStep
  split
  · exact ⟨rfl, rfl⟩
  · cases a
    · exact ⟨rfl, rfl⟩
    · simp only [leStep]
      split
      · exact ⟨rfl, rfl⟩
      · split <;> exact ⟨rfl, rfl⟩
    · exact seStep_on s
    · simp only [syStep]
      split
      · exact ⟨rfl, rfl⟩
      · split
        · exact ⟨rfl, rfl⟩
        · unfold synStep
          generalize synAction s.cfg _ = a
          cases a
          · exact ⟨rfl, rfl⟩
          · simp only [sampleStep]
            rw [sampleWord_env]
            simp
          · exact ⟨rfl, rfl⟩
          · exact ⟨rfl, rfl⟩
    · simp only [timerStep]
      split
      · split
        · unfold tick
          split <;> exact ⟨rfl, rfl⟩
        · exact ⟨rfl, rfl⟩
      · exact ⟨rfl, rfl⟩

/-- The agents in turn, the next one given as input before each step, and no bus access. -/
def roundRobinInputs (n : Nat) (t : State) : State :=
  t.withEnv { t.env with turns := [.agent ([Agent.host, .le, .se, .sy, .timer].getD (n % 5) .host)], bus := [] }

/-- The next state, if there is one. -/
def nextOr (s : State) : Host.Outcome State Fault Refusal → State
  | .next t => t
  | .fault _ | .refused _ => s

/-- The run in which the agents step in turn. -/
def roundRobin (s : State) : Nat → State
  | 0 => roundRobinInputs 0 s
  | n + 1 => roundRobinInputs (n + 1) (nextOr (roundRobin s n) (step (roundRobin s n)))

theorem roundRobin_inputs (s : State) (n : Nat) : ∃ t, roundRobin s n = roundRobinInputs n t := by
  cases n <;> exact ⟨_, rfl⟩

theorem roundRobin_turn (s : State) (n : Nat) :
    nextTurn (roundRobin s n) = .agent ([Agent.host, .le, .se, .sy, .timer].getD (n % 5) .host) := by
  obtain ⟨t, h⟩ := roundRobin_inputs s n
  rw [h]
  rfl

theorem roundRobin_step (s : State) (n : Nat) : ∃ t, step (roundRobin s n) = .next t ∧
    roundRobin s (n + 1) = roundRobinInputs (n + 1) t ∧
    t.ctl.scanEn = (roundRobin s n).ctl.scanEn ∧ t.env.inReset = (roundRobin s n).env.inReset := by
  have hb : (roundRobin s n).env.bus = [] := by
    obtain ⟨t, h⟩ := roundRobin_inputs s n
    rw [h]
    rfl
  have ht := roundRobin_turn s n
  generalize hu : roundRobin s n = u at *
  have hr : roundRobin s (n + 1) = roundRobinInputs (n + 1) (nextOr u (step u)) := by rw [roundRobin, hu]
  generalize [Agent.host, .le, .se, .sy, .timer].getD (n % 5) .host = a at ht
  have e := engineStep_on a (takeTurn u)
  rw [takeTurn_ctl, takeTurn_inReset] at e
  have hs : step u = .next (engineStep a (takeTurn u)) := by
    unfold step
    rw [ht]
    cases a
    · have : (takeTurn u).env.bus = [] := by rw [← hb]; unfold takeTurn; split <;> rfl
      simp only [runTurn, hostStep, this, engineStep, ite_self]
    all_goals rfl
  exact ⟨_, hs, by rw [hr, hs]; rfl, e.1, e.2⟩

/-- Every state starts a fair run, so what holds of all fair runs says something. -/
theorem roundRobin_fair (s : State) : FairRun (roundRobin s) := by
  refine ⟨fun n => ?_, fun a n => ?_⟩
  · obtain ⟨t, h1, h2, -⟩ := roundRobin_step s n
    exact ⟨t, h1, by rw [h2]; rfl⟩
  · obtain ⟨k, hk, ha⟩ : ∃ k, k < 5 ∧ [Agent.host, .le, .se, .sy, .timer].getD k .host = a := by
      cases a
      exacts [⟨0, by decide, rfl⟩, ⟨1, by decide, rfl⟩, ⟨2, by decide, rfl⟩, ⟨3, by decide, rfl⟩, ⟨4, by decide, rfl⟩]
    refine ⟨5 * n + k, by omega, .inl ?_⟩
    rw [roundRobin_turn, show (5 * n + k) % 5 = k by omega, ha]

/-- A legal machine with the scan enabled runs so. -/
theorem roundRobin_scanRun {s : State} (h : Scanning s) (on : s.ctl.scanEn = true) (nr : s.env.inReset = false) :
    ScanRun (roundRobin s) := by
  have keep : ∀ n, (roundRobin s n).ctl.scanEn = true ∧ (roundRobin s n).env.inReset = false := by
    intro n
    induction n with
    | zero => exact ⟨on, nr⟩
    | succ n ih =>
      obtain ⟨t, -, h2, h3, h4⟩ := roundRobin_step s n
      rw [h2]
      exact ⟨h3.trans ih.1, h4.trans ih.2⟩
  exact ⟨roundRobin_fair s, ⟨h.legal, h.notFatal, h.place.plane, h.place.rowpair, h.place.column⟩,
    fun n => (keep n).1, fun n => (keep n).2⟩

end Sys2Proof.Machine
end

