-- ==== Sys2Proof/Laws/Float.lean ====
section
/-! SUPPORT. The order of binary32 values, exactness and monotonicity of the one rounding, and the clamps. -/

namespace Sys2Proof.Machine

/-! ## Order -/

theorem fle_iff {a b : F32} : fle a b = true ↔ fIsNaN a = false ∧ fIsNaN b = false ∧ fkey a ≤ fkey b := by
  simp [fle, and_assoc]

theorem flt_iff {a b : F32} : flt a b = true ↔ fIsNaN a = false ∧ fIsNaN b = false ∧ fkey a < fkey b := by
  simp [flt, and_assoc]

theorem flt_eq_false_iff {a b : F32} (ha : fIsNaN a = false) (hb : fIsNaN b = false) :
    flt a b = false ↔ fkey b ≤ fkey a := by
  simp [flt, ha, hb]

theorem fle_refl {a : F32} (h : fIsNaN a = false) : fle a a = true := fle_iff.mpr ⟨h, h, le_refl _⟩

theorem fle_trans {a b c : F32} (h1 : fle a b = true) (h2 : fle b c = true) : fle a c = true := by
  rw [fle_iff] at *
  exact ⟨h1.1, h2.2.1, h1.2.2.trans h2.2.2⟩

theorem fle_of_flt {a b : F32} (h : flt a b = true) : fle a b = true := by
  rw [flt_iff] at h
  exact fle_iff.mpr ⟨h.1, h.2.1, h.2.2.le⟩

theorem fFinite_not_nan {a : F32} (h : fFinite a = true) : fIsNaN a = false := by
  simp only [fFinite, fIsNaN, decide_eq_true_eq, decide_eq_false_iff_not] at *
  omega

/-! ## The clamps -/

/-- A clamped parameter lies in its range, and a value in the range is stored as it is, zeros as +0
(10_state.md R70). -/
theorem clampP_mem {v lo hi : F32} (h : fle lo hi = true) (hz : fle lo fPosZero = true → fle fPosZero hi = true) :
    fle lo (clampP v lo hi) = true ∧ fle (clampP v lo hi) hi = true := by
  obtain ⟨hlo, hhi, -⟩ := fle_iff.mp h
  unfold clampP
  split_ifs with h1 h2 h3 h4
  · exact ⟨fle_refl hlo, h⟩
  · exact ⟨fle_refl hlo, h⟩
  · exact ⟨h, fle_refl hhi⟩
  all_goals
    have h1 : fIsNaN v = false := by simpa using h1
    have h2 := (flt_eq_false_iff h1 hlo).mp (by simpa using h2)
    have h3 := (flt_eq_false_iff hhi h1).mp (by simpa using h3)
  · have hk : fkey v = 0 := by
      have : fmag v = 0 := by simpa [fIsZero] using h4
      simp [fkey, this]
    have h0 : fle lo fPosZero = true := fle_iff.mpr ⟨hlo, by decide, by rw [hk] at h2; simpa [fkey, fPosZero, fmag, fsign] using h2⟩
    exact ⟨h0, hz h0⟩
  · exact ⟨fle_iff.mpr ⟨hlo, h1, h2⟩, fle_iff.mpr ⟨h1, hhi, h3⟩⟩

/-- A clamped value is +0 or no zero at all, where the bounds are. -/
theorem clampP_sign {v lo hi : F32} (hl : fIsZero lo = true → lo = fPosZero) (hh : fIsZero hi = true → hi = fPosZero)
    (hs : fIsZero (clampP v lo hi) = true) : clampP v lo hi = fPosZero := by
  unfold clampP at *
  split_ifs at * with h1 h2 h3 h4
  exacts [hl hs, hl hs, hh hs, rfl, absurd hs h4]

/-- Clamping twice is clamping once. -/
theorem clampP_clampP {v lo hi : F32} (h : fle lo hi = true) (hz : fle lo fPosZero = true → fle fPosZero hi = true)
    (hl : fIsZero lo = true → lo = fPosZero) (hh : fIsZero hi = true → hi = fPosZero) :
    clampP (clampP v lo hi) lo hi = clampP v lo hi := by
  obtain ⟨m1, m2⟩ := clampP_mem (v := v) h hz
  obtain ⟨hlo, hhi, -⟩ := fle_iff.mp h
  have hzero := clampP_sign (v := v) hl hh
  generalize clampP v lo hi = y at *
  obtain ⟨-, n1, k1⟩ := fle_iff.mp m1
  obtain ⟨-, -, k2⟩ := fle_iff.mp m2
  have e1 : flt y lo = false := (flt_eq_false_iff n1 hlo).mpr k1
  have e2 : flt hi y = false := (flt_eq_false_iff hhi n1).mpr k2
  cases h0 : fIsZero y
  · simp [clampP, n1, e1, e2, h0]
  · have h3 := hzero h0
    simp [clampP, n1, e1, e2, h0, ← h3]

theorem paramMin_le_paramMax (r : ParamReg) : fle (paramMin r) (paramMax r) = true := by cases r <;> decide

theorem param_zero (r : ParamReg) : fle (paramMin r) fPosZero = true → fle fPosZero (paramMax r) = true := by
  cases r <;> decide

/-- A stored parameter is one its register can store. -/
theorem clampP_param (r : ParamReg) (v : F32) :
    clampP (clampP v (paramMin r) (paramMax r)) (paramMin r) (paramMax r) = clampP v (paramMin r) (paramMax r) :=
  clampP_clampP (paramMin_le_paramMax r) (param_zero r) (by cases r <;> decide) (by cases r <;> decide)

/-- A value of the range that is no -0 is clamped to itself. -/
theorem clampP_of_mem {v lo hi : F32} (h1 : fle lo v = true) (h2 : fle v hi = true)
    (hz : fIsZero v = true → v = fPosZero) : clampP v lo hi = v := by
  obtain ⟨hlo, hv, k1⟩ := fle_iff.mp h1
  obtain ⟨-, hhi, k2⟩ := fle_iff.mp h2
  simp only [clampP, hv, (flt_eq_false_iff hv hlo).mpr k1, (flt_eq_false_iff hhi hv).mpr k2, Bool.false_eq_true, if_false]
  split_ifs with h0
  · exact (hz h0).symm
  · rfl

/-- A value held to an interval is in it. -/
theorem fclampTo_mem {lo hi : F32} (v : F32) (h : fle lo hi = true) :
    fle lo (fclampTo lo hi v) = true ∧ fle (fclampTo lo hi v) hi = true := by
  obtain ⟨hlo, hhi, -⟩ := fle_iff.mp h
  unfold fclampTo
  split_ifs with h1 h2 h3
  · exact ⟨fle_refl hlo, h⟩
  · exact ⟨fle_refl hlo, h⟩
  · exact ⟨h, fle_refl hhi⟩
  · have h1 : fIsNaN v = false := by simpa using h1
    exact ⟨fle_iff.mpr ⟨hlo, h1, (flt_eq_false_iff h1 hlo).mp (by simpa using h2)⟩,
      fle_iff.mpr ⟨h1, hhi, (flt_eq_false_iff hhi h1).mp (by simpa using h3)⟩⟩

/-- A value of the interval is held to itself. -/
theorem fclampTo_of_mem {lo hi v : F32} (h1 : fle lo v = true) (h2 : fle v hi = true) : fclampTo lo hi v = v := by
  obtain ⟨hlo, hv, k1⟩ := fle_iff.mp h1
  obtain ⟨-, hhi, k2⟩ := fle_iff.mp h2
  simp [fclampTo, hv, (flt_eq_false_iff hv hlo).mpr k1, (flt_eq_false_iff hhi hv).mpr k2]

/-! ## The monotone hull -/

theorem hull_mem (raw : Nat → F32) (k : Nat) {lo hi : F32} (a n : Nat) (h0 : fle fPosZero lo = true)
    (h : fle lo hi = true) : fle lo (hull raw k lo hi a n) = true ∧ fle (hull raw k lo hi a n) hi = true := by
  induction k generalizing lo hi a with
  | zero => exact clampP_mem h fun _ => fle_trans h0 h
  | succ k ih =>
    obtain ⟨m1, m2⟩ := clampP_mem (v := raw (a + 2 ^ k - 1)) h fun _ => fle_trans h0 h
    simp only [hull]
    split_ifs
    · exact ⟨(ih a h0 m1).1, fle_trans (ih a h0 m1).2 m2⟩
    · exact ⟨fle_trans m1 (ih _ (fle_trans h0 m1) m2).1, (ih _ (fle_trans h0 m1) m2).2⟩

theorem hull_mono (raw : Nat → F32) (k : Nat) {lo hi : F32} (a : Nat) {m n : Nat} (h0 : fle fPosZero lo = true)
    (h : fle lo hi = true) (hmn : m ≤ n) : fle (hull raw k lo hi a m) (hull raw k lo hi a n) = true := by
  induction k generalizing lo hi a with
  | zero => exact fle_refl (fle_iff.mp (clampP_mem h fun _ => fle_trans h0 h).1).2.1
  | succ k ih =>
    obtain ⟨m1, m2⟩ := clampP_mem (v := raw (a + 2 ^ k - 1)) h fun _ => fle_trans h0 h
    simp only [hull]
    split_ifs with c1 c2
    · exact ih a h0 m1
    · exact fle_trans (hull_mem raw k a m h0 m1).2 (hull_mem raw k (a + 2 ^ k) n (fle_trans h0 m1) m2).1
    · exact absurd (by omega) c1
    · exact ih _ (fle_trans h0 m1) m2

/-- The hull never gives -0 where its bounds are not -0 (00_scope.md R9 (ii)). -/
theorem hull_sign (raw : Nat → F32) (k : Nat) {lo hi : F32} (a n : Nat) (h0 : fle fPosZero lo = true)
    (h : fle lo hi = true) (hl : fIsZero lo = true → lo = fPosZero) (hh : fIsZero hi = true → hi = fPosZero)
    (hs : fIsZero (hull raw k lo hi a n) = true) : hull raw k lo hi a n = fPosZero := by
  induction k generalizing lo hi a with
  | zero => exact clampP_sign hl hh hs
  | succ k ih =>
    obtain ⟨m1, m2⟩ := clampP_mem (v := raw (a + 2 ^ k - 1)) h fun _ => fle_trans h0 h
    have hm := clampP_sign (v := raw (a + 2 ^ k - 1)) hl hh
    simp only [hull] at hs ⊢
    split_ifs at hs ⊢
    · exact ih a h0 m1 hl hm hs
    · exact ih _ (fle_trans h0 m1) m2 hm hh hs

/-- A free function that is monotone, bounded and never -0 already is its own hull. -/
theorem hull_eq (raw : Nat → F32) (k : Nat) {lo hi : F32} (a n : Nat) (ha : a ≤ n) (hn : n < a + 2 ^ k)
    (hb : ∀ i, a ≤ i → i < a + 2 ^ k → fle lo (raw i) = true ∧ fle (raw i) hi = true)
    (hz : ∀ i, a ≤ i → i < a + 2 ^ k → fIsZero (raw i) = true → raw i = fPosZero)
    (hm : ∀ i j, a ≤ i → i ≤ j → j < a + 2 ^ k → fle (raw i) (raw j) = true) :
    hull raw k lo hi a n = raw n := by
  induction k generalizing lo hi a with
  | zero =>
    have : n = a := by simp at hn; omega
    subst this
    obtain ⟨b1, b2⟩ := hb n (le_refl _) (by simp)
    exact clampP_of_mem b1 b2 (hz n (le_refl _) (by simp))
  | succ k ih =>
    have hp : 2 ^ (k + 1) = 2 ^ k + 2 ^ k := by rw [pow_succ]; ring
    have hpos : 0 < 2 ^ k := by positivity
    obtain ⟨b1, b2⟩ := hb (a + 2 ^ k - 1) (by omega) (by omega)
    simp only [hull, clampP_of_mem b1 b2 (hz _ (by omega) (by omega))]
    split_ifs with c
    · exact ih a ha c (fun i h1 h2 => ⟨(hb i h1 (by omega)).1, hm _ _ h1 (by omega) (by omega)⟩)
        (fun i h1 h2 => hz i h1 (by omega)) (fun i j h1 h2 h3 => hm i j h1 h2 (by omega))
    · exact ih (a + 2 ^ k) (by omega) (by omega)
        (fun i h1 h2 => ⟨hm _ _ (by omega) (by omega) (by omega), (hb i (by omega) (by omega)).2⟩)
        (fun i h1 h2 => hz i (by omega) (by omega)) (fun i j h1 h2 h3 => hm i j (by omega) h2 (by omega))

/-! ## Rounding -/

theorem roundEven_mono {n d n' d' : Nat} (hd : 0 < d) (hd' : 0 < d') (h : n * d' ≤ n' * d) :
    roundEven n d ≤ roundEven n' d' := by
  have e := Nat.div_add_mod n d
  have e' := Nat.div_add_mod n' d'
  have hr := Nat.mod_lt n hd
  have hr' := Nat.mod_lt n' hd'
  simp only [roundEven]
  generalize n / d = q at *
  generalize n % d = r at *
  generalize n' / d' = q' at *
  generalize n' % d' = r' at *
  subst e e'
  have hq : q ≤ q' := by
    by_contra hlt
    have : q' + 1 ≤ q := by omega
    have h2 : (q' + 1) * (d * d') ≤ q * (d * d') := Nat.mul_le_mul_right _ this
    nlinarith [Nat.mul_lt_mul_of_pos_left hr' hd]
  rcases Nat.lt_or_ge q q' with hlt | hge
  · split_ifs <;> omega
  · have : q = q' := by omega
    subst this
    have hrr : r * d' ≤ r' * d := by nlinarith
    split_ifs with c1 c2 <;> try omega
    exfalso
    push Not at c2
    obtain ⟨c2, c3⟩ := c2
    rcases c1 with c1 | ⟨c1, c4⟩
    · have : d * d' < 2 * r * d' := Nat.mul_lt_mul_of_pos_right c1 hd'
      have : 2 * r' * d ≤ d' * d := Nat.mul_le_mul_right _ c2
      nlinarith
    · rcases Nat.lt_or_ge (2 * r') d' with c5 | c5
      · have : 2 * r' * d < d' * d := Nat.mul_lt_mul_of_pos_right c5 hd
        have : 2 * r * d' = d * d' := by rw [c1]
        nlinarith
      · exact absurd (c3 (by omega)) (by omega)

theorem roundEven_exact {q d : Nat} (hd : 0 < d) : roundEven (q * d) d = q := by
  simp [roundEven, Nat.mul_div_cancel _ hd]
  omega

theorem roundEven_le {n d : Nat} (q : Nat) (hd : 0 < d) (h : n ≤ q * d) : roundEven n d ≤ q := by
  calc roundEven n d ≤ roundEven (q * d) d := roundEven_mono hd hd (Nat.mul_le_mul_right _ h)
    _ = q := roundEven_exact hd

theorem le_roundEven {n d : Nat} (q : Nat) (hd : 0 < d) (h : q * d ≤ n) : q ≤ roundEven n d := by
  calc q = roundEven (q * d) d := (roundEven_exact hd).symm
    _ ≤ roundEven n d := roundEven_mono hd hd (Nat.mul_le_mul_right _ h)

/-- Rounding is monotone: a larger quotient has a magnitude pattern at least as large. -/
theorem froundMag_mono {n d n' d' : Nat} (hd : 0 < d) (hd' : 0 < d') (h : n * d' ≤ n' * d) :
    froundMag n d ≤ froundMag n' d' := by
  have hq : n / d ≤ n' / d' := by
    rw [Nat.le_div_iff_mul_le hd']
    have : n / d * d ≤ n := Nat.div_mul_le_self _ _
    have h2 : n / d * d * d' ≤ n' * d := le_trans (Nat.mul_le_mul_right _ this) h
    have h3 : n / d * d' * d ≤ n' * d := by rw [Nat.mul_right_comm]; exact h2
    exact Nat.le_of_mul_le_mul_right h3 hd
  simp only [froundMag]
  have hk : Nat.log2 (n / d) - 23 ≤ Nat.log2 (n' / d') - 23 := by
    have : Nat.log2 (n / d) ≤ Nat.log2 (n' / d') := by
      simp only [Nat.log2_eq_log_two]; exact Nat.log_mono_right hq
    omega
  apply min_le_min_right
  have hup : n / d < 2 ^ (Nat.log2 (n / d) + 1) := Nat.lt_log2_self
  generalize hkk : Nat.log2 (n / d) - 23 = k at *
  generalize hkk' : Nat.log2 (n' / d') - 23 = k' at *
  rcases Nat.lt_or_ge k k' with hlt | hge
  · have h1 : roundEven n (d * 2 ^ k) ≤ 2 ^ 24 := by
      apply roundEven_le _ (by positivity)
      have : n < (n / d + 1) * d := by
        have := Nat.lt_div_mul_add (a := n) hd
        nlinarith
      have h3 : n / d + 1 ≤ 2 ^ (k + 24) :=
        le_trans hup (Nat.pow_le_pow_right (by norm_num) (by omega))
      have : (n / d + 1) * d ≤ 2 ^ (k + 24) * d := Nat.mul_le_mul_right _ h3
      have e : 2 ^ 24 * (d * 2 ^ k) = 2 ^ (k + 24) * d := by rw [pow_add]; ring
      omega
    have h2 : 2 ^ 23 ≤ roundEven n' (d' * 2 ^ k') := by
      apply le_roundEven _ (by positivity)
      have hne : n' / d' ≠ 0 := by
        intro h0; rw [h0] at hkk'; simp at hkk'; omega
      have hlo : 2 ^ (k' + 23) ≤ n' / d' := by
        have := Nat.log2_self_le hne
        have e : k' + 23 = Nat.log2 (n' / d') := by omega
        rwa [e]
      have := (Nat.le_div_iff_mul_le hd').mp hlo
      have e : 2 ^ 23 * (d' * 2 ^ k') = 2 ^ (k' + 23) * d' := by rw [pow_add]; ring
      omega
    norm_num at h1 h2 ⊢
    omega
  · have : k = k' := by omega
    subst this
    have := roundEven_mono (n := n) (d := d * 2 ^ k) (n' := n') (d' := d' * 2 ^ k) (by positivity) (by positivity)
      (by nlinarith [Nat.mul_le_mul_right (2 ^ k) h])
    omega

/-- Units of 2^-149 of a magnitude pattern. -/
def unitsOf (m : Nat) : Nat := if m / 0x800000 = 0 then m % 0x800000 else (m % 0x800000 + 0x800000) * 2 ^ (m / 0x800000 - 1)

theorem funits_eq (a : F32) : funits a = unitsOf (fmag a) := rfl

/-- A representable value rounds to itself. -/
theorem froundMag_exact {m d : Nat} (hd : 0 < d) (hm : m ≤ 0x7F800000) : froundMag (unitsOf m * d) d = m := by
  simp only [froundMag, Nat.mul_div_cancel _ hd]
  unfold unitsOf
  split_ifs with h
  · have hf : m % 0x800000 < 2 ^ 23 := Nat.mod_lt _ (by norm_num)
    have hl : Nat.log2 (m % 0x800000) - 23 = 0 := by
      rcases Nat.eq_zero_or_pos (m % 0x800000) with h0 | h0
      · rw [h0]; rfl
      · have : Nat.log2 (m % 0x800000) < 23 := (Nat.log2_lt (by omega)).mpr hf
        omega
    rw [hl, pow_zero, Nat.mul_one, roundEven_exact hd]
    omega
  · have hl : Nat.log2 ((m % 0x800000 + 0x800000) * 2 ^ (m / 0x800000 - 1)) = 23 + (m / 0x800000 - 1) := by
      have h1 : m % 0x800000 < 2 ^ 23 := Nat.mod_lt _ (by norm_num)
      rw [Nat.log2_eq_iff (by positivity)]
      constructor
      · rw [pow_add]; exact Nat.mul_le_mul_right _ (by norm_num)
      · have : 23 + (m / 0x800000 - 1) + 1 = 24 + (m / 0x800000 - 1) := by omega
        rw [this, pow_add]
        exact Nat.mul_lt_mul_of_pos_right (by norm_num at *; omega) (by positivity)
    rw [hl, show 23 + (m / 0x800000 - 1) - 23 = m / 0x800000 - 1 by omega, Nat.mul_assoc,
      Nat.mul_comm (2 ^ _) d, roundEven_exact (by positivity)]
    omega

theorem froundMag_le_inf (n d : Nat) : froundMag n d ≤ 0x7F800000 := Nat.min_le_right _ _

/-- A quotient of at most a representable value rounds to at most it. -/
theorem froundMag_le {n d : Nat} (m : Nat) (hd : 0 < d) (hm : m ≤ 0x7F800000) (h : n ≤ unitsOf m * d) :
    froundMag n d ≤ m := by
  calc froundMag n d ≤ froundMag (unitsOf m * d) d := froundMag_mono hd hd (Nat.mul_le_mul_right _ h)
    _ = m := froundMag_exact hd hm

theorem le_froundMag {n d : Nat} (m : Nat) (hd : 0 < d) (hm : m ≤ 0x7F800000) (h : unitsOf m * d ≤ n) :
    m ≤ froundMag n d := by
  calc m = froundMag (unitsOf m * d) d := (froundMag_exact hd hm).symm
    _ ≤ froundMag n d := froundMag_mono hd hd (Nat.mul_le_mul_right _ h)

/-- Larger patterns have more units. -/
theorem unitsOf_mono {m n : Nat} (hn : n ≤ 0x7F800000) (h : m ≤ n) : unitsOf m ≤ unitsOf n := by
  by_contra hlt
  push Not at hlt
  have h1 := froundMag_exact (m := m) (d := 1) one_pos (by omega)
  have h2 := froundMag_exact (m := n) (d := 1) one_pos hn
  have h3 := froundMag_mono (n := unitsOf n * 1) (d := 1) (n' := unitsOf m * 1) (d' := 1) one_pos one_pos (by omega)
  have : m = n := by omega
  subst this
  omega

theorem unitsOf_strictMono {m n : Nat} (hn : n ≤ 0x7F800000) (h : m < n) : unitsOf m < unitsOf n := by
  rcases Nat.lt_or_ge (unitsOf m) (unitsOf n) with h1 | h1
  · exact h1
  · have e : unitsOf m = unitsOf n := le_antisymm (unitsOf_mono hn h.le) h1
    have h1 := froundMag_exact (m := m) (d := 1) one_pos (by omega)
    have h2 := froundMag_exact (m := n) (d := 1) one_pos hn
    rw [e] at h1
    omega

/-- A number of units with a significand of at most 24 bits is representable. -/
theorem representable {s k : Nat} (hs : s < 2 ^ 24) (hk : k ≤ 253) : ∃ m, m < 0x7F800000 ∧ unitsOf m = s * 2 ^ k := by
  induction k generalizing s with
  | zero =>
    rcases Nat.lt_or_ge s (2 ^ 23) with h | h
    · refine ⟨s, by omega, ?_⟩
      have : s / 0x800000 = 0 := by omega
      simp only [unitsOf, this, if_true]; omega
    · refine ⟨s, by omega, ?_⟩
      have : s / 0x800000 = 1 := by omega
      simp only [unitsOf, this]; norm_num; omega
  | succ k ih =>
    rcases Nat.lt_or_ge s (2 ^ 23) with h | h
    · obtain ⟨m, h1, h2⟩ := ih (s := 2 * s) (by omega) (by omega)
      exact ⟨m, h1, by rw [h2, pow_succ]; ring⟩
    · refine ⟨(k + 2) * 0x800000 + (s - 2 ^ 23), by omega, ?_⟩
      have e1 : ((k + 2) * 0x800000 + (s - 2 ^ 23)) / 0x800000 = k + 2 := by omega
      have e2 : ((k + 2) * 0x800000 + (s - 2 ^ 23)) % 0x800000 = s - 2 ^ 23 := by omega
      simp only [unitsOf, e1, e2]
      have : k + 2 ≠ 0 := by omega
      rw [if_neg this, show k + 2 - 1 = k + 1 by omega, show s - 2 ^ 23 + 0x800000 = s by omega]

/-! ## Signs and keys of results -/

theorem fmag_fmk {neg : Bool} {m : Nat} (hm : m < 0x80000000) : fmag (fmk neg m) = m := by
  cases neg <;> simp [fmag, fmk] <;> omega

theorem fsign_fmk {neg : Bool} {m : Nat} (hm : m < 0x80000000) : fsign (fmk neg m) = neg := by
  unfold fsign fmk
  rw [BitVec.getLsbD_ofNat, Nat.testBit_eq_decide_div_mod_eq]
  cases neg <;> simp <;> omega

theorem fkey_fmk {neg : Bool} {m : Nat} (hm : m < 0x80000000) : fkey (fmk neg m) = if neg then -(m : Int) else m := by
  simp [fkey, fmag_fmk hm, fsign_fmk hm]

theorem fround_not_nan (neg : Bool) (n d : Nat) : fIsNaN (fround neg n d) = false := by
  have := froundMag_le_inf n d
  simp only [fround, fIsNaN, fmag_fmk (show froundMag n d < 0x80000000 by omega), decide_eq_false_iff_not]
  omega

theorem fkey_fround (neg : Bool) (n d : Nat) :
    fkey (fround neg n d) = if neg then -(froundMag n d : Int) else froundMag n d :=
  fkey_fmk (by have := froundMag_le_inf n d; omega)

theorem fmag_fround (neg : Bool) (n d : Nat) : fmag (fround neg n d) = froundMag n d :=
  fmag_fmk (by have := froundMag_le_inf n d; omega)

theorem fsign_fround (neg : Bool) (n d : Nat) : fsign (fround neg n d) = neg :=
  fsign_fmk (by have := froundMag_le_inf n d; omega)

theorem funits_fround (neg : Bool) (n d : Nat) : funits (fround neg n d) = unitsOf (froundMag n d) := by
  rw [funits_eq, fmag_fround]

theorem fFinite_fround (neg : Bool) (n d : Nat) : fFinite (fround neg n d) = decide (froundMag n d < 0x7F800000) := by
  rw [fFinite, fmag_fround]

/-- The key of a signed number of units, rounded. -/
def roundKey (s : Int) : Int := if s < 0 then -(froundMag s.natAbs 1 : Int) else froundMag s.natAbs 1

theorem roundKey_mono {s t : Int} (h : s ≤ t) : roundKey s ≤ roundKey t := by
  unfold roundKey
  split_ifs with h1 h2
  · have := froundMag_mono (n := t.natAbs) (d := 1) (n' := s.natAbs) (d' := 1) one_pos one_pos (by omega)
    omega
  · omega
  · omega
  · have := froundMag_mono (n := s.natAbs) (d := 1) (n' := t.natAbs) (d' := 1) one_pos one_pos (by omega)
    omega

/-- A finite sum is its exact value rounded, and no NaN. -/
theorem fadd_finite {a b : F32} (ha : fFinite a = true) (hb : fFinite b = true) :
    fIsNaN (fadd a b) = false ∧ fkey (fadd a b) = roundKey (fint a + fint b) := by
  have na := fFinite_not_nan ha
  have nb := fFinite_not_nan hb
  have ia : fIsInf a = false := by simp only [fFinite, fIsInf, decide_eq_true_eq, decide_eq_false_iff_not] at *; omega
  have ib : fIsInf b = false := by simp only [fFinite, fIsInf, decide_eq_true_eq, decide_eq_false_iff_not] at *; omega
  simp only [fadd, na, nb, ia, ib, Bool.or_self, Bool.false_eq_true, if_false]
  by_cases h : fint a + fint b = 0
  · simp only [h, if_true]
    refine ⟨by simp [fIsNaN, fmag_fmk (m := 0) (by norm_num)], ?_⟩
    rw [fkey_fmk (by norm_num)]
    have h0 : froundMag 0 1 = 0 := froundMag_exact (m := 0) one_pos (by norm_num)
    rw [roundKey, if_neg (lt_irrefl 0), Int.natAbs_zero, h0]
    cases fsign a && fsign b <;> rfl
  · simp only [h, if_false]
    refine ⟨fround_not_nan _ _ _, ?_⟩
    rw [fkey_fround]
    simp [roundKey]

/-- A finite product of values of one sign is its exact value rounded. -/
theorem fmul_finite {a b : F32} (ha : fFinite a = true) (hb : fFinite b = true) :
    fmul a b = fround (fsign a != fsign b) (funits a * funits b) (2 ^ 149) := by
  have na := fFinite_not_nan ha
  have nb := fFinite_not_nan hb
  have ia : fIsInf a = false := by simp only [fFinite, fIsInf, decide_eq_true_eq, decide_eq_false_iff_not] at *; omega
  have ib : fIsInf b = false := by simp only [fFinite, fIsInf, decide_eq_true_eq, decide_eq_false_iff_not] at *; omega
  simp only [fmul, na, nb, ia, ib, Bool.or_self, Bool.false_eq_true, if_false]

end Sys2Proof.Machine
end

