-- ==== Sys2Proof/Laws/PerInstr.lean ====
section
/-! SUPPORT. The statements made per instruction: `RoundTrip` says that decoding an instruction's encoding gives it
back, with every operand at every value (30_encoding.md R160 to R168). -/

namespace Sys2Proof.Laws.RoundTrip

/-- Decoding the access that carries `i` gives `i`. -/
def Statement (i : Instr) : Prop := decode (encode i) = .instr i

/-- A write at a constant offset: the decoder sees its word index. -/
theorem decode_write (a : BitVec 20) (v : Word) : decode ⟨true, a, v⟩ = decodeWrite (a.extractLsb' 2 18) v := rfl

/-- A write below the windows reaches the register at its word-aligned offset `k`. -/
theorem decode_register (a : BitVec 20) (v : Word) (k : Nat)
    (h : 4 * (a.extractLsb' 2 18).toNat = k ∧ (a.extractLsb' 2 18).toNat / 0x10000 ≠ 1 ∧
      (a.extractLsb' 2 18).toNat / 16 ≠ 4) :
    decode ⟨true, a, v⟩ = decodeRegWrite k v := by
  obtain ⟨rfl, h1, h2⟩ := h
  simp only [decode_write, decodeWrite, h1, h2, if_false]

theorem toNat_append_add {m n : Nat} (x : BitVec m) (y : BitVec n) :
    (x ++ y).toNat = x.toNat * 2 ^ n + y.toNat := by
  rw [BitVec.toNat_append, ← Nat.shiftLeft_add_eq_or_of_lt y.isLt, Nat.shiftLeft_eq]

/-- The bits above the low ones. -/
theorem extractLsb'_append_left {m n : Nat} (x : BitVec m) (y : BitVec n) : (x ++ y).extractLsb' n m = x := by
  apply BitVec.eq_of_toNat_eq
  have h := y.isLt
  rw [BitVec.extractLsb'_toNat, toNat_append_add, Nat.shiftRight_eq_div_pow, Nat.add_comm,
    Nat.add_mul_div_right _ _ (by positivity), Nat.div_eq_of_lt h, Nat.zero_add, Nat.mod_eq_of_lt x.isLt]

/-- The low bits. -/
theorem extractLsb'_append_right {m n : Nat} (x : BitVec m) (y : BitVec n) : (x ++ y).extractLsb' 0 n = y := by
  apply BitVec.eq_of_toNat_eq
  rw [BitVec.extractLsb'_toNat, toNat_append_add, Nat.shiftRight_zero, Nat.mul_add_mod_self_right,
    Nat.mod_eq_of_lt y.isLt]

theorem decodeP_update (c : BitVec 4) : decodeP (pWord 0#3 c 0x01#8) = .instr (.pmUpdate c) := by
  revert c; decide +kernel

theorem decodeP_select (c : BitVec 4) (k : BitVec 3) : decodeP (pWord k c 0x02#8) = .instr (.pmSelect c k) := by
  revert c k; decide +kernel

theorem decodeP_next (c : BitVec 4) : decodeP (pWord 0#3 c 0x03#8) = .instr (.pmNext c) := by
  revert c; decide +kernel

theorem decodeP_prev (c : BitVec 4) : decodeP (pWord 0#3 c 0x04#8) = .instr (.pmPrev c) := by
  revert c; decide +kernel

theorem ledNop : Statement .ledNop := (decode_register _ _ 0x050 (by decide)).trans rfl

theorem ledClear : Statement .ledClear := (decode_register _ _ 0x050 (by decide)).trans rfl

theorem ledFill : Statement .ledFill := (decode_register _ _ 0x050 (by decide)).trans rfl

theorem ledPixel : Statement .ledPixel := (decode_register _ _ 0x050 (by decide)).trans rfl

theorem ledRect : Statement .ledRect := (decode_register _ _ 0x050 (by decide)).trans rfl

theorem ledFrect : Statement .ledFrect := (decode_register _ _ 0x050 (by decide)).trans rfl

theorem ledCircle : Statement .ledCircle := (decode_register _ _ 0x050 (by decide)).trans rfl

theorem ledFcircle : Statement .ledFcircle := (decode_register _ _ 0x050 (by decide)).trans rfl

theorem ledText : Statement .ledText := (decode_register _ _ 0x050 (by decide)).trans rfl

theorem ledRtext : Statement .ledRtext := (decode_register _ _ 0x050 (by decide)).trans rfl

theorem ledScroll : Statement .ledScroll := (decode_register _ _ 0x050 (by decide)).trans rfl

theorem ledRscroll : Statement .ledRscroll := (decode_register _ _ 0x050 (by decide)).trans rfl

theorem ledSstep : Statement .ledSstep := (decode_register _ _ 0x050 (by decide)).trans rfl

theorem ledSstop : Statement .ledSstop := (decode_register _ _ 0x050 (by decide)).trans rfl

theorem synNop : Statement .synNop := (decode_register _ _ 0x22C (by decide)).trans rfl

theorem synGenerate : Statement .synGenerate := (decode_register _ _ 0x22C (by decide)).trans rfl

theorem pmNop : Statement .pmNop := (decode_register _ _ 0x284 (by decide)).trans (by decide +kernel : decodeP 0x00#32 = _)

theorem pmUpdate (c : BitVec 4) : Statement (.pmUpdate c) := (decode_register _ _ 0x284 (by decide)).trans (decodeP_update c)

theorem pmSelect (c : BitVec 4) (k : BitVec 3) : Statement (.pmSelect c k) := (decode_register _ _ 0x284 (by decide)).trans (decodeP_select c k)

theorem pmNext (c : BitVec 4) : Statement (.pmNext c) := (decode_register _ _ 0x284 (by decide)).trans (decodeP_next c)

theorem pmPrev (c : BitVec 4) : Statement (.pmPrev c) := (decode_register _ _ 0x284 (by decide)).trans (decodeP_prev c)

theorem wrCtrl (v : Word) : Statement (.wrCtrl v) := (decode_register _ v 0x00004 (by decide)).trans rfl

theorem wrStatus (v : Word) : Statement (.wrStatus v) := (decode_register _ v 0x00008 (by decide)).trans rfl

theorem wrIrqPend (v : Word) : Statement (.wrIrqPend v) := (decode_register _ v 0x0000C (by decide)).trans rfl

theorem wrIrqEn (v : Word) : Statement (.wrIrqEn v) := (decode_register _ v 0x00010 (by decide)).trans rfl

theorem wrScanPeriod (v : Word) : Statement (.wrScanPeriod v) := (decode_register _ v 0x00020 (by decide)).trans rfl

theorem wrHoldUnit (v : Word) : Statement (.wrHoldUnit v) := (decode_register _ v 0x00024 (by decide)).trans rfl

theorem wrLarg0 (v : Word) : Statement (.wrLarg0 v) := (decode_register _ v 0x00040 (by decide)).trans rfl

theorem wrLarg1 (v : Word) : Statement (.wrLarg1 v) := (decode_register _ v 0x00044 (by decide)).trans rfl

theorem wrLarg2 (v : Word) : Statement (.wrLarg2 v) := (decode_register _ v 0x00048 (by decide)).trans rfl

theorem wrLcolor (v : Word) : Statement (.wrLcolor v) := (decode_register _ v 0x0004C (by decide)).trans rfl

theorem wrTextLen (v : Word) : Statement (.wrTextLen v) := (decode_register _ v 0x00054 (by decide)).trans rfl

theorem wrTextbuf (m : BitVec 4) (v : Word) : Statement (.wrTextbuf m v) := by
  have h : ∀ m : BitVec 4, ((0x0004#14 ++ m ++ 0#2 : BitVec 20).extractLsb' 2 18).toNat / 0x10000 ≠ 1 ∧
      ((0x0004#14 ++ m ++ 0#2 : BitVec 20).extractLsb' 2 18).toNat / 16 = 4 ∧
      ((0x0004#14 ++ m ++ 0#2 : BitVec 20).extractLsb' 2 18).extractLsb' 0 4 = m := by decide +kernel
  obtain ⟨h1, h2, h3⟩ := h m
  simp only [Statement, encode, decode_write, decodeWrite, h1, h2, h3, if_true, if_false]

theorem wrFreq (v : Word) : Statement (.wrFreq v) := (decode_register _ v 0x00200 (by decide)).trans rfl

theorem wrAmp (v : Word) : Statement (.wrAmp v) := (decode_register _ v 0x00204 (by decide)).trans rfl

theorem wrDecay (v : Word) : Statement (.wrDecay v) := (decode_register _ v 0x00208 (by decide)).trans rfl

theorem wrWave (v : Word) : Statement (.wrWave v) := (decode_register _ v 0x0020C (by decide)).trans rfl

theorem wrOffset (v : Word) : Statement (.wrOffset v) := (decode_register _ v 0x00210 (by decide)).trans rfl

theorem wrPdecay (v : Word) : Statement (.wrPdecay v) := (decode_register _ v 0x00214 (by decide)).trans rfl

theorem wrNmix (v : Word) : Statement (.wrNmix v) := (decode_register _ v 0x00218 (by decide)).trans rfl

theorem wrEnvc (v : Word) : Statement (.wrEnvc v) := (decode_register _ v 0x0021C (by decide)).trans rfl

theorem wrComp (v : Word) : Statement (.wrComp v) := (decode_register _ v 0x00220 (by decide)).trans rfl

theorem wrCapacity (v : Word) : Statement (.wrCapacity v) := (decode_register _ v 0x00224 (by decide)).trans rfl

theorem wrSmode (v : Word) : Statement (.wrSmode v) := (decode_register _ v 0x00228 (by decide)).trans rfl

theorem wrPmRaw (v : Word) : Statement (.wrPmRaw v) := (decode_register _ v 0x00280 (by decide)).trans rfl

theorem wrFb (j : BitVec 16) (v : Word) : Statement (.wrFb j v) := by
  have h : (0b01#2 ++ j ++ 0#2 : BitVec 20).extractLsb' 2 18 = (0b01#2 ++ j : BitVec 18) :=
    extractLsb'_append_left (0b01#2 ++ j) 0#2
  have h1 : (0b01#2 ++ j : BitVec 18).toNat / 0x10000 = 1 := by
    have := j.isLt
    rw [toNat_append_add]
    simp only [BitVec.toNat_ofNat]
    omega
  simp only [Statement, encode, decode_write, decodeWrite, h, h1, extractLsb'_append_right, if_true]

theorem rd (a : BitVec 18) : Statement (.rd a) := by
  have h : (wordOffset a).extractLsb' 2 18 = a := extractLsb'_append_left a 0#2
  simp only [Statement, encode, decode, h, Bool.false_eq_true, if_false]

end Sys2Proof.Laws.RoundTrip
end

