-- ==== Sys2Proof/Machine/Timing.lean ====
section
/-! DEFINITION. The timed reading (43_led_scan.md R378, 70_reset_and_hazards.md R490): a clock over the same steps. It
picks one interleaving of the untimed machine (I28): every move below is `runTurn`, so a cycle is a few steps of the
machine whose turns the clock chooses. Between the steps it drives one signal, PCLK, whose level within a step the
untimed machine does not show: high in the first cycle of a SHIFT, low in the second (R378). The figures are not normative
(R490); the order inside one cycle is timer, SE, LE, SY, HOST (notes 13). -/

namespace Sys2Proof.Machine

/-- The machine with the cycles that SE's and SY's last steps still take. LE's steps and HOST's accesses take one
cycle each (70_reset_and_hazards.md R490). -/
structure Timed where
  s : State
  seWait : Nat
  syWait : Nat
  deriving DecidableEq, Repr

/-- PCLK driven to a level. -/
def drivePclk (s : State) (level : Bool) : State := s.withPanel { s.panel with pclk := level }

/-- Is this the phase of a SHIFT step? -/
def isShift : Phase → Bool
  | .shift _ => true
  | .idle | .setup | .latch | .hold | .fin _ => false

/-- How long SE's next step takes (43_led_scan.md R378). -/
def seCycles (s : State) : Nat :=
  match s.scan.phase with
  | .idle => 0
  | .setup => 1
  | .shift _ => 2
  | .latch => 1
  | .hold => holdTime s
  | .fin _ => 1

/-- How long SY's next step takes (70_reset_and_hazards.md R490). With SYN_CYCLES = 0, which no rule excludes, a sample
takes one cycle like any step: `cycleSy` runs at most one step a cycle (the model's choice, notes 13). -/
def syCycles (s : State) : Nat :=
  match s.syn.job with
  | none => 0
  | some j =>
    match synAction s.cfg j with
    | .fill => (if needsPitch s.cfg j then 1 else 0) + (if needsEnvelope s.cfg j then 1 else 0)
    | .complete => 1
    | .sample => s.cfg.synCycles
    | .wait => 0

/-- How long a whole slot of plane `b` takes (43_led_scan.md R378). -/
def slotCycles (p : Params) (unit b : Nat) : Nat := 3 + 2 * p.w + unit * 2 ^ b

/-- One outcome after another. -/
def andThen {α β : Type} (r : Host.Outcome α Fault Refusal) (f : α → Host.Outcome β Fault Refusal) :
    Host.Outcome β Fault Refusal :=
  match r with
  | .next a => f a
  | .fault e => .fault e
  | .refused e => .refused e

/-- SE's part of a cycle: its next step once the last one's time is over. A SHIFT raises PCLK in its first cycle and lowers
it in its second; a HOLD of no time is followed by END in the same cycle (43_led_scan.md R378). -/
def cycleSe (t : Timed) : Host.Outcome Timed Fault Refusal :=
  if 0 < t.seWait then .next { t with s := drivePclk t.s false, seWait := t.seWait - 1 }
  else
    andThen (runTurn (.agent .se) t.s) fun s1 =>
      if t.s.scan.phase = .hold ∧ seCycles t.s = 0 then
        andThen (runTurn (.agent .se) s1) fun s2 => .next { t with s := s2, seWait := 0 }
      else .next { t with s := drivePclk s1 (isShift t.s.scan.phase), seWait := seCycles t.s - 1 }

/-- SY's part of a cycle. -/
def cycleSy (t : Timed) : Host.Outcome Timed Fault Refusal :=
  if 0 < t.syWait then .next { t with syWait := t.syWait - 1 }
  else andThen (runTurn (.agent .sy) t.s) fun s1 => .next { t with s := s1, syWait := syCycles t.s - 1 }

/-- A one-cycle move of another agent. -/
def cycleOther (a : Agent) (t : Timed) : Host.Outcome Timed Fault Refusal :=
  andThen (runTurn (.agent a) t.s) fun s1 => .next { t with s := s1 }

/-- A reset stops an engine at once, and its step's time with it (70_reset_and_hazards.md R463). -/
def dropWaits (t : Timed) : Timed :=
  { t with
    seWait := if t.s.scan.phase = .idle then 0 else t.seWait
    syWait := if sbusy t.s then t.syWait else 0 }

/-- One system clock cycle (43_led_scan.md R378, 70_reset_and_hazards.md R490). While the reset input is asserted BBX takes no
step and what its engines were at is over (R460, R463); the host's access is ignored. -/
def cycle (t : Timed) : Host.Outcome Timed Fault Refusal :=
  if t.s.env.inReset then cycleOther .host { t with seWait := 0, syWait := 0 }
  else
    andThen (cycleOther .timer t) fun t1 =>
    andThen (cycleSe t1) fun t2 =>
    andThen (cycleOther .le t2) fun t3 =>
    andThen (cycleSy t3) fun t4 =>
    andThen (cycleOther .host t4) fun t5 => .next (dropWaits t5)

end Sys2Proof.Machine
end

