-- ==== Sys2Proof/Tests/Slice0.lean ====
section
/-! SUPPORT. Tests on small states, with results taken from the spec's words, tables and vectors, and one witness for the
hypotheses of each statement. -/

namespace Sys2Proof.Tests

open Sys2Proof.Machine

-- One theorem after another: the kernel evaluates most of them.
set_option Elab.async false

/-! ## Helpers -/

/-- The state after an instruction. -/
def after (i : Instr) (s : State) : State :=
  match exec i s with
  | .next t => t
  | .fault _ => s
  | .refused _ => s

/-- The state after several instructions. -/
def afterAll (l : List Instr) (s : State) : State := l.foldl (fun u i => after i u) s

/-- The next state, if there is one. -/
def nextOf (s : State) : List State :=
  match step s with
  | .next t => [t]
  | .fault _ => []
  | .refused _ => []

/-- The points of LE's list. -/
def points (s : State) : List (Nat × Nat) := (s.led.pw.getD []).map fun q => (q.x, q.y)

/-- A small legal configuration: a panel of 2 by 4 pixels in 2 planes, 2 controls, a text buffer of 62 bytes. -/
def small : Params :=
  { Params.reference with w := 2, h := 4, depth := 2, textMax := 62, numCtl := 2, sampleRate := 8, maxSamples := 4 }

/-- The machine of the small configuration right after reset. -/
def idle : State := State.resetOf small

/-- The machine of the small configuration with the scan at the given place and phase. -/
def scanning (plane rowpair : Nat) (ph : Phase) : State :=
  { idle with
    ctl := { idle.ctl with scanEn := true }
    scan := { idle.scan with plane := BitVec.ofNat 4 plane, rowpair := BitVec.ofNat 8 rowpair, phase := ph } }

/-- HOST's turn with one access. -/
def hosting (x : Access) (s : State) : State :=
  s.withEnv { s.env with turns := [.agent .host], bus := [x] }

/-- LE with two pixels to write. -/
def drawing : State :=
  idle.withLed { idle.led with pw := some [⟨1, 3, 0x0000FF#24⟩, ⟨0, 0, 0x00FF00#24⟩] }

/-- SY right after an accepted GENERATE. -/
def rendering : State := after .synGenerate idle

/-- A machine whose configuration check fails: an odd number of rows. -/
def broken : State := State.resetOf { small with h := 3 }

/-- All six sticky flags set. -/
def flagged : State := idle.withCtl { idle.ctl with sticky := 0x3F#6 }

/-! ## WellFormed: each check refuses its ill-formed terms (30_encoding.md R170) -/

theorem test_wf_update : (Instr.pmUpdate 1#4).wf Params.reference = false ∧ (Instr.pmUpdate 0#4).wf Params.reference = true := by
  decide
theorem test_wf_select : (Instr.pmSelect 1#4 0#3).wf Params.reference = false ∧ (Instr.pmSelect 1#4 7#3).wf small = true := by
  decide
theorem test_wf_next : (Instr.pmNext 4#4).wf small = false ∧ (Instr.pmNext 1#4).wf small = true := by decide
theorem test_wf_prev : (Instr.pmPrev 15#4).wf small = false ∧ (Instr.pmPrev 0#4).wf small = true := by decide

/-! ## Decode: words written out from 30_encoding.md R165 to R168 and 10_state.md R42 -/

/-- R165: OP in [7:0], all other bits 0, at offset 0x050. -/
theorem test_decode_led :
    ∀ q ∈ [(0x00, Instr.ledNop), (0x01, .ledClear), (0x02, .ledFill), (0x03, .ledPixel), (0x04, .ledRect),
      (0x05, .ledFrect), (0x06, .ledCircle), (0x07, .ledFcircle), (0x08, .ledText), (0x09, .ledRtext),
      (0x0A, .ledScroll), (0x0B, .ledRscroll), (0x0C, .ledSstep), (0x0D, .ledSstop)],
      decode ⟨true, 0x050#20, BitVec.ofNat 32 q.1⟩ = .instr q.2 := by decide

/-- R166, at offset 0x22C. -/
theorem test_decode_syn :
    decode ⟨true, 0x22C#20, 0x00000000#32⟩ = .instr .synNop ∧
    decode ⟨true, 0x22C#20, 0x00000001#32⟩ = .instr .synGenerate := by decide

/-- R163 and R167, at offset 0x284: bits 17+3+4+8 from the top, as 0b RSV PIDX CTL OP. -/
theorem test_decode_pm :
    decode ⟨true, 0x284#20, 0b00000000000000000_000_0000_00000000#32⟩ = .instr .pmNop ∧
    decode ⟨true, 0x284#20, 0b00000000000000000_000_0011_00000001#32⟩ = .instr (.pmUpdate 3#4) ∧
    decode ⟨true, 0x284#20, 0b00000000000000000_101_0010_00000010#32⟩ = .instr (.pmSelect 2#4 5#3) ∧
    decode ⟨true, 0x284#20, 0b00000000000000000_000_0001_00000011#32⟩ = .instr (.pmNext 1#4) ∧
    decode ⟨true, 0x284#20, 0b00000000000000000_000_0000_00000100#32⟩ = .instr (.pmPrev 0#4) := by decide

/-- The control, scan, operand and text registers of 10_state.md R42. -/
theorem test_decode_control_registers :
    ∀ q ∈ [(0x004, Instr.wrCtrl 7#32), (0x008, .wrStatus 7#32), (0x00C, .wrIrqPend 7#32), (0x010, .wrIrqEn 7#32),
      (0x020, .wrScanPeriod 7#32), (0x024, .wrHoldUnit 7#32), (0x040, .wrLarg0 7#32), (0x044, .wrLarg1 7#32),
      (0x048, .wrLarg2 7#32), (0x04C, .wrLcolor 7#32), (0x054, .wrTextLen 7#32), (0x100, .wrTextbuf 0#4 7#32),
      (0x13C, .wrTextbuf 15#4 7#32)],
      decode ⟨true, BitVec.ofNat 20 q.1, 7#32⟩ = .instr q.2 := by decide

/-- The synthesizer and mapper registers of 10_state.md R42. -/
theorem test_decode_synth_registers :
    ∀ q ∈ [(0x200, Instr.wrFreq 7#32), (0x204, .wrAmp 7#32), (0x208, .wrDecay 7#32), (0x20C, .wrWave 7#32),
      (0x210, .wrOffset 7#32), (0x214, .wrPdecay 7#32), (0x218, .wrNmix 7#32), (0x21C, .wrEnvc 7#32),
      (0x220, .wrComp 7#32), (0x224, .wrCapacity 7#32), (0x228, .wrSmode 7#32), (0x280, .wrPmRaw 7#32)],
      decode ⟨true, BitVec.ofNat 20 q.1, 7#32⟩ = .instr q.2 := by decide

/-- The FB window and a read (20_memory.md R125, R126, 44_control.md R413). -/
theorem test_decode_windows :
    decode ⟨true, 0x40000#20, 9#32⟩ = .instr (.wrFb 0#16 9#32) ∧
    decode ⟨true, 0x7FFFC#20, 9#32⟩ = .instr (.wrFb 0xFFFF#16 9#32) ∧
    decode ⟨false, 0x00000#20, 9#32⟩ = .instr (.rd 0#18) ∧
    decode ⟨false, 0xFFFFF#20, 9#32⟩ = .instr (.rd 0x3FFFF#18) := by decide

/-- Reserved words (V-ENC-3 to V-ENC-17) and writes that no register takes (R128, V-REG-32, V-MEM-6). -/
theorem test_decode_reserved :
    ([0x0E#32, 0x101#32, 0xFF#32].all fun v => decode ⟨true, 0x050#20, v⟩ = .reservedL) ∧
    ([0x02#32, 0x80000001#32].all fun v => decode ⟨true, 0x22C#20, v⟩ = .reservedS) ∧
    ([0x1001#32, 0x100#32, 0x8001#32, 0x05#32].all fun v => decode ⟨true, 0x284#20, v⟩ = .reservedP) ∧
    ([0x000#20, 0x030#20, 0x058#20, 0x230#20, 0x288#20, 0x300#20, 0x400#20, 0x80000#20, 0xC0000#20].all fun a =>
      decode ⟨true, a, 0#32⟩ = .ignored) := by decide

/-- A table row's bits give its instruction, and the next step runs it as the first one after reset. -/
theorem test_table_words :
    decodeTableWord 32 0x03 = some .ledPixel ∧ decodeTableWord 32 0x1102 = some (.pmSelect 1#4 1#3) ∧
    decodeTableWord 20 0x0224 = some (.wrCapacity 0#32) ∧
    step (State.reset.withFetchWord 32 0x01) = exec .ledClear State.reset := by
  refine ⟨by decide +kernel, by decide +kernel, by decide +kernel, rfl⟩

/-! ## Errors, interrupts, registers: vectors of 95_test_vectors.md -/

/-- V-ENC-3, V-ENC-8, V-ENC-15: STATUS and IRQ_PEND after a reserved word. -/
theorem test_reserved_words :
    (∃ t, runAccess ⟨true, 0x050#20, 0x0E#32⟩ State.reset = .next t ∧ statusWord t = 0x00000200#32 ∧ t.ctl.irqPend = 8#4) ∧
    (∃ t, runAccess ⟨true, 0x22C#20, 0x02#32⟩ State.reset = .next t ∧ statusWord t = 0x00000800#32) ∧
    (∃ t, runAccess ⟨true, 0x284#20, 0x101#32⟩ State.reset = .next t ∧ statusWord t = 0x00001000#32) :=
  ⟨⟨_, rfl, by decide, by decide⟩, ⟨_, rfl, by decide⟩, ⟨_, rfl, by decide⟩⟩

/-- V-ENC-20: the illegal word comes first, a NOP sets nothing; V-LED-23: a busy drop. -/
theorem test_busy_words :
    (∃ t, runAccess ⟨true, 0x050#20, 0x0F#32⟩ drawing = .next t ∧ statusWord t = 0x00000201#32) ∧
    runAccess ⟨true, 0x050#20, 0x00#32⟩ drawing = .next drawing ∧
    statusWord (after .ledPixel drawing) = 0x00000101#32 ∧
    statusWord (after .synGenerate rendering) = 0x00000402#32 :=
  ⟨⟨_, rfl, by decide⟩, rfl, by decide, by decide⟩

/-- V-ENC-21 and V-RST-4: FATAL. -/
theorem test_fatal :
    statusWord broken = 8#32 ∧ broken.ctl.irqPend = 8#4 ∧ after .ledClear broken = broken ∧
    (after (.wrCtrl 1#32) broken).ctl.scanEn = true := by
  decide +kernel

/-- V-REG-4, V-REG-6, V-REG-7, V-REG-8. -/
theorem test_status_and_interrupts :
    (after (.wrStatus 0x100#32) (idle.withCtl { idle.ctl with sticky := 0x05#6 })).ctl.sticky = 0x04#6 ∧
    (after (.wrIrqPend 2#32) (idle.withCtl { idle.ctl with irqPend := 3#4 })).ctl.irqPend = 1#4 ∧
    irq (after (.wrIrqEn 2#32) (idle.withCtl { idle.ctl with irqPend := 2#4 })) = true ∧
    (after (.wrIrqEn 0xFFFFFFFF#32) idle).ctl.irqEn = 0xF#4 := by
  decide +kernel

/-- V-REG-2, V-REG-9 to V-REG-11: soft reset and the scan registers. -/
theorem test_scan_registers :
    (after (.wrCtrl 3#32) (after (.wrLarg0 5#32) idle)).led.larg0 = 0#32 ∧
    (after (.wrScanPeriod 0#32) idle).scan.period = 1#24 ∧
    (after (.wrScanPeriod 0x12345678#32) idle).scan.period = 0x345678#24 ∧
    (after (.wrHoldUnit 0x00012345#32) idle).scan.unit = 0x2345#16 := by
  decide +kernel

/-- V-REG-13 to V-REG-18: LCOLOR, LARG2, LARG0, TEXT_LEN. -/
theorem test_operand_registers :
    (after (.wrLcolor 0xFF123456#32) idle).led.lcolor = 0x123456#24 ∧
    (after (.wrLarg2 0x123#32) idle).led.larg2 = 0x23#8 ∧
    (opX (after (.wrLarg0 0xFFFF8000#32) idle).led = -32768 ∧ opY (after (.wrLarg0 0xFFFF8000#32) idle).led = -1) ∧
    ((after (.wrTextLen 200#32) State.reset).led.textLen = 64#7 ∧ (after (.wrTextLen 0x100#32) idle).led.textLen = 0#7) := by
  decide +kernel

/-- V-MEM-11: TEXT_MAX = 62 cuts a word of TEXTBUF; its bytes are little-endian (10_state.md R60). -/
theorem test_textbuf :
    readWord (after (.wrTextbuf 15#4 0x44434241#32) idle) 0x4F#18 = 0x00004241#32 ∧
    (after (.wrTextbuf 15#4 0x44434241#32) idle).led.textbuf.toList.drop 60 = [0x41#8, 0x42#8, 0#8, 0#8] := by
  decide +kernel

/-- V-REG-20 to V-REG-25: the parameter clamps. -/
theorem test_parameter_clamps :
    (after (.wrFreq 0x3F800000#32) idle).syn.par.freq = 0x41A00000#32 ∧
    (after (.wrFreq 0x7FC00000#32) idle).syn.par.freq = 0x41A00000#32 ∧
    (after (.wrAmp 0x80000000#32) idle).syn.par.amp = 0x00000000#32 ∧
    (after (.wrDecay 0x40400000#32) idle).syn.par.decay = 0x40000000#32 := by
  decide +kernel

/-- V-REG-26, V-REG-28, V-REG-30, V-REG-31. -/
theorem test_synth_registers :
    (after (.wrWave 7#32) idle).syn.par.wave = 4#3 ∧
    (after (.wrCapacity 100000#32) State.reset).syn.capacity = 16384#17 ∧
    (after (.wrSmode 3#32) idle).syn.fmt = true ∧
    (after (.wrPmRaw 0x7FC00001#32) idle).pm.raw = 0x7FC00001#32 := by
  decide +kernel

/-- V-MEM-1, V-MEM-2, V-MEM-8, V-MEM-9: the windows and the tables. -/
theorem test_windows :
    readPixel (after (.wrFb 131#16 0x000000FF#32) State.reset) 3 2 = 0x0000FF#24 ∧
    readWord (after (.wrFb 131#16 0xFF00FF00#32) State.reset) 0x10083#18 = 0x0000FF00#32 ∧
    readWord State.reset 0x140#18 = 0x3F800000#32 ∧
    readWord State.reset 0x0C4#18 = 0x40C37EF5#32 := by
  decide +kernel

/-! ## Drawing: V-LED vectors -/

/-- V-LED-3 to V-LED-6. -/
theorem test_pixel_and_rect :
    points (afterAll [.wrLarg0 0x00020003#32, .ledPixel] State.reset) = [(3, 2)] ∧
    points (afterAll [.wrLarg0 0x0005FFFF#32, .ledPixel] State.reset) = [] ∧
    points (afterAll [.wrLarg0 0x00010001#32, .wrLarg1 0x00030003#32, .ledRect] State.reset) =
      [(1, 1), (2, 1), (3, 1), (1, 3), (2, 3), (3, 3), (1, 1), (1, 2), (1, 3), (3, 1), (3, 2), (3, 3)] := by
  decide +kernel

/-- V-LED-15, V-LED-9, V-LED-13: clipped shapes. -/
theorem test_clipped_shapes :
    points (afterAll [.wrLarg0 0x003E003E#32, .wrLarg1 0x00040004#32, .ledFrect] State.reset) =
      [(62, 62), (63, 62), (62, 63), (63, 63)] ∧
    points (afterAll [.wrLarg1 0x00000002#32, .ledCircle] State.reset) =
      [(0, 2), (2, 0), (1, 2), (2, 1), (2, 1), (1, 2)] ∧
    points (afterAll [.wrLarg1 0x00000002#32, .ledFcircle] State.reset) =
      [(0, 0), (1, 0), (2, 0), (0, 1), (1, 1), (2, 1), (0, 2), (1, 2)] := by
  decide +kernel

/-- V-LED-24, V-LED-26, V-LED-29: the scroll state. `K` starts one step before the wrap: T = "A", XOFF = -4. -/
theorem test_scroll_state :
    scrollPosWord (scrollStart (after (.wrLarg0 2#32) State.reset).led) = 0x00000002#32 ∧
    (scrollAdvance Params.reference ⟨0xFFFC#16, 0#16, true, false, 0#8, 0#24⟩ [0x41#8]).xoff = 0x0040#16 ∧
    (scrollAdvance Params.reference ⟨0xFFFD#16, 0#16, true, false, 0#8, 0#24⟩ [0x41#8]).xoff = 0xFFFC#16 ∧
    scrollCtlWord (rscrollStart (after (.wrLarg2 3#32) State.reset).led) = 0x00000303#32 := by
  decide +kernel

/-- V-LED-17, V-LED-19 and V-LED-21: undefined characters and the palette. -/
theorem test_text :
    drawText Params.reference 0 0 [0x61#8, 0x62#8, 0x63#8] (fun _ => 0#24) = [] ∧
    paletteColor Params.reference 6 0 = 0xD30094#24 ∧ paletteColor Params.reference 6 1 = 0x0000FF#24 ∧
    paletteColor Params.reference 255 0 = 0x00FF00#24 := by
  decide +kernel

/-! ## Synthesizer and mapper vectors, at values where EXP32 and LN32 are not asked -/

/-- The parameters of V-SYN-1 to V-SYN-4 at a waveform and a frequency. -/
def voiceOf (wave : BitVec 3) (freq : F32) (fmt : Bool) : Job :=
  ⟨⟨freq, fOne, fTwo, wave, fPosZero, fPosZero, fPosZero, fPosZero, fPosZero⟩, 8#17, fmt, 0, fPosZero, [], []⟩

/-- V-SYN-1, V-SYN-2, V-SYN-3, V-SYN-6: the first sample. -/
theorem test_first_samples :
    (sampleWord Params.reference (voiceOf 1#3 0x44FA0000#32 false) Env.start).1 = 255#32 ∧
    (sampleWord Params.reference (voiceOf 3#3 0x447A0000#32 false) Env.start).1 = 32#32 ∧
    (sampleWord Params.reference (voiceOf 2#3 0x447A0000#32 false) Env.start).1 = 64#32 ∧
    (sampleWord Params.reference (voiceOf 0#3 0x447A0000#32 false) Env.start).1 = 218#32 := by
  decide +kernel

/-- V-SYN-16 and V-SYN-17: the compressor. -/
theorem test_compressor :
    outWord (clamp1 (compress fHalf fHalf)) false = 204#32 ∧
    compress fMinusOne fOne = 0xBF666666#32 ∧ compress fOne fHalf = fOne := by
  decide +kernel

/-- V-SYN-9 and V-SYN-23: ACTIVE_LEN. -/
theorem test_active_length :
    activeLen Params.reference 10 (decayEff Params.reference fPosZero) = 8 ∧
    activeLen Params.reference 16384 (decayEff Params.reference fHalf) = 4000 := by
  decide +kernel

/-- V-PM-1, V-ENC-11, V-ENC-18: the linear entry AMP, from a disengaged control. -/
theorem test_mapper :
    pmStateWord (afterAll [.pmSelect 0#4 1#3, .wrPmRaw 0x3F000000#32, .pmUpdate 0#4] State.reset) 0 = 0x001#32 ∧
    pmStateWord (afterAll [.pmSelect 0#4 1#3, .wrPmRaw 0x3F7851EC#32, .pmUpdate 0#4] State.reset) 0 = 0x301#32 ∧
    (afterAll [.pmSelect 0#4 1#3, .wrPmRaw 0x3F7851EC#32, .pmUpdate 0#4] State.reset).syn.par.amp = 0x3F7851EC#32 ∧
    pmStateWord (after (.pmNext 0#4) State.reset) 0 = 1#32 ∧ pmStateWord (after (.pmPrev 0#4) State.reset) 0 = 7#32 := by
  decide +kernel

/-- SINETAB's quarter points and the arithmetic of 00_scope.md R12: 0.1 + 0.2, 1/3, a tie, an underflow. -/
theorem test_arithmetic :
    fadd 0x3DCCCCCD#32 0x3E4CCCCD#32 = 0x3E99999A#32 ∧ fdiv fOne fThree = 0x3EAAAAAB#32 ∧
    fadd 0x4B800000#32 fOne = 0x4B800000#32 ∧ fmul 0x00800000#32 fHalf = 0x00400000#32 ∧
    ffrac 0x40280000#32 = 0x3F200000#32 := by
  decide +kernel

/-! ## The scan: 43_led_scan.md on a panel of 2 by 4 pixels -/

/-- FB[0][1] is red 255: slot (1, 0) shifts it out and holds for 2 * 16 cycles. -/
theorem test_slot_events :
    slotEvents small (fun x y => if x = 1 ∧ y = 0 then 0x0000FF#24 else 0#24) 16 1 0 =
      [.oeOff, .addr 0, .shift 0 false false false false false false, .shift 1 true false false false false false,
        .latch, .oeOn 32, .oeOff] := by
  decide +kernel

/-- R376: red 0x80 in the lower half is lit (0x80 >> 6) * 16 = 32 cycles in a frame of 2 planes. -/
theorem test_lit_time :
    litTime small 1 3 .red (frameEvents small (fun x y => if x = 1 ∧ y = 3 then 0x000080#24 else 0#24) 16)
      ⟨0, [], 0, []⟩ = 32 := by
  decide +kernel

/-- R378: a slot of plane b takes 3 + 2W + UNIT * 2^b cycles; with the defaults 147 in plane 0. -/
theorem test_slot_cycles : slotCycles Params.reference 16 0 = 147 := by decide

/-- R378: PCLK is high for the first cycle of a SHIFT and low for the second. -/
theorem test_pclk :
    let t0 : Timed := ⟨scanning 0 0 (.shift 0), 0, 0⟩
    (∃ t1 t2, cycle t0 = .next t1 ∧ cycle t1 = .next t2 ∧ t1.s.panel.pclk = true ∧ t2.s.panel.pclk = false ∧
      t1.s.scan.phase = .shift 1 ∧ t2.s.scan.phase = .shift 1) :=
  ⟨_, _, rfl, rfl, by decide +kernel, by decide +kernel, by decide +kernel, by decide +kernel⟩

/-- R9 (ii): a raw -0 of EXP32 comes out as +0. -/
theorem test_exp_range : (List.range 4).map (hull (fun _ => 0x80000000#32) 2 fPosZero fOne 0) = List.replicate 4 fPosZero := by
  decide +kernel

/-! ## Witnesses: the hypotheses of each statement are met -/

theorem witness_DecodeEncodeRoundTrip : decode (encode (.pmSelect 3#4 7#3)) = .instr (.pmSelect 3#4 7#3) := by decide

theorem witness_EncodeDecodeCanonical :
    decode ⟨true, 0x7FFFF#20, 5#32⟩ = .instr (.wrFb 0xFFFF#16 5#32) ∧ decode ⟨false, 0x00003#20, 5#32⟩ = .instr (.rd 0#18) := by
  decide

/-- The least reserved values of each clause: OP, RSV, CTL, PIDX, NOP with CTL. -/
theorem witness_ReservedWordsAreDropped :
    idle.ctl.fatal = false ∧ 1 ≤ idle.cfg.numCtl ∧
    (0x0E ≤ (0x0E#32).toNat % 256 ∧ (0x100#32).toNat / 256 ≠ 0) ∧ 0x02 ≤ (0x02#32).toNat % 256 ∧
    (0x05 ≤ (0x05#32).toNat % 256 ∧ (0x8000#32).toNat / 32768 ≠ 0 ∧ idle.cfg.numCtl ≤ (0x200#32).toNat / 256 % 16 ∧
      (0x1001#32).toNat / 4096 % 8 ≠ 0 ∧ (0x1001#32).toNat % 256 ≠ 2 ∧ (0x100#32).toNat % 256 = 0) := by
  decide +kernel

theorem witness_StepRunsTheDecodedInstruction :
    HostDoes (hosting ⟨true, 0x050#20, 1#32⟩ idle) ⟨true, 0x050#20, 1#32⟩ ∧
      decode ⟨true, 0x050#20, 1#32⟩ = .instr .ledClear := by
  refine ⟨⟨rfl, rfl, rfl⟩, by decide⟩

theorem witness_FatalStopsCommandsAndEngines : broken.ctl.fatal = true := by decide +kernel

theorem witness_BusyCommandsAreDropped :
    drawing.ctl.fatal = false ∧ lbusy drawing = true ∧ rendering.ctl.fatal = false ∧ sbusy rendering = true := by
  decide +kernel

/-- The timer's turn in a slot, in the cycle in which TCNT wraps. -/
def overrunning : State :=
  let s := (scanning 0 0 .latch).withScan { (scanning 0 0 .latch).scan with tcnt := 2047#24 }
  s.withEnv { s.env with turns := [.agent .timer] }

/-- Each flag is set by a step, SCAN_OVR by a tick in a slot, and all are cleared by a STATUS write and by a reset. -/
theorem witness_StickyFlagsChangeOnlyByTheirEvents :
    (∀ q ∈ [(0, hosting ⟨true, 0x050#20, 0x03#32⟩ drawing), (1, hosting ⟨true, 0x050#20, 0x0E#32⟩ idle),
        (2, hosting ⟨true, 0x22C#20, 0x01#32⟩ rendering), (3, hosting ⟨true, 0x22C#20, 0x02#32⟩ idle),
        (4, hosting ⟨true, 0x284#20, 0x05#32⟩ idle), (5, overrunning)],
      q.2.ctl.sticky.getLsbD q.1 = false ∧ ∃ t ∈ nextOf q.2, t.ctl.sticky.getLsbD q.1 = true) ∧
    (∀ s ∈ [hosting ⟨true, 0x008#20, 0x3F00#32⟩ flagged, hosting ⟨true, 0x004#20, 2#32⟩ flagged,
        flagged.withEnv { flagged.env with turns := [.releaseReset], inReset := true }],
      s.ctl.sticky = 0x3F#6 ∧ ∃ t ∈ nextOf s, t.ctl.sticky = 0#6) := by
  decide +kernel

/-- The hypotheses of the statements about an accepted drawing command: ClearAndFillListThePanel,
PixelAndRectanglesListTheirPoints, CircleListsItsOutline, FilledCircleFillsItsRows, TextListsItsGlyphs, ScrollStarts. -/
theorem witness_accepted_drawing : idle.ctl.fatal = false ∧ lbusy idle = false ∧ 7 < idle.cfg.w * idle.cfg.h := by
  decide +kernel

theorem witness_CircleOutlineIsRound : (0 : Int) ≤ 2 ∧ ((1 : Int), (2 : Int)) ∈ outline 0 0 2 := by decide +kernel

theorem witness_CircleOutlineMeetsEveryRow : (0 : Int) - 2 ≤ -2 ∧ (-2 : Int) ≤ 0 + 2 := by decide

/-- An active scroll at its last place on the panel and one step on, and no active scroll. -/
theorem witness_ScrollStepsAndStops :
    configCheck idle.cfg = true ∧ idle.ctl.fatal = false ∧ lbusy idle = false ∧ idle.led.scroll.active = false ∧
    (idle.withLed { idle.led with scroll := ⟨0#16, 0#16, true, false, 0#8, 0#24⟩ }).led.scroll.active = true := by
  decide +kernel

theorem witness_LeStepWritesOnePixel :
    (∃ q l, drawing.led.pw = some (q :: l)) ∧ (after .ledSstop idle).led.pw = some [] ∧ idle.led.pw = none ∧
      drawing.ctl.fatal = false :=
  ⟨⟨_, _, rfl⟩, by decide +kernel, by decide, by decide +kernel⟩

theorem witness_LePerformsItsList :
    configCheck drawing.cfg = true ∧ drawing.ctl.fatal = false ∧ ∃ l, drawing.led.pw = some l ∧ ListOnPanel drawing.cfg l :=
  ⟨by decide +kernel, by decide +kernel, _, rfl, by unfold ListOnPanel; decide +kernel⟩

/-- Both phases from which a frame starts; FrameEmitsItsEvents and FrameLightsEachChannelByItsValue have the same
hypotheses. -/
theorem witness_ClearThenRefreshIsDark :
    ∀ s ∈ [scanning 0 0 .idle, scanning 0 0 .setup], configCheck s.cfg = true ∧ s.ctl.fatal = false ∧
      lbusy s = false ∧ s.ctl.scanEn = true ∧ (s.scan.phase = .idle ∨ s.scan.phase = .setup) ∧ slotIndex s = 0 := by
  decide +kernel

/-- The last pixel and the first place past it; the last sample and the first place past it. -/
theorem witness_WindowsReadAndWrite :
    (7#16).toNat < idle.cfg.w * idle.cfg.h ∧ idle.cfg.w * idle.cfg.h ≤ (8#16).toNat ∧ (3#16).toNat < idle.cfg.maxSamples ∧
      ¬ (4#16).toNat < idle.cfg.maxSamples := by
  decide +kernel

/-- The first and the last word of every hole of the map; a control past NUM_CTL; the bytes from TEXT_MAX on. -/
theorem witness_UnmappedOffsetsReadZero :
    (∀ a ∈ [0x30, 0x3C, 0x64, 0xFC, 0x140, 0x1FC, 0x23C, 0x27C, 0x2A8, 0x2FC, 0x800, 0x3FFFC, 0xC0000, 0xFFFFC],
      ¬(a ≤ 0x2C ∨ (0x40 ≤ a ∧ a ≤ 0x60) ∨ (0x100 ≤ a ∧ a ≤ 0x13C) ∨ (0x200 ≤ a ∧ a ≤ 0x238) ∨
        (0x280 ≤ a ∧ a ≤ 0x2A4) ∨ (0x300 ≤ a ∧ a ≤ 0x7FC) ∨ (0x40000 ≤ a ∧ a ≤ 0xBFFFC)) ∧ a % 4 = 0) ∧
    (idle.cfg.numCtl ≤ 2 ∧ (4 * (0xA4#18).toNat = 0x288 + 4 * 2 ∧ 4 * (0xA9#18).toNat = 0x298 + 4 * 3)) ∧
    (idle.cfg.textMax ≤ 4 * 15 + 2 ∧ 4 * (0x4F#18).toNat = 0x100 + 4 * 15) := by
  decide +kernel

/-- A legal machine; the last control and the last text byte; the first and last word of every read-only range. -/
theorem witness_RegistersReadTheirFields :
    configCheck idle.cfg = true ∧ (1 < idle.cfg.numCtl ∧ (∃ x, idle.pm.ctl.toList[1]? = some x)) ∧
    4 * 15 + 1 < idle.cfg.textMax ∧
    (∀ a ∈ [0x000, 0x02C, 0x058, 0x238, 0x288, 0x2A4, 0x300, 0x3FC, 0x400, 0x7FC, 0x80000, 0xBFFFC],
      4 * (BitVec.ofNat 18 (a / 4)).toNat = a) :=
  ⟨by decide +kernel, ⟨by decide +kernel, _, rfl⟩, by decide +kernel, by decide +kernel⟩

/-- 10_state.md R45, R53, R92 and R49: what a host reads of a busy engine and of flags, of a slot, of a moved control and of
the small configuration. -/
theorem test_reads :
    readWord (flagged.withLed drawing.led) 2#18 = 0x00003F01#32 ∧ readWord (scanning 1 1 .latch) 0x0A#18 = 0x00010101#32 ∧
    readWord (after (.pmPrev 1#4) idle) 0xA3#18 = 7#32 ∧ readWord idle 6#18 = 0x023E7512#32 := by
  decide +kernel

/-- A slot in the middle of a frame and a frame's last slot. -/
theorem witness_SlotEmitsItsEvents :
    ∀ s ∈ [scanning 0 1 .setup, scanning 1 1 .setup], configCheck s.cfg = true ∧ s.ctl.fatal = false ∧
      s.ctl.scanEn = true ∧ s.scan.phase = .setup ∧ s.scan.plane.toNat < s.cfg.depth ∧
      s.scan.rowpair.toNat < s.cfg.h / 2 := by
  decide +kernel

/-- The slot and frame of a small panel, run to their end. -/
theorem test_slot_and_frame :
    (seRun 6 (scanning 1 1 .setup)).scan.frameCount = 1#32 ∧ slotIndex (seRun 6 (scanning 0 1 .setup)) = 2 ∧
    ((scanSlot^[4]) (scanning 0 0 .idle)).scan.frameCount = 1#32 ∧
    ((scanSlot^[4]) (scanning 0 0 .idle)).env.history.head? = some .frameEnd := by
  decide +kernel

theorem witness_DisabledScanEndsDarkAtTheFirstSlot :
    let s := (scanning 1 1 (.fin 32)).withCtl idle.ctl
    s.ctl.fatal = false ∧ s.ctl.scanEn = false ∧ s.scan.phase = .fin 32 := by
  decide +kernel

/-- The last column and the last row of the small panel. -/
theorem witness_FrameLightsEachChannelByItsValue :
    (scanning 0 0 .idle).cfg.w = 1 + 1 ∧ (scanning 0 0 .idle).cfg.h = 3 + 1 := by
  decide +kernel

/-- In IDLE and in a slot: the last cycle that counts and the one that wraps; and the two ways to be disabled. -/
theorem witness_TickStartsTheSlotOrIsRecorded :
    (∀ ph ∈ [Phase.idle, .setup, .latch], ∀ c ∈ [(2046, true), (2047, false)],
      let s := (scanning 0 0 ph).withScan { (scanning 0 0 ph).scan with tcnt := BitVec.ofNat 24 c.1 }
      s.ctl.scanEn = true ∧ s.ctl.fatal = false ∧ decide (s.scan.tcnt.toNat + 1 < s.scan.period.toNat) = c.2 ∧
        decide (s.scan.period.toNat ≤ s.scan.tcnt.toNat + 1) = !c.2) ∧
    idle.ctl.scanEn = false ∧ broken.ctl.fatal = true := by
  decide +kernel

theorem witness_TimerTicksEveryPeriod :
    let s := scanning 0 0 .idle
    s.ctl.scanEn = true ∧ s.ctl.fatal = false ∧ s.scan.tcnt = 0#24 ∧ s.scan.period ≠ 0#24 ∧ s.scan.phase = .idle ∧
      2047 < s.scan.period.toNat := by
  decide +kernel

/-- R379: the agents in turn are a fair run with the scan enabled, in which frames keep completing. -/
theorem witness_frames_complete : ∃ m, 5 ≤ m ∧
    (roundRobin (scanning 0 0 .idle) (m + 1)).scan.frameCount =
      (roundRobin (scanning 0 0 .idle) m).scan.frameCount + 1#32 :=
  (roundRobin_scanRun (s := scanning 0 0 .idle) ⟨by decide +kernel, by decide +kernel, by decide +kernel,
    by decide +kernel, fun c h => by cases h⟩ rfl rfl).frames_complete 5

/-- A write that starts the scan, one that leaves it on, one that stops it outside and one inside a slot. -/
theorem witness_CtrlWriteStartsAndStopsTheScan :
    (1#32).getLsbD 1 = false ∧ (0#32).getLsbD 1 = false ∧ idle.ctl.scanEn = false ∧ (1#32).getLsbD 0 = true ∧
    (scanning 0 0 .idle).ctl.scanEn = (1#32).getLsbD 0 ∧ (0#32).getLsbD 0 = false ∧
    (scanning 0 0 .setup).scan.phase = .setup ∧ (scanning 0 0 .latch).ctl.scanEn = true ∧
    (scanning 0 0 .latch).scan.phase = .latch := by
  decide +kernel

theorem witness_TextRegistersStore : configCheck idle.cfg = true ∧ 61 < idle.cfg.textMax ∧ ¬ 62 < idle.cfg.textMax := by
  decide +kernel

/-- A NaN, a value at each end of the range, a zero and a value past each end. -/
theorem witness_ParameterRegistersClamp :
    fIsNaN 0x7FC00000#32 = true ∧
    (fle (paramMin .freq) 0x41A00000#32 = true ∧ fle 0x460CA000#32 (paramMax .freq) = true ∧ fIsZero 0x41A00000#32 = false) ∧
    fIsZero 0x80000000#32 = true ∧ flt (paramMax .freq) 0x7F800000#32 = true ∧
    flt 0x419FFFFF#32 (paramMin .freq) = true := by
  decide +kernel

theorem witness_SynthAndMapperRegistersStore : configCheck idle.cfg = true ∧ (5#32).toNat > idle.cfg.maxSamples := by
  decide +kernel

/-- Each group of instructions of the frame statement has one that gives a next state. -/
theorem witness_InstructionFrames :
    (∃ t, exec (.wrFb 7#16 5#32) idle = .next t) ∧ (∃ t, exec (.rd 0#18) idle = .next t) ∧
    (∃ t, exec (.wrCtrl 1#32) idle = .next t) ∧
    ((∃ t, exec .ledSstop idle = .next t) ∧ (encode .ledSstop).we = true ∧ (encode .ledSstop).addr = 0x00050#20) ∧
    ((∃ t, exec .synNop idle = .next t) ∧ (encode .synNop).we = true ∧ (encode .synNop).addr = 0x0022C#20) ∧
    ((∃ t, exec (.pmNext 1#4) idle = .next t) ∧ (encode (.pmNext 1#4)).we = true ∧
      (encode (.pmNext 1#4)).addr = 0x00284#20) :=
  ⟨⟨_, rfl⟩, ⟨_, rfl⟩, ⟨_, rfl⟩, ⟨⟨_, rfl⟩, rfl, rfl⟩, ⟨⟨_, rfl⟩, rfl, rfl⟩, ⟨⟨_, rfl⟩, rfl, rfl⟩⟩

theorem witness_GenerateIsAccepted : idle.ctl.fatal = false ∧ sbusy idle = false := by decide +kernel

/-- The longest DECAY. -/
theorem witness_ActiveLengthIsBounded :
    configCheck small = true ∧ fle small.decayEps fTwo = true ∧
      clampP fTwo (paramMin .decay) (paramMax .decay) = fTwo := by
  decide +kernel

theorem witness_GenerateWritesItsSamples :
    configCheck idle.cfg = true ∧ idle.ctl.fatal = false ∧ sbusy idle = false ∧
      idle.syn.capacity.toNat ≤ idle.cfg.maxSamples := by
  decide +kernel

/-- A GENERATE of four samples with DECAY = 0.001 (no active sample): four silence words in 5 steps. -/
theorem test_generate_silence :
    let s := afterAll [.wrDecay 0#32, .synGenerate] idle
    (readSram (syRun 5 s) 0 = 128#32 ∧ readSram (syRun 5 s) 3 = 128#32) ∧ (syRun 5 s).syn.written = 4#17 ∧
      (syRun 5 s).ctl.irqPend = 4#4 ∧ sbusy (syRun 5 s) = false := by
  decide +kernel

/-- Both output formats. -/
theorem witness_SamplesStayInRange : (voiceOf 0#3 fOne false).fmt = false ∧ (voiceOf 0#3 fOne true).fmt = true := by decide

/-- The last active index, with empty caches and with the caches full, and the first index of the tail. -/
theorem witness_SampleWordFollowsThePipeline :
    let j := { voiceOf 4#3 fOne false with i := 7, par := { (voiceOf 4#3 fOne false).par with decay := fOne } }
    let n := min j.cap.toNat (ftrunc (fmul j.par.decay (fofNat small.sampleRate))).toNat
    j.par.wave.toNat ≤ 4 ∧ j.i < n ∧ flt j.par.decay small.decayEps = false ∧ j.pcache[j.i]? = none ∧
      j.ecache[j.i]? = none ∧ n ≤ 8 := by
  decide +kernel

/-- The ends of the range, given by the oracle. -/
theorem witness_NoiseStaysInRange :
    let e : Env := { Env.start with noise := [fMinusOne, fOne] }
    e.noise = fMinusOne :: [fOne] ∧ fle fMinusOne fMinusOne = true ∧ fle fMinusOne fOne = true ∧ fle fOne fOne = true := by
  decide +kernel

theorem witness_EnvelopeNeverRises :
    configCheck small = true ∧ fle fPosZero WaveParams.reset.envc = true ∧
      fFinite (fmul (fdiv WaveParams.reset.envc (decayEff small WaveParams.reset.decay)) (sampleTime small 3)) = true := by
  decide +kernel

/-- The ends of the ranges that the properties speak of. -/
theorem witness_ExpKeepsItsProperties :
    ([0xFF7FFFFF#32, fMinusOne, 0x80000000#32].all fun x => fFinite x && fle x fPosZero) ∧
    ([fPosZero, fEight].all fun x => fFinite x && fle fPosZero x && fle x fEight) ∧
    (fFinite fOne = true ∧ fFinite fTwo = true ∧ fle fOne fTwo = true) := by
  decide +kernel

theorem witness_LnKeepsItsProperties : [fOne, 0x7F7FFFFF#32].all fun x => fFinite x && fle fOne x := by
  decide +kernel

theorem witness_FractionIsExact :
    [fPosZero, 0x00000001#32, 0x40280000#32, 0x7F7FFFFF#32].all fun a => fFinite a && !fsign a := by
  decide +kernel

theorem witness_WaveformsStayInRange :
    [fPosZero, fHalf, 0x3F7FFFFF#32].all fun p => fFinite p && fle fPosZero p && flt p fOne := by
  decide +kernel

/-- The hypotheses of UpdateEngagesThenCommits and SelectNextPrevMoveTheIndex. -/
theorem witness_mapper_commands : configCheck idle.cfg = true ∧ idle.ctl.fatal = false ∧ (1#4).toNat < idle.cfg.numCtl := by
  decide +kernel

theorem witness_SoftResetKeepsTheMemories : (2#32).getLsbD 1 = true := by decide

/-- The reset asserted, a turn while it is asserted, and its release. -/
theorem witness_HardResetRestartsTheMachine :
    nextTurn (idle.withEnv { idle.env with turns := [.assertReset] }) = .assertReset ∧
    nextTurn (idle.withEnv { idle.env with turns := [.agent .le], inReset := true }) = .agent .le ∧
    EndsReset (idle.withEnv { idle.env with turns := [.releaseReset], inReset := true }) :=
  ⟨rfl, rfl, rfl, rfl⟩

/-- A machine in which the invariant holds and that can take a step of HOST, for EveryStepKeepsTheInvariant and
OnlyTheirEnginesWriteTheMemories. -/
theorem witness_invariant :
    Inv (hosting ⟨true, 0x050#20, 1#32⟩ idle) ∧ (∃ t, step (hosting ⟨true, 0x050#20, 1#32⟩ idle) = .next t) ∧
      ¬EndsReset (hosting ⟨true, 0x050#20, 1#32⟩ idle) := by
  refine ⟨⟨by decide +kernel, by decide +kernel, ⟨⟨fun r => ?_, by decide +kernel⟩, by decide +kernel,
    by decide +kernel, by decide +kernel⟩, ⟨rfl, fun c hc => ?_⟩, ⟨by decide +kernel, by decide +kernel, fun c h => ?_,
    fun h => ?_, fun h => ?_⟩, ⟨⟨fun h => ?_, fun h => ?_⟩, rfl, rfl, by decide +kernel⟩, fun j h => ?_, fun l h => ?_⟩,
    ⟨_, rfl⟩, fun h => ?_⟩
  · cases r <;> (unfold ParamStored; decide +kernel)
  · cases hc
  · cases h
  · cases h
  · cases h
  · cases h
  · obtain ⟨_, h, _⟩ := h; cases h
  · cases h
  · cases h
  · cases h.2

end Sys2Proof.Tests
end

section
/-! SUPPORT. The bus map (20_memory.md R121 to R128): what the decoder reads from a word-aligned offset, what a read of
it gives, and the two statements about it. -/

namespace Sys2Proof.Proofs.BusMap

open Sys2Proof Sys2Proof.Machine Sys2Proof.Laws.RoundTrip

/-! ## The port carries A[19:2] -/

/-- The mask of 20_memory.md R123 clears only bits that the port does not carry. -/
theorem wordIndex_clearLowBits (a : BitVec 20) : (a &&& 0xFFFFC#20).extractLsb' 2 18 = a.extractLsb' 2 18 := by
  have ones : (0xFFFFC#20).extractLsb' 2 18 = BitVec.allOnes 18 := by decide
  rw [BitVec.extractLsb'_and, ones, BitVec.and_allOnes]

theorem decode_clearLowBits (we : Bool) (a : BitVec 20) (v : Word) :
    decode ⟨we, a &&& 0xFFFFC#20, v⟩ = decode ⟨we, a, v⟩ := by
  simp only [decode, wordIndex_clearLowBits]

theorem decode_write_wordOffset (n : BitVec 18) (v : Word) : decode ⟨true, wordOffset n, v⟩ = decodeWrite n v := by
  rw [decode_write, wordOffset, extractLsb'_append_left]

/-- An access does what its decoding says, and nothing else of it counts. -/
theorem runAccess_congr {x y : Access} (h : decode x = decode y) (s : State) : runAccess x s = runAccess y s := by
  simp only [runAccess, h]

theorem runAccess_of_ignored {x : Access} (h : decode x = .ignored) (s : State) : runAccess x s = .next s := by
  simp only [runAccess, h]

theorem runAccess_of_instr {x : Access} {i : Instr} (h : decode x = .instr i) (s : State) :
    runAccess x s = exec i s := by
  simp only [runAccess, h]

/-- Settles O25: both accesses decode alike, and every access goes on. -/
theorem alignmentIsIgnored : Obligations.AlignmentIsIgnored := fun s we a v =>
  ⟨runAccess_congr (decode_clearLowBits we a v).symm s, runAccess_next ⟨we, a, v⟩ s⟩

/-! ## Offsets outside TEXTBUF, the tables and the windows -/

/-- TEXTBUF, PMTAB with SINETAB, and the FB window with the SRAM window (20_memory.md R125). -/
def InWindow (a : Nat) : Prop :=
  (0x100 ≤ a ∧ a ≤ 0x13C) ∨ (0x300 ≤ a ∧ a ≤ 0x7FC) ∨ (0x40000 ≤ a ∧ a ≤ 0xBFFFC)

/-- The four groups of single registers (20_memory.md R125): control, LED, synth and mapper. -/
def InRegisterGroup (a : Nat) : Prop :=
  a ≤ 0x2C ∨ (0x40 ≤ a ∧ a ≤ 0x60) ∨ (0x200 ≤ a ∧ a ≤ 0x238) ∨ (0x280 ≤ a ∧ a ≤ 0x2A4)

/-- The parts of the four groups up to their last writable registers: HOLD_UNIT, TEXT_LEN, SCMD and PCMD
(10_state.md R42). -/
def InWritablePart (a : Nat) : Prop :=
  a ≤ 0x24 ∨ (0x40 ≤ a ∧ a ≤ 0x54) ∨ (0x200 ≤ a ∧ a ≤ 0x22C) ∨ (0x280 ≤ a ∧ a ≤ 0x284)

theorem readWord_of_not_inWindow (s : State) {n : BitVec 18} (h : ¬InWindow (4 * n.toNat)) :
    readWord s n = readRegister s (4 * n.toNat) := by
  unfold InWindow at h
  have sram : n.toNat / 0x10000 ≠ 2 := by omega
  have fb : n.toNat / 0x10000 ≠ 1 := by omega
  have sine : n.toNat / 0x100 ≠ 1 := by omega
  have pm : n.toNat / 0x40 ≠ 3 := by omega
  have text : n.toNat / 16 ≠ 4 := by omega
  simp only [readWord, sram, fb, sine, pm, text, if_false]

theorem decodeWrite_of_not_inWindow {n : BitVec 18} (v : Word) (h : ¬InWindow (4 * n.toNat)) :
    decodeWrite n v = decodeRegWrite (4 * n.toNat) v := by
  unfold InWindow at h
  have fb : n.toNat / 0x10000 ≠ 1 := by omega
  have text : n.toNat / 16 ≠ 4 := by omega
  simp only [decodeWrite, fb, text, if_false]

theorem readRegister_of_not_inRegisterGroup (s : State) {a : Nat} (h : ¬InRegisterGroup a) :
    readRegister s a = 0#32 := by
  unfold InRegisterGroup at h
  unfold readRegister
  split
  case h_44 => rfl -- the offsets that the map does not list
  all_goals omega

theorem decodeRegWrite_of_not_inWritablePart {a : Nat} (v : Word) (h : ¬InWritablePart a) :
    decodeRegWrite a v = .ignored := by
  unfold InWritablePart at h
  unfold decodeRegWrite
  split
  case h_27 => rfl -- the offsets that take no write
  all_goals omega

/-- A write where no writable register and no window stands is ignored, with no flag (20_memory.md R128,
44_control.md R413). -/
theorem runAccess_write_ignored (s : State) {n : BitVec 18} (v : Word) (hw : ¬InWindow (4 * n.toNat))
    (h : ¬InWritablePart (4 * n.toNat)) : runAccess ⟨true, wordOffset n, v⟩ s = .next s := by
  apply runAccess_of_ignored
  rw [decode_write_wordOffset, decodeWrite_of_not_inWindow v hw, decodeRegWrite_of_not_inWritablePart v h]

/-! ## The mapper words -/

theorem readRegister_pmState (s : State) {c : Nat} (hc : c < 4) : readRegister s (0x288 + 4 * c) = pmStateWord s c := by
  interval_cases c <;> rfl

theorem readRegister_pmLast (s : State) {c : Nat} (hc : c < 4) : readRegister s (0x298 + 4 * c) = pmLastWord s c := by
  interval_cases c <;> rfl

theorem pmStateWord_of_illegal {s : State} {c : Nat} (h : s.cfg.numCtl ≤ c) : pmStateWord s c = 0#32 := by
  simp only [pmStateWord, Nat.not_lt.mpr h, if_false]

theorem pmLastWord_of_illegal {s : State} {c : Nat} (h : s.cfg.numCtl ≤ c) : pmLastWord s c = 0#32 := by
  simp only [pmLastWord, Nat.not_lt.mpr h, if_false]

/-! ## TEXTBUF -/

theorem readWord_textbuf (s : State) {n : BitVec 18} {m : Nat} (hm : m < 16) (ha : 4 * n.toNat = 0x100 + 4 * m) :
    readWord s n = textWord s m := by
  obtain rfl : m = n.toNat % 16 := by omega
  have sram : n.toNat / 0x10000 ≠ 2 := by omega
  have fb : n.toNat / 0x10000 ≠ 1 := by omega
  have sine : n.toNat / 0x100 ≠ 1 := by omega
  have pm : n.toNat / 0x40 ≠ 3 := by omega
  have text : n.toNat / 16 = 4 := by omega
  simp only [readWord, sram, fb, sine, pm, text, if_false, if_true]

theorem decodeWrite_textbuf {n : BitVec 18} {m : Nat} (v : Word) (hm : m < 16) (ha : 4 * n.toNat = 0x100 + 4 * m) :
    decodeWrite n v = .instr (.wrTextbuf (n.extractLsb' 0 4) v) := by
  have fb : n.toNat / 0x10000 ≠ 1 := by omega
  have text : n.toNat / 16 = 4 := by omega
  simp only [decodeWrite, fb, text, if_false, if_true]

/-- Byte `j` of a TEXTBUF word is the text byte at its place (10_state.md R60). -/
theorem textWord_byte (s : State) (m : Nat) {j : Nat} (hj : j < 4) :
    (textWord s m).extractLsb' (8 * j) 8 = textByte s (4 * m + j) := by
  have b0 := (textByte s (4 * m)).isLt
  have b1 := (textByte s (4 * m + 1)).isLt
  have b2 := (textByte s (4 * m + 2)).isLt
  have b3 := (textByte s (4 * m + 3)).isLt
  apply BitVec.eq_of_toNat_eq
  rw [BitVec.extractLsb'_toNat, Nat.shiftRight_eq_div_pow, textWord, toNat_append_add, toNat_append_add,
    toNat_append_add]
  interval_cases j
  · rw [Nat.add_zero (4 * m)]; omega
  all_goals omega

theorem textByte_of_ge {s : State} {k : Nat} (h : s.cfg.textMax ≤ k) : textByte s k = 0#8 := by
  simp only [textByte, Nat.not_lt.mpr h, if_false]

/-- A text store changes no byte from TEXT_MAX on (10_state.md R60). -/
theorem storeTextByte_of_ge {p : Params} (t : Vector Byte 64) (k : Nat) (b : Byte) {i : Nat} (h : p.textMax ≤ i) :
    (storeTextByte p t k b).toList[i]? = t.toList[i]? := by
  unfold storeTextByte
  split_ifs with hk
  · rw [Vector.getElem?_toList, Vector.getElem?_toList, Vector.getElem?_setIfInBounds_ne (by omega)]
  · rfl

/-- A TEXTBUF write changes the text buffer alone, and no byte of it from TEXT_MAX on (44_control.md R408). -/
theorem exec_wrTextbuf_keepsTail (m : BitVec 4) (v : Word) (s : State) :
    ∃ b : Vector Byte 64, exec (.wrTextbuf m v) s = .next (s.withLed { s.led with textbuf := b }) ∧
      ∀ i, s.cfg.textMax ≤ i → b.toList[i]? = s.led.textbuf.toList[i]? := by
  refine ⟨_, rfl, fun i hi => ?_⟩
  simp only [storeTextByte_of_ge _ _ _ hi]

/-! ## The three parts of R128 -/

theorem hole_readsZero_ignoresWrites (s : State) (n : BitVec 18) (hw : ¬InWindow (4 * n.toNat))
    (hr : ¬InRegisterGroup (4 * n.toNat)) :
    readWord s n = 0#32 ∧ ∀ v, runAccess ⟨true, wordOffset n, v⟩ s = .next s := by
  have hwr : ¬InWritablePart (4 * n.toNat) := by unfold InWritablePart; unfold InRegisterGroup at hr; omega
  refine ⟨?_, fun v => runAccess_write_ignored s v hw hwr⟩
  rw [readWord_of_not_inWindow s hw, readRegister_of_not_inRegisterGroup s hr]

theorem pmWord_readsZero_ignoresWrites (s : State) (n : BitVec 18) {c : Nat} (hc : c < 4) (hn : s.cfg.numCtl ≤ c)
    (ha : 4 * n.toNat = 0x288 + 4 * c ∨ 4 * n.toNat = 0x298 + 4 * c) :
    readWord s n = 0#32 ∧ ∀ v, runAccess ⟨true, wordOffset n, v⟩ s = .next s := by
  have hw : ¬InWindow (4 * n.toNat) := by unfold InWindow; omega
  have hwr : ¬InWritablePart (4 * n.toNat) := by unfold InWritablePart; omega
  refine ⟨?_, fun v => runAccess_write_ignored s v hw hwr⟩
  rw [readWord_of_not_inWindow s hw]
  rcases ha with ha | ha
  · rw [ha, readRegister_pmState s hc, pmStateWord_of_illegal hn]
  · rw [ha, readRegister_pmLast s hc, pmLastWord_of_illegal hn]

theorem textByte_readsZero (s : State) {n : BitVec 18} {m j : Nat} (hm : m < 16) (hj : j < 4)
    (hmax : s.cfg.textMax ≤ 4 * m + j) (ha : 4 * n.toNat = 0x100 + 4 * m) :
    (readWord s n).extractLsb' (8 * j) 8 = 0#8 := by
  rw [readWord_textbuf s hm ha, textWord_byte s m hj, textByte_of_ge hmax]

theorem textByte_ignoresWrites {s t : State} {n : BitVec 18} {m i : Nat} {v : Word} (hm : m < 16)
    (hmax : s.cfg.textMax ≤ i) (ha : 4 * n.toNat = 0x100 + 4 * m)
    (ht : runAccess ⟨true, wordOffset n, v⟩ s = .next t) :
    t.led.textbuf.toList[i]? = s.led.textbuf.toList[i]? ∧ t.ctl = s.ctl := by
  obtain ⟨b, hb, hkeep⟩ := exec_wrTextbuf_keepsTail (n.extractLsb' 0 4) v s
  rw [runAccess_of_instr ((decode_write_wordOffset n v).trans (decodeWrite_textbuf v hm ha)), hb] at ht
  obtain rfl := Host.Outcome.next.inj ht
  exact ⟨hkeep i hmax, rfl⟩

/-- Settles O27: the holes of the map, the mapper words past NUM_CTL and the text bytes past TEXT_MAX, one by one. -/
theorem unmappedOffsetsReadZero : Obligations.UnmappedOffsetsReadZero := by
  intro s n
  refine ⟨fun hole => ?_, fun c hc hn ha => ?_, fun m j hm hj hmax ha => ?_⟩
  · exact hole_readsZero_ignoresWrites s n (by unfold InWindow; omega) (by unfold InRegisterGroup; omega)
  · exact pmWord_readsZero_ignoresWrites s n hc hn ha
  · exact ⟨textByte_readsZero s hm hj hmax ha, fun v t ht => textByte_ignoresWrites hm hmax ha ht⟩

end Sys2Proof.Proofs.BusMap
end

section
/-! SUPPORT. The command words (30_encoding.md R160 to R171): which words of LCMD, SCMD and PCMD are reserved, what a
reserved word and a NOP word do, and the two statements about them. -/

namespace Sys2Proof.Proofs.CommandWords

open Sys2Proof Sys2Proof.Machine Sys2Proof.Laws.RoundTrip Sys2Proof.Proofs.BusMap

/-! ## The command registers -/

theorem decode_lcmd (v : Word) : decode ⟨true, lcmdOffset, v⟩ = decodeL v :=
  (decode_register _ v 0x050 (by decide)).trans rfl

theorem decode_scmd (v : Word) : decode ⟨true, scmdOffset, v⟩ = decodeS v :=
  (decode_register _ v 0x22C (by decide)).trans rfl

theorem decode_pcmd (v : Word) : decode ⟨true, pcmdOffset, v⟩ = decodeP v :=
  (decode_register _ v 0x284 (by decide)).trans rfl

/-! ## The reserved words of formats L and S -/

theorem decodeL_of_reserved {v : Word} (h : 0x0E ≤ v.toNat % 256 ∨ v.toNat / 256 ≠ 0) : decodeL v = .reservedL := by
  unfold decodeL
  split_ifs
  · split
    case h_15 => rfl -- the opcodes that R165 does not list
    all_goals omega
  · rfl

theorem decodeS_of_reserved {v : Word} (h : 0x02 ≤ v.toNat % 256 ∨ v.toNat / 256 ≠ 0) : decodeS v = .reservedS := by
  unfold decodeS
  split_ifs
  · split
    case h_3 => rfl -- the opcodes that R166 does not list
    all_goals omega
  · rfl

/-! ## The words of format P -/

/-- A field of a word, compared as a number. -/
theorem extractLsb'_eq_iff {n : Nat} (v : Word) (k : Nat) (f : BitVec n) :
    v.extractLsb' k n = f ↔ v.toNat / 2 ^ k % 2 ^ n = f.toNat := by
  rw [← BitVec.toNat_inj, BitVec.extractLsb'_toNat, Nat.shiftRight_eq_div_pow]

theorem toNat_ctlField (v : Word) : (v.extractLsb' 8 4).toNat = v.toNat / 256 % 16 :=
  ((extractLsb'_eq_iff v 8 _).mp rfl).symm

/-- The PCMD words that no configuration makes legal (30_encoding.md R170): an opcode that R167 does not list, a nonzero
RSV, a nonzero PIDX without SELECT, a NOP with a control index. -/
theorem decodeP_of_reserved {v : Word}
    (h : 0x05 ≤ v.toNat % 256 ∨ v.toNat / 32768 ≠ 0 ∨ (v.toNat / 4096 % 8 ≠ 0 ∧ v.toNat % 256 ≠ 0x02) ∨
      (v.toNat % 256 = 0 ∧ v.toNat / 256 % 16 ≠ 0)) : decodeP v = .reservedP := by
  have hv := v.isLt
  simp only [decodeP, extractLsb'_eq_iff, BitVec.toNat_ofNat]
  split_ifs with hrsv hselect hpidx hnop hctl hupdate hnext hprev
  · omega -- SELECT with RSV = 0 is legal
  · omega -- and so is the NOP with all other fields 0
  · rfl
  · omega -- and UPDATE, NEXT and PREV with PIDX = 0
  · omega
  · omega
  all_goals rfl

/-- The instruction is a mapper command on control `c`. -/
inductive OnControl (c : BitVec 4) : Instr → Prop
  | update : OnControl c (.pmUpdate c)
  | select (k : BitVec 3) : OnControl c (.pmSelect c k)
  | next : OnControl c (.pmNext c)
  | prev : OnControl c (.pmPrev c)

/-- A PCMD word is reserved, the NOP, or a mapper command on the control that its field CTL names. -/
theorem decodeP_cases (v : Word) :
    decodeP v = .reservedP ∨ (decodeP v = .instr .pmNop ∧ v.extractLsb' 8 4 = 0#4) ∨
      ∃ i, decodeP v = .instr i ∧ OnControl (v.extractLsb' 8 4) i := by
  simp only [decodeP]
  split_ifs with hrsv hselect hpidx hnop hctl hupdate hnext hprev
  · exact .inr (.inr ⟨_, rfl, .select _⟩)
  · exact .inr (.inl ⟨rfl, hctl⟩)
  · exact .inl rfl
  · exact .inr (.inr ⟨_, rfl, .update⟩)
  · exact .inr (.inr ⟨_, rfl, .next⟩)
  · exact .inr (.inr ⟨_, rfl, .prev⟩)
  all_goals exact .inl rfl

/-- A mapper command on a control that the configuration does not have is dropped (30_encoding.md R170). -/
theorem exec_onControl_of_illegal {s : State} {c : BitVec 4} {i : Instr} (hi : OnControl c i)
    (hs : s.ctl.fatal = false) (hc : s.cfg.numCtl ≤ c.toNat) : exec i s = .next (raiseDrop s flagPill) := by
  cases hi <;> exact pmCommand_of_illegal c _ hs hc

/-! ## What a reserved word does -/

section
variable {s : State} {v : Word}

theorem runAccess_lcmd_reserved (hs : s.ctl.fatal = false) (h : decodeL v = .reservedL) :
    runAccess ⟨true, lcmdOffset, v⟩ s = .next (raiseDrop s flagLill) := by
  simp only [runAccess, decode_lcmd, h, dropIllegal_of_running _ hs]

theorem runAccess_scmd_reserved (hs : s.ctl.fatal = false) (h : decodeS v = .reservedS) :
    runAccess ⟨true, scmdOffset, v⟩ s = .next (raiseDrop s flagSill) := by
  simp only [runAccess, decode_scmd, h, dropIllegal_of_running _ hs]

theorem runAccess_pcmd_reserved (hs : s.ctl.fatal = false) (h : decodeP v = .reservedP) :
    runAccess ⟨true, pcmdOffset, v⟩ s = .next (raiseDrop s flagPill) := by
  simp only [runAccess, decode_pcmd, h, dropIllegal_of_running _ hs]

/-- A word whose control index is illegal is dropped with PILL whatever its other fields hold: as a reserved word, or by
its command. It is no NOP, because control 0 is legal. -/
theorem runAccess_pcmd_illegalControl (hs : s.ctl.fatal = false) (hn : 1 ≤ s.cfg.numCtl)
    (hc : s.cfg.numCtl ≤ v.toNat / 256 % 16) :
    runAccess ⟨true, pcmdOffset, v⟩ s = .next (raiseDrop s flagPill) := by
  rw [← toNat_ctlField] at hc
  rcases decodeP_cases v with h | ⟨-, h⟩ | ⟨i, h, hi⟩
  · exact runAccess_pcmd_reserved hs h
  · rw [h, BitVec.toNat_ofNat] at hc
    omega
  · rw [runAccess_of_instr ((decode_pcmd v).trans h), exec_onControl_of_illegal hi hs hc]

end

/-- Settles O4: the words that no configuration makes legal decode as reserved; a PCMD word with an illegal control index
is dropped by its meaning. Either way the step is `raiseDrop`, and the engine's busy bit is not asked. -/
theorem reservedWordsAreDropped : Obligations.ReservedWordsAreDropped := by
  intro s v hs hn
  refine ⟨fun h => runAccess_lcmd_reserved hs (decodeL_of_reserved h),
    fun h => runAccess_scmd_reserved hs (decodeS_of_reserved h), fun h => ?_⟩
  rcases h with op | rsv | ctl | pidx | nop
  · exact runAccess_pcmd_reserved hs (decodeP_of_reserved (.inl op))
  · exact runAccess_pcmd_reserved hs (decodeP_of_reserved (.inr (.inl rsv)))
  · exact runAccess_pcmd_illegalControl hs hn ctl
  · exact runAccess_pcmd_reserved hs (decodeP_of_reserved (.inr (.inr (.inl pidx))))
  · exact runAccess_pcmd_reserved hs (decodeP_of_reserved (.inr (.inr (.inr nop))))

/-! ## The NOP words -/

theorem exec_ledNop (s : State) : exec .ledNop s = .next s := rfl
theorem exec_synNop (s : State) : exec .synNop s = .next s := rfl
theorem exec_pmNop (s : State) : exec .pmNop s = .next s := rfl

/-- Settles O6: the three zero words are the encodings of the NOPs, and no NOP asks FATAL or a busy bit. -/
theorem nopsHaveNoEffect : Obligations.NopsHaveNoEffect := fun s =>
  ⟨⟨exec_ledNop s, exec_synNop s, exec_pmNop s⟩,
    (runAccess_of_instr ledNop s).trans (exec_ledNop s),
    (runAccess_of_instr synNop s).trans (exec_synNop s),
    (runAccess_of_instr pmNop s).trans (exec_pmNop s)⟩

end Sys2Proof.Proofs.CommandWords
end

section
/-! SUPPORT. The register stores (44_control.md R404 to R413): what a write of a register stores by its instruction and at
its offset. -/

namespace Sys2Proof.Proofs.RegisterStores

open Sys2Proof Sys2Proof.Machine Sys2Proof.Laws.RoundTrip Sys2Proof.Proofs.BusMap

/-- What an instruction does, the access that carries it does. -/
theorem exec_and_runAccess_encode {i : Instr} {s t : State} (hi : Statement i) (h : exec i s = .next t) :
    exec i s = .next t ∧ runAccess (encode i) s = .next t :=
  ⟨h, (runAccess_of_instr hi s).trans h⟩

/-- The low field of a word, as the number that a register of its width stores. -/
theorem extractLsb'_zero_eq_ofNat (v : Word) (n : Nat) : v.extractLsb' 0 n = BitVec.ofNat n v.toNat := rfl

/-! ## The drawing operands (44_control.md R406) -/

theorem exec_wrLarg0 (v : Word) (s : State) :
    exec (.wrLarg0 v) s = .next (s.withLed { s.led with larg0 := v }) := rfl

theorem exec_wrLarg1 (v : Word) (s : State) :
    exec (.wrLarg1 v) s = .next (s.withLed { s.led with larg1 := v }) := rfl

theorem exec_wrLarg2 (v : Word) (s : State) :
    exec (.wrLarg2 v) s = .next (s.withLed { s.led with larg2 := BitVec.ofNat 8 v.toNat }) := by
  rw [← extractLsb'_zero_eq_ofNat]
  rfl

theorem exec_wrLcolor (v : Word) (s : State) :
    exec (.wrLcolor v) s = .next (s.withLed { s.led with lcolor := BitVec.ofNat 24 v.toNat }) := by
  rw [← extractLsb'_zero_eq_ofNat]
  rfl

/-- Settles O37: each operand write replaces its own field of the LED state, so the list of a command in progress stays
as it is, and the access at the register's offset is the encoding of the write. -/
theorem operandRegistersStore : Obligations.OperandRegistersStore := fun s v =>
  ⟨exec_and_runAccess_encode (wrLarg0 v) (exec_wrLarg0 v s),
    exec_and_runAccess_encode (wrLarg1 v) (exec_wrLarg1 v s),
    exec_and_runAccess_encode (wrLarg2 v) (exec_wrLarg2 v s),
    exec_and_runAccess_encode (wrLcolor v) (exec_wrLcolor v s)⟩

end Sys2Proof.Proofs.RegisterStores
end

section
/-! SUPPORT. The encoder and the decoder are inverse (30_encoding.md R160 to R168, 20_memory.md R123), and a HOST step
runs the instruction that its access decodes to. -/

namespace Sys2Proof.Proofs.Encoding

open Sys2Proof Sys2Proof.Machine Sys2Proof.Laws.RoundTrip Sys2Proof.Proofs.BusMap Sys2Proof.Proofs.CommandWords

/-- Settles O1, by the round trip of each row of the opcode table. -/
theorem decodeEncodeRoundTrip : Obligations.DecodeEncodeRoundTrip := by
  intro i
  cases i with
  | ledNop => exact ledNop
  | ledClear => exact ledClear
  | ledFill => exact ledFill
  | ledPixel => exact ledPixel
  | ledRect => exact ledRect
  | ledFrect => exact ledFrect
  | ledCircle => exact ledCircle
  | ledFcircle => exact ledFcircle
  | ledText => exact ledText
  | ledRtext => exact ledRtext
  | ledScroll => exact ledScroll
  | ledRscroll => exact ledRscroll
  | ledSstep => exact ledSstep
  | ledSstop => exact ledSstop
  | synNop => exact synNop
  | synGenerate => exact synGenerate
  | pmNop => exact pmNop
  | pmUpdate c => exact pmUpdate c
  | pmSelect c k => exact pmSelect c k
  | pmNext c => exact pmNext c
  | pmPrev c => exact pmPrev c
  | wrCtrl v => exact wrCtrl v
  | wrStatus v => exact wrStatus v
  | wrIrqPend v => exact wrIrqPend v
  | wrIrqEn v => exact wrIrqEn v
  | wrScanPeriod v => exact wrScanPeriod v
  | wrHoldUnit v => exact wrHoldUnit v
  | wrLarg0 v => exact wrLarg0 v
  | wrLarg1 v => exact wrLarg1 v
  | wrLarg2 v => exact wrLarg2 v
  | wrLcolor v => exact wrLcolor v
  | wrTextLen v => exact wrTextLen v
  | wrTextbuf m v => exact wrTextbuf m v
  | wrFreq v => exact wrFreq v
  | wrAmp v => exact wrAmp v
  | wrDecay v => exact wrDecay v
  | wrWave v => exact wrWave v
  | wrOffset v => exact wrOffset v
  | wrPdecay v => exact wrPdecay v
  | wrNmix v => exact wrNmix v
  | wrEnvc v => exact wrEnvc v
  | wrComp v => exact wrComp v
  | wrCapacity v => exact wrCapacity v
  | wrSmode v => exact wrSmode v
  | wrPmRaw v => exact wrPmRaw v
  | wrFb j v => exact wrFb j v
  | rd a => exact rd a

/-! ## Offsets -/

/-- The word offset of an access is its offset without the bits that the port does not carry (20_memory.md R123). -/
theorem wordOffset_extractLsb' (a : BitVec 20) : wordOffset (a.extractLsb' 2 18) = a &&& 0xFFFFC#20 := by
  have high : (a &&& 0xFFFFC#20).extractLsb' 2 18 = a.extractLsb' 2 18 := wordIndex_clearLowBits a
  have low : (a &&& 0xFFFFC#20).extractLsb' 0 2 = 0#2 := by
    have zeros : (0xFFFFC#20).extractLsb' 0 2 = 0#2 := by decide
    rw [BitVec.extractLsb'_and, zeros, BitVec.and_zero]
  apply BitVec.eq_of_toNat_eq
  have hhigh := congrArg BitVec.toNat high
  have hlow := congrArg BitVec.toNat low
  rw [BitVec.extractLsb'_toNat, Nat.shiftRight_eq_div_pow] at hhigh hlow
  rw [wordOffset, toNat_append_add, ← hhigh]
  simp only [BitVec.toNat_ofNat] at hlow ⊢
  have := (a &&& 0xFFFFC#20).isLt
  omega

theorem wordOffset_eq_ofNat (n : BitVec 18) : wordOffset n = BitVec.ofNat 20 (4 * n.toNat) := by
  apply BitVec.eq_of_toNat_eq
  have := n.isLt
  rw [wordOffset, toNat_append_add]
  simp only [BitVec.toNat_ofNat]
  omega

/-- The offset of a pixel's word in the FB window (20_memory.md R126). -/
theorem wordOffset_fb {n : BitVec 18} (h : n.toNat / 0x10000 = 1) :
    (0b01#2 ++ n.extractLsb' 0 16 ++ 0#2 : BitVec 20) = wordOffset n := by
  apply BitVec.eq_of_toNat_eq
  rw [wordOffset, toNat_append_add, toNat_append_add, toNat_append_add, BitVec.extractLsb'_toNat, Nat.shiftRight_zero]
  simp only [BitVec.toNat_ofNat]
  omega

/-- The offset of a TEXTBUF word (44_control.md R408). -/
theorem wordOffset_textbuf {n : BitVec 18} (h : n.toNat / 16 = 4) :
    (0x0004#14 ++ n.extractLsb' 0 4 ++ 0#2 : BitVec 20) = wordOffset n := by
  apply BitVec.eq_of_toNat_eq
  rw [wordOffset, toNat_append_add, toNat_append_add, toNat_append_add, BitVec.extractLsb'_toNat, Nat.shiftRight_zero]
  simp only [BitVec.toNat_ofNat]
  omega

/-! ## A word that decodes is the encoding of its instruction -/

theorem eq_ofNat_of_toNat_eq {v : Word} {k : Nat} (h : v.toNat = k) : v = BitVec.ofNat 32 k := by
  rw [← h, BitVec.ofNat_toNat, BitVec.setWidth_eq]

theorem encode_of_decodeL {v : Word} {i : Instr} (h : decodeL v = .instr i) : encode i = ⟨true, lcmdOffset, v⟩ := by
  unfold decodeL at h
  split_ifs at h
  split at h
  case h_15 => cases h
  all_goals
    next e =>
      cases h
      obtain rfl := eq_ofNat_of_toNat_eq e
      rfl

theorem encode_of_decodeS {v : Word} {i : Instr} (h : decodeS v = .instr i) : encode i = ⟨true, scmdOffset, v⟩ := by
  unfold decodeS at h
  split_ifs at h
  split at h
  case h_3 => cases h
  all_goals
    next e =>
      cases h
      obtain rfl := eq_ofNat_of_toNat_eq e
      rfl

/-- A PCMD word with RSV = 0 is made of its three other fields (30_encoding.md R163). -/
theorem pWord_fields {v : Word} (h : v.extractLsb' 15 17 = 0#17) :
    pWord (v.extractLsb' 12 3) (v.extractLsb' 8 4) (v.extractLsb' 0 8) = v := by
  have rsv := (extractLsb'_eq_iff v 15 _).mp h
  apply BitVec.eq_of_toNat_eq
  have := v.isLt
  rw [pWord, toNat_append_add, toNat_append_add, toNat_append_add, BitVec.extractLsb'_toNat,
    BitVec.extractLsb'_toNat, BitVec.extractLsb'_toNat, Nat.shiftRight_eq_div_pow, Nat.shiftRight_eq_div_pow,
    Nat.shiftRight_zero]
  simp only [BitVec.toNat_ofNat] at rsv ⊢
  omega

theorem encode_of_decodeP {v : Word} {i : Instr} (h : decodeP v = .instr i) : encode i = ⟨true, pcmdOffset, v⟩ := by
  simp only [decodeP] at h
  split_ifs at h with hrsv hop hk hop hc hop hop hop <;> cases h <;> have word := pWord_fields hrsv
  · rw [hop] at word; rw [encode, word]
  · rw [hop, hk, hc] at word
    rw [encode, ← word]
    decide
  all_goals rw [hop, hk] at word; rw [encode, word]

theorem encode_of_decodeRegWrite {a : Nat} {v : Word} {i : Instr} (h : decodeRegWrite a v = .instr i) :
    encode i = ⟨true, BitVec.ofNat 20 a, v⟩ := by
  unfold decodeRegWrite at h
  split at h
  case h_11 => exact encode_of_decodeL h
  case h_24 => exact encode_of_decodeS h
  case h_26 => exact encode_of_decodeP h
  case h_27 => cases h -- an offset that takes no write
  all_goals cases h; rfl

theorem encode_of_decodeWrite {n : BitVec 18} {v : Word} {i : Instr} (h : decodeWrite n v = .instr i) :
    encode i = ⟨true, wordOffset n, v⟩ := by
  unfold decodeWrite at h
  split_ifs at h with fb text
  · cases h; rw [encode, wordOffset_fb fb]
  · cases h; rw [encode, wordOffset_textbuf text]
  · rw [wordOffset_eq_ofNat]; exact encode_of_decodeRegWrite h

/-- Settles O2: a read by its word index, a write by the window, the register or the command word that decodes it. -/
theorem encodeDecodeCanonical : Obligations.EncodeDecodeCanonical := by
  rintro ⟨we, a, v⟩ i h
  cases we with
  | false =>
    cases h
    simp only [encode, wordOffset_extractLsb', Bool.false_eq_true, if_false]
  | true =>
    rw [encode_of_decodeWrite ((decode_write a v).symm.trans h), wordOffset_extractLsb']
    rfl

/-- Settles O3: each word is the encoding of its instruction. -/
theorem sampleWordsDecode : Obligations.SampleWordsDecode :=
  ⟨ledClear, ledSstep, synGenerate, pmSelect 3#4 7#3, pmUpdate 2#4, wrTextbuf 3#4 _, wrFb 131#16 _, rd 0x20004#18⟩

/-! ## HOST's step -/

/-- A HOST step is its access, run on the state without it. -/
theorem step_of_hostDoes {s : State} {x : Access} (h : HostDoes s x) :
    step s = runAccess x (popAccess (takeTurn s)) := by
  obtain ⟨turn, running, first⟩ := h
  obtain ⟨rest, bus⟩ := List.head?_eq_some_iff.mp first
  rw [← takeTurn_bus] at bus
  rw [← takeTurn_inReset] at running
  simp only [step, turn, runTurn, hostStep, bus, running, Bool.false_eq_true, if_false]

/-- Settles O5. -/
theorem stepRunsTheDecodedInstruction : Obligations.StepRunsTheDecodedInstruction := fun _ _ _ hx hi =>
  (step_of_hostDoes hx).trans (runAccess_of_instr hi _)

end Sys2Proof.Proofs.Encoding
end

section
/-! SUPPORT. What the instructions can do, said once (`Effect`), and the statements that follow from it: the frames of the
instructions and the events of the sticky flags. -/

namespace Sys2Proof.Proofs.Effects

open Sys2Proof Sys2Proof.Machine Sys2Proof.Laws.RoundTrip Sys2Proof.Proofs.BusMap Sys2Proof.Proofs.CommandWords
  Sys2Proof.Proofs.Encoding

/-! ## Parameter stores -/

theorem getParam_setParam (w : WaveParams) (r q : ParamReg) (v : F32) :
    getParam (setParam w r v) q = if q = r then v else getParam w q := by
  cases r <;> cases q <;> rfl

theorem setParam_wave (w : WaveParams) (r : ParamReg) (v : F32) : (setParam w r v).wave = w.wave := by
  cases r <;> rfl

/-- A clamped store leaves values that the registers can store (10_state.md R70). -/
theorem paramsStored_setParam {w : WaveParams} (h : ParamsStored w) (r : ParamReg) (v : F32) :
    ParamsStored (setParam w r (clampP v (paramMin r) (paramMax r))) := by
  refine ⟨fun q => ?_, by rw [setParam_wave]; exact h.wave⟩
  unfold ParamStored
  rw [getParam_setParam]
  split_ifs with hq
  · rw [hq]; exact clampP_param r v
  · exact h.real q

theorem clampWave_toNat (v : Word) : (clampWave v).toNat = min v.toNat 4 := by
  rw [clampWave, BitVec.toNat_ofNat]
  omega

/-! ## Which register an instruction is written to -/

/-- The access of the instruction is a write to the register at offset `a`. -/
def WritesTo (a : BitVec 20) (i : Instr) : Prop := (encode i).we = true ∧ (encode i).addr = a

/-- The instruction is a word of LCMD, SCMD or PCMD. -/
def IsCommand (i : Instr) : Prop := WritesTo lcmdOffset i ∨ WritesTo scmdOffset i ∨ WritesTo pcmdOffset i

theorem WritesTo.unique {a b : BitVec 20} {i : Instr} (ha : WritesTo a i) (hb : WritesTo b i) : a = b :=
  ha.2.symm.trans hb.2

theorem writesTo_of_onControl {c : BitVec 4} {i : Instr} (h : OnControl c i) : WritesTo pcmdOffset i := by
  cases h <;> exact ⟨rfl, rfl⟩

theorem not_isCommand_of_addr {i : Instr}
    (h : (encode i).addr ≠ lcmdOffset ∧ (encode i).addr ≠ scmdOffset ∧ (encode i).addr ≠ pcmdOffset) : ¬IsCommand i := by
  rintro (hi | hi | hi)
  exacts [h.1 hi.2, h.2.1 hi.2, h.2.2 hi.2]

theorem not_isCommand_wrTextbuf (m : BitVec 4) (v : Word) : ¬IsCommand (.wrTextbuf m v) := by
  apply not_isCommand_of_addr
  change (0x0004#14 ++ m ++ 0#2 : BitVec 20) ≠ _ ∧ (0x0004#14 ++ m ++ 0#2 : BitVec 20) ≠ _ ∧
    (0x0004#14 ++ m ++ 0#2 : BitVec 20) ≠ _
  revert m
  decide

theorem not_isCommand_wrFb (j : BitVec 16) (v : Word) : ¬IsCommand (.wrFb j v) := by
  have above : 0x40000 ≤ (encode (.wrFb j v)).addr.toNat := by
    simp only [encode, toNat_append_add, BitVec.toNat_ofNat]
    omega
  apply not_isCommand_of_addr
  refine ⟨?_, ?_, ?_⟩ <;> (intro h; rw [h] at above; revert above; decide)

/-! ## The effect of an instruction -/

/-- What an instruction can do to the machine (00_scope.md R13): nothing, what its command or register does, or the drop
of its command. Commands that are accepted or dropped find FATAL = 0 (30_encoding.md R169). -/
inductive Effect (s : State) : Instr → State → Prop
  | nothing (i : Instr) : Effect s i s
  | draw {i : Instr} (k : Scroll) {l : List PixelWrite} (hi : WritesTo lcmdOffset i) (hf : s.ctl.fatal = false)
      (idle : lbusy s = false) (hl : ListOnPanel s.cfg l) :
      Effect s i (s.withLed { s.led with scroll := k, pw := some l })
  | drawDropped {i : Instr} (hi : WritesTo lcmdOffset i) (hn : i ≠ .ledNop) (hf : s.ctl.fatal = false)
      (busy : lbusy s = true) : Effect s i (raiseDrop s flagLdrop)
  | generate (hf : s.ctl.fatal = false) (idle : sbusy s = false) :
      Effect s .synGenerate (s.withSyn { s.syn with
        activeLen := BitVec.ofNat 17 (jobLen s.cfg (newJob s.syn)), pos := 0#17, job := some (newJob s.syn) })
  | generateDropped (hf : s.ctl.fatal = false) (busy : sbusy s = true) :
      Effect s .synGenerate (raiseDrop s flagSdrop)
  | map {c : BitVec 4} {i : Instr} {par : WaveParams} (ctl : Vector PmControl 4) (hi : OnControl c i)
      (hf : s.ctl.fatal = false) (hp : ParamsStored s.syn.par → ParamsStored par) :
      Effect s i ((s.withSyn { s.syn with par := par }).withPm { s.pm with ctl := ctl })
  | mapDropped {c : BitVec 4} {i : Instr} (hi : OnControl c i) (hf : s.ctl.fatal = false)
      (hc : ctlLegal s.cfg c = false) : Effect s i (raiseDrop s flagPill)
  | softReset {v : Word} (hv : v.getLsbD 1 = true) : Effect s (.wrCtrl v) (softReset s)
  | scanEnable (v : Word) : Effect s (.wrCtrl v) (writeScanEn s (v.getLsbD 0))
  | clearSticky (v : Word) :
      Effect s (.wrStatus v) (s.withCtl { s.ctl with sticky := w1c s.ctl.sticky (v.extractLsb' 8 6) })
  | interrupt {i : Instr} (irqPend irqEn : BitVec 4) (hi : ¬IsCommand i) :
      Effect s i (s.withCtl { s.ctl with irqPend := irqPend, irqEn := irqEn })
  | scanStore {i : Instr} {period : BitVec 24} (unit : BitVec 16) (hi : ¬IsCommand i)
      (hp : s.scan.period ≠ 0#24 → period ≠ 0#24) :
      Effect s i (s.withScan { s.scan with period := period, unit := unit })
  | ledStore {i : Instr} {l : Led} (hi : ¬IsCommand i) (hl : l.pw = s.led.pw)
      (ht : s.led.textLen.toNat ≤ s.cfg.textMax → l.textLen.toNat ≤ s.cfg.textMax) : Effect s i (s.withLed l)
  | synStore {i : Instr} {par : WaveParams} {capacity : BitVec 17} (fmt : Bool) (hi : ¬IsCommand i)
      (hp : ParamsStored s.syn.par → ParamsStored par)
      (hc : s.syn.capacity.toNat ≤ s.cfg.maxSamples → capacity.toNat ≤ s.cfg.maxSamples) :
      Effect s i (s.withSyn { s.syn with par := par, capacity := capacity, fmt := fmt })
  | rawStore (v : Word) : Effect s (.wrPmRaw v) (s.withPm { s.pm with raw := v })
  | pixel {j : BitVec 16} (v : Word) (hj : j.toNat < s.cfg.w * s.cfg.h) :
      Effect s (.wrFb j v) (writeFb s j.toNat (v.extractLsb' 0 24))
  | read (a : BitVec 18) : Effect s (.rd a) (s.withEnv { s.env with rdata := readWord s a })

theorem effect_of_ledCommand {s t : State} {i : Instr} {k : Scroll} {l : List PixelWrite}
    (h : ledCommand s k l = .next t) (hi : WritesTo lcmdOffset i) (hn : i ≠ .ledNop) (hl : ListOnPanel s.cfg l) :
    Effect s i t := by
  unfold ledCommand at h
  split_ifs at h with hf hb <;> cases h
  · exact .nothing i
  · exact .drawDropped hi hn (by simpa using hf) hb
  · exact .draw k hi (by simpa using hf) (by simpa using hb) hl

theorem effect_of_pmCommand {s t s' : State} {c : BitVec 4} {i : Instr} (h : pmCommand s c s' = .next t)
    (hi : OnControl c i) (hs' : s.ctl.fatal = false → Effect s i s') : Effect s i t := by
  unfold pmCommand at h
  split_ifs at h with hf hc <;> cases h
  · exact .nothing i
  · exact hs' (by simpa using hf)
  · exact .mapDropped hi (by simpa using hf) (by simpa using hc)

theorem effect_of_synGenerate {s t : State} (h : execSynGenerate s = .next t) : Effect s .synGenerate t := by
  unfold execSynGenerate at h
  split_ifs at h with hf hb <;> cases h
  · exact .nothing _
  · exact .generateDropped (by simpa using hf) hb
  · exact .generate (by simpa using hf) (by simpa using hb)

theorem effect_of_mapCommit {s : State} {i : Instr} {c : BitVec 4} (hi : OnControl c i) (hf : s.ctl.fatal = false)
    (d : Nat) (x : PmControl) (r : F32) : Effect s i (mapCommit s d x r) := by
  rw [mapCommit_eq]
  split_ifs
  · exact .map (s := s) _ hi hf fun h => paramsStored_setParam h _ _
  · exact .map (s := s) (par := s.syn.par) _ hi hf id

theorem effect_of_mapUpdate {s : State} {i : Instr} {c : BitVec 4} (hi : OnControl c i) (hf : s.ctl.fatal = false)
    (d : Nat) :
    Effect s i (mapUpdate s d) := by
  unfold mapUpdate
  simp only
  split_ifs
  · exact effect_of_mapCommit hi hf _ _ _
  · exact effect_of_mapCommit hi hf _ _ _
  · exact .map (s := s) (par := s.syn.par) _ hi hf id

theorem effect_of_storeParam {s : State} {i : Instr} (hi : ¬IsCommand i) (r : ParamReg) (v : F32) :
    Effect s i (storeParam s r v) :=
  .synStore (s := s) s.syn.fmt hi (fun h => paramsStored_setParam h r v) id

theorem textLen_le (n k : Nat) : (BitVec.ofNat 7 (min n k)).toNat ≤ k := by
  rw [BitVec.toNat_ofNat]
  exact (Nat.mod_le _ _).trans (Nat.min_le_right _ _)

theorem capacity_le (n k : Nat) : (BitVec.ofNat 17 (min n k)).toNat ≤ k := by
  rw [BitVec.toNat_ofNat]
  exact (Nat.mod_le _ _).trans (Nat.min_le_right _ _)

/-- Every instruction has one of the effects. -/
theorem exec_effect {i : Instr} {s t : State} (h : exec i s = .next t) : Effect s i t := by
  have onPanel := plot_onPanel s.cfg s.led.lcolor (opX s.led) (opY s.led)
  cases i with
  | ledNop | synNop | pmNop => cases h; exact .nothing _
  | ledClear => exact effect_of_ledCommand h ⟨rfl, rfl⟩ nofun (drawFill_onPanel _ _)
  | ledFill => exact effect_of_ledCommand h ⟨rfl, rfl⟩ nofun (drawFill_onPanel _ _)
  | ledPixel => exact effect_of_ledCommand h ⟨rfl, rfl⟩ nofun onPanel
  | ledRect => exact effect_of_ledCommand h ⟨rfl, rfl⟩ nofun (drawRect_onPanel _ _ _ _ _ _)
  | ledFrect => exact effect_of_ledCommand h ⟨rfl, rfl⟩ nofun (drawFrect_onPanel _ _ _ _ _ _)
  | ledCircle => exact effect_of_ledCommand h ⟨rfl, rfl⟩ nofun (drawCircle_onPanel _ _ _ _ _)
  | ledFcircle => exact effect_of_ledCommand h ⟨rfl, rfl⟩ nofun (drawFcircle_onPanel _ _ _ _ _)
  | ledText => exact effect_of_ledCommand h ⟨rfl, rfl⟩ nofun (drawTextFrom_onPanel _ _ _ _ _ _)
  | ledRtext => exact effect_of_ledCommand h ⟨rfl, rfl⟩ nofun (drawTextFrom_onPanel _ _ _ _ _ _)
  | ledScroll => exact effect_of_ledCommand h ⟨rfl, rfl⟩ nofun (renderBand_onPanel _ _ _)
  | ledRscroll => exact effect_of_ledCommand h ⟨rfl, rfl⟩ nofun (renderBand_onPanel _ _ _)
  | ledSstep =>
    refine effect_of_ledCommand ((execLedSstep_eq s).symm.trans h) ⟨rfl, rfl⟩ nofun ?_
    split_ifs
    · exact renderBand_onPanel _ _ _
    · exact .nil _
  | ledSstop => exact effect_of_ledCommand h ⟨rfl, rfl⟩ nofun (.nil _)
  | synGenerate => exact effect_of_synGenerate h
  | pmUpdate c => exact effect_of_pmCommand h .update fun hf => effect_of_mapUpdate .update hf _
  | pmSelect c k => exact effect_of_pmCommand h (.select k) fun hf => .map (s := s) (par := s.syn.par) _ (.select k) hf id
  | pmNext c => exact effect_of_pmCommand h .next fun hf => .map (s := s) (par := s.syn.par) _ .next hf id
  | pmPrev c => exact effect_of_pmCommand h .prev fun hf => .map (s := s) (par := s.syn.par) _ .prev hf id
  | wrCtrl v =>
    simp only [exec, execWrCtrl] at h
    split at h <;> cases h
    · exact .softReset ‹_›
    · exact .scanEnable v
  | wrStatus v => cases h; exact .clearSticky v
  | wrIrqPend v => cases h; exact .interrupt (s := s) _ s.ctl.irqEn (not_isCommand_of_addr (by simp only [encode]; decide))
  | wrIrqEn v => cases h; exact .interrupt (s := s) s.ctl.irqPend _ (not_isCommand_of_addr (by simp only [encode]; decide))
  | wrScanPeriod v =>
    cases h
    refine .scanStore (s := s) s.scan.unit (not_isCommand_of_addr (by simp only [encode]; decide)) fun _ => ?_
    split_ifs with hz
    · decide
    · exact hz
  | wrHoldUnit v => cases h; exact .scanStore (s := s) (period := s.scan.period) _ (not_isCommand_of_addr (by simp only [encode]; decide)) id
  | wrLarg0 v | wrLarg1 v | wrLarg2 v | wrLcolor v => cases h; exact .ledStore (not_isCommand_of_addr (by simp only [encode]; decide)) rfl id
  | wrTextLen v => cases h; exact .ledStore (not_isCommand_of_addr (by simp only [encode]; decide)) rfl fun _ => textLen_le _ _
  | wrTextbuf m v => cases h; exact .ledStore (not_isCommand_wrTextbuf m v) rfl id
  | wrFreq v | wrAmp v | wrDecay v | wrOffset v | wrPdecay v | wrNmix v | wrEnvc v | wrComp v =>
    cases h; exact effect_of_storeParam (not_isCommand_of_addr (by simp only [encode]; decide)) _ v
  | wrWave v =>
    cases h
    refine .synStore (s := s) (capacity := s.syn.capacity) s.syn.fmt (not_isCommand_of_addr (by simp only [encode]; decide)) (fun hp => ?_) id
    exact ⟨fun r => by have := hp.real r; cases r <;> exact this, by
      show (clampWave v).toNat ≤ 4
      rw [clampWave_toNat]; exact Nat.min_le_right _ _⟩
  | wrCapacity v =>
    cases h
    exact .synStore (s := s) (par := s.syn.par) s.syn.fmt (not_isCommand_of_addr (by simp only [encode]; decide)) id fun _ => capacity_le _ _
  | wrSmode v =>
    cases h
    exact .synStore (s := s) (par := s.syn.par) (capacity := s.syn.capacity) _ (not_isCommand_of_addr (by simp only [encode]; decide)) id id
  | wrPmRaw v => cases h; exact .rawStore v
  | wrFb j v =>
    simp only [exec, execWrFb] at h
    split at h <;> cases h
    · exact .pixel v ‹_›
    · exact .nothing _
  | rd a => cases h; exact .read a

end Sys2Proof.Proofs.Effects
end

section
/-! SUPPORT. What the engines leave alone, said once per engine, and the statements about errors, flags and frames
(60_exceptions.md, 44_control.md R400 to R403). -/

namespace Sys2Proof.Proofs.Frames

open Sys2Proof Sys2Proof.Machine Sys2Proof.Proofs.BusMap Sys2Proof.Proofs.CommandWords Sys2Proof.Proofs.Encoding
  Sys2Proof.Proofs.Effects

/-! ## What an engine's step leaves alone -/

theorem advanceSlot_frame (s : State) :
    advanceSlot s = ((s.withScan (advanceSlot s).scan).withCtl { s.ctl with irqPend := (advanceSlot s).ctl.irqPend }).withEnv
      { s.env with history := (advanceSlot s).env.history } := by
  unfold advanceSlot
  split_ifs <;> rfl

theorem endSlot_frame (s : State) : endSlot s = s.withScan (endSlot s).scan := by
  unfold endSlot
  split_ifs <;> rfl

/-- The state with the scan, the panel, the pending bits and the history of another one: what SE writes. -/
def takeScanOutputs (s t : State) : State :=
  (((s.withScan t.scan).withPanel t.panel).withCtl { s.ctl with irqPend := t.ctl.irqPend }).withEnv
    { s.env with history := t.env.history }

theorem seEnd_frame (s : State) (hold : Nat) : seEnd s hold = takeScanOutputs s (seEnd s hold) := by
  unfold seEnd
  simp only
  rw [endSlot_frame, advanceSlot_frame]
  split_ifs <;> rfl

theorem seHold_frame (s : State) : seHold s = takeScanOutputs s (seHold s) := by
  unfold seHold
  simp only
  split_ifs <;> rfl

/-- SE writes the scan state, the panel, IRQ_PEND and the events, and nothing else. -/
theorem seStep_frame (s : State) : seStep s = takeScanOutputs s (seStep s) := by
  unfold seStep
  split
  · rfl
  · split
    · rfl
    · split_ifs <;> rfl
    · rfl
    · rfl
    · exact seHold_frame s
    · exact seEnd_frame s _

/-- LE writes its list, IRQ_PEND and the memory, and nothing else. -/
theorem leStep_frame (s : State) :
    leStep s = ((s.withLed { s.led with pw := (leStep s).led.pw }).withCtl
      { s.ctl with irqPend := (leStep s).ctl.irqPend }).withMem (leStep s).mem := by
  unfold leStep
  split
  · rfl
  · split <;> rfl

/-- SY writes its job with the registers that show it, IRQ_PEND, the memory, the oracle's fields and the events, and
nothing else. -/
theorem syStep_frame (s : State) :
    syStep s = (((s.withSyn { s.syn with
        written := (syStep s).syn.written, pos := (syStep s).syn.pos, job := (syStep s).syn.job }).withCtl
      { s.ctl with irqPend := (syStep s).ctl.irqPend }).withMem (syStep s).mem).withEnv
      { s.env with noise := (syStep s).env.noise, draws := (syStep s).env.draws, history := (syStep s).env.history } := by
  unfold syStep
  split
  · rfl
  · split
    · rfl
    · next j _ =>
      unfold synStep
      split
      · rfl
      · have oracle := sampleWord_env s.cfg j s.env
        unfold sampleStep
        simp only
        rw [oracle]
        rfl
      · rfl
      · rfl

/-! ## FATAL and busy engines -/

theorem effect_of_fatal {s t : State} {i : Instr} (h : Effect s i t) (hf : s.ctl.fatal = true) (hi : IsCommand i) :
    t = s := by
  cases h with
  | nothing => rfl
  | draw _ _ h | drawDropped _ _ h | generate h | generateDropped h | map _ _ h | mapDropped _ h => rw [hf] at h; cases h
  | interrupt _ _ h | scanStore _ h | ledStore h | synStore _ h => exact absurd hi h
  | softReset | scanEnable | clearSticky | rawStore =>
    exact absurd hi (not_isCommand_of_addr (by simp only [encode]; decide))
  | pixel v => exact absurd hi (not_isCommand_wrFb _ v)
  | read a => rcases hi with ⟨h, -⟩ | ⟨h, -⟩ | ⟨h, -⟩ <;> cases h

/-- While FATAL = 1 an access that is a command or a reserved word changes nothing (30_encoding.md R169 step 1). -/
theorem runAccess_of_fatal {s : State} {x : Access} (hf : s.ctl.fatal = true)
    (hx : ∀ i, decode x = .instr i → IsCommand i) : runAccess x s = .next s := by
  unfold runAccess
  split
  · next i hi =>
    obtain ⟨t, ht⟩ := exec_next i s
    rw [ht, effect_of_fatal (exec_effect ht) hf (hx i hi)]
  all_goals simp only [dropIllegal_of_fatal _ hf]

/-- Settles O7: the words of the three registers are commands or reserved, and no engine passes its test of FATAL. -/
theorem fatalStopsCommandsAndEngines : Obligations.FatalStopsCommandsAndEngines := by
  intro s hf
  refine ⟨fun v => ⟨?_, ?_, ?_⟩, ?_, ?_, ?_, ?_⟩
  · refine runAccess_of_fatal hf fun i h => .inl ?_
    rw [WritesTo, encode_of_decodeL ((decode_lcmd v).symm.trans h)]
    exact ⟨rfl, rfl⟩
  · refine runAccess_of_fatal hf fun i h => .inr (.inl ?_)
    rw [WritesTo, encode_of_decodeS ((decode_scmd v).symm.trans h)]
    exact ⟨rfl, rfl⟩
  · refine runAccess_of_fatal hf fun i h => .inr (.inr ?_)
    rw [WritesTo, encode_of_decodeP ((decode_pcmd v).symm.trans h)]
    exact ⟨rfl, rfl⟩
  · simp only [leStep, hf, if_true]
  · simp only [seStep, hf, if_true]
  · simp only [syStep, hf, if_true]
  · simp only [timerStep, hf, Bool.not_true, Bool.and_false, Bool.false_eq_true, if_false]

/-- Settles O8: each command is `ledCommand` or GENERATE, which test the busy bit before anything else. -/
theorem busyCommandsAreDropped : Obligations.BusyCommandsAreDropped := by
  intro s hf
  refine ⟨fun busy => ?_, execSynGenerate_of_busy hf⟩
  have drop (k : Scroll) (l : List PixelWrite) := ledCommand_of_busy k l hf busy
  have sstep := (execLedSstep_eq s).trans (drop _ _)
  simp only [List.forall_mem_cons, List.not_mem_nil, false_implies, implies_true, and_true]
  exact ⟨drop _ _, drop _ _, drop _ _, drop _ _, drop _ _, drop _ _, drop _ _, drop _ _, drop _ _, drop _ _, drop _ _,
    sstep, drop _ _⟩

/-! ## The interrupt registers -/

theorem getLsbD_w1c {n : Nat} (old written : BitVec n) {k : Nat} (hk : k < n) :
    (w1c old written).getLsbD k = (old.getLsbD k && !written.getLsbD k) := by
  simp [w1c, hk]

theorem irq_iff (s : State) :
    irq s = true ↔ ∃ k, k < 4 ∧ s.ctl.irqPend.getLsbD k = true ∧ s.ctl.irqEn.getLsbD k = true := by
  rw [irq, decide_eq_true_eq]
  constructor
  · intro h
    by_contra none
    refine h (BitVec.eq_of_getLsbD_eq fun k hk => ?_)
    rw [BitVec.getLsbD_and, BitVec.getLsbD_zero, Bool.and_eq_false_iff]
    by_contra both
    simp only [not_or, Bool.not_eq_false] at both
    exact none ⟨k, hk, both⟩
  · rintro ⟨k, -, hp, he⟩ h
    have := congrArg (BitVec.getLsbD · k) h
    simp only [BitVec.getLsbD_and, hp, he, BitVec.getLsbD_zero] at this
    cases this

/-- Settles O10, bit by bit. -/
theorem statusAndInterruptWrites : Obligations.StatusAndInterruptWrites := by
  refine ⟨fun s v => ⟨_, rfl, fun k hk => ?_⟩, fun s v => ⟨_, rfl, fun k hk => ?_⟩, fun s v => rfl, irq_iff⟩
  · rw [getLsbD_w1c _ _ hk, BitVec.getLsbD_extractLsb', decide_eq_true hk, Bool.true_and]
  · rw [getLsbD_w1c _ _ hk, BitVec.getLsbD_extractLsb', decide_eq_true hk, Bool.true_and, Nat.zero_add]

/-- Settles O11: HOST's access goes on, and every other turn is a function of the state. -/
theorem noStepStops : Obligations.NoStepStops := by
  intro s
  unfold step runTurn
  split
  case h_3 =>
    unfold hostStep
    split
    · exact ⟨_, rfl⟩
    · split_ifs
      · exact ⟨_, rfl⟩
      · exact runAccess_next _ _
  all_goals exact ⟨_, rfl⟩

/-! ## The frames of the instructions -/

/-- A CTRL write without SRST changes SCAN_EN and, of the scan state, TCNT or the place (44_control.md R400). -/
theorem writeScanEn_frame (s : State) (v : Bool) :
    writeScanEn s v = (s.withCtl { s.ctl with scanEn := v }).withScan (writeScanEn s v).scan := by
  unfold writeScanEn
  simp only
  split_ifs <;> rfl

theorem effect_cfg {s t : State} {i : Instr} (h : Effect s i t) : t.cfg = s.cfg := by
  cases h with
  | scanEnable v => rw [writeScanEn_frame]; rfl
  | _ => rfl

theorem effect_env {s t : State} {i : Instr} (h : Effect s i t) (hi : ∀ a, i ≠ .rd a) : t.env = s.env := by
  cases h with
  | scanEnable v => rw [writeScanEn_frame]; rfl
  | read a => exact absurd rfl (hi a)
  | _ => rfl

/-- Only the FB window stores to memory (20_memory.md R126, R140). -/
theorem effect_mem {s t : State} {i : Instr} (h : Effect s i t) (hi : ∀ j v, i ≠ .wrFb j v) :
    t.mem = s.mem ∧ t.env.epoch = s.env.epoch := by
  cases h with
  | scanEnable v => rw [writeScanEn_frame]; exact ⟨rfl, rfl⟩
  | pixel v => exact absurd rfl (hi _ v)
  | _ => exact ⟨rfl, rfl⟩

theorem effect_keepsMemory {s t : State} {i : Instr} (h : Effect s i t) (hi : ∀ j v, i ≠ .wrFb j v) :
    KeepsMemory s t := by
  obtain ⟨hm, he⟩ := effect_mem h hi
  exact readByte_congr hm he

/-- A write of the FB window changes at most the three bytes of its pixel. -/
theorem exec_wrFb_keepsOutside {s t : State} {j : BitVec 16} {v : Word} (h : exec (.wrFb j v) s = .next t) :
    KeepsMemoryOutside (fbAddr j.toNat) 3 s t := by
  intro a ha
  simp only [exec, execWrFb] at h
  split at h <;> cases h
  · exact readByte_writeFb_other s _ _ (by omega)
  · rfl

theorem effect_scan {s t : State} {i : Instr} (h : Effect s i t) (hi : ∀ v, i ≠ .wrCtrl v) :
    t.panel = s.panel ∧ SameScan s t := by
  cases h with
  | softReset | scanEnable v => exact absurd rfl (hi _)
  | _ => exact ⟨rfl, rfl⟩

/-- What a command does: nothing, its own engine's work, or the drop of its own register (00_scope.md R13). -/
theorem effect_of_command {s t : State} {i : Instr} (h : Effect s i t) (hi : IsCommand i) : t = s ∨
    (WritesTo lcmdOffset i ∧
      (t = s.withLed { s.led with scroll := t.led.scroll, pw := t.led.pw } ∨ t = raiseDrop s flagLdrop)) ∨
    (WritesTo scmdOffset i ∧
      (t = s.withSyn { s.syn with activeLen := t.syn.activeLen, pos := t.syn.pos, job := t.syn.job } ∨
        t = raiseDrop s flagSdrop)) ∨
    (WritesTo pcmdOffset i ∧
      (t = (s.withSyn { s.syn with par := t.syn.par }).withPm { s.pm with ctl := t.pm.ctl } ∨
        t = raiseDrop s flagPill)) := by
  cases h with
  | nothing => exact .inl rfl
  | draw _ hl => exact .inr (.inl ⟨hl, .inl rfl⟩)
  | drawDropped hl => exact .inr (.inl ⟨hl, .inr rfl⟩)
  | generate => exact .inr (.inr (.inl ⟨⟨rfl, rfl⟩, .inl rfl⟩))
  | generateDropped => exact .inr (.inr (.inl ⟨⟨rfl, rfl⟩, .inr rfl⟩))
  | map _ hc => exact .inr (.inr (.inr ⟨writesTo_of_onControl hc, .inl rfl⟩))
  | mapDropped hc => exact .inr (.inr (.inr ⟨writesTo_of_onControl hc, .inr rfl⟩))
  | interrupt _ _ h | scanStore _ h | ledStore h | synStore _ h => exact absurd hi h
  | softReset | scanEnable | clearSticky | rawStore =>
    exact absurd hi (not_isCommand_of_addr (by simp only [encode]; decide))
  | pixel v => exact absurd hi (not_isCommand_wrFb _ v)
  | read a => rcases hi with ⟨h, -⟩ | ⟨h, -⟩ | ⟨h, -⟩ <;> cases h

/-- Settles O41, from the effects of the instructions. A command that does nothing counts as one that changes nothing of
its engine. -/
theorem instructionFrames : Obligations.InstructionFrames := by
  intro i s t h
  have effect := exec_effect h
  refine ⟨effect_cfg effect, effect_env effect, fun a hi => ?_, fun j v hi => ?_, effect_keepsMemory effect,
    effect_scan effect, fun hw ha => ?_, fun hw ha => ?_, fun hw ha => ?_⟩
  · subst hi; cases h; rfl
  · subst hi; exact exec_wrFb_keepsOutside h
  · have hi : WritesTo lcmdOffset i := ⟨hw, ha⟩
    rcases effect_of_command effect (.inl hi) with rfl | ⟨-, h⟩ | ⟨h, -⟩ | ⟨h, -⟩
    · exact .inl rfl
    · exact h
    · exact absurd (hi.unique h) (by decide)
    · exact absurd (hi.unique h) (by decide)
  · have hi : WritesTo scmdOffset i := ⟨hw, ha⟩
    rcases effect_of_command effect (.inr (.inl hi)) with rfl | ⟨h, -⟩ | ⟨-, h⟩ | ⟨h, -⟩
    · exact .inl rfl
    · exact absurd (hi.unique h) (by decide)
    · exact h
    · exact absurd (hi.unique h) (by decide)
  · have hi : WritesTo pcmdOffset i := ⟨hw, ha⟩
    rcases effect_of_command effect (.inr (.inr hi)) with rfl | ⟨h, -⟩ | ⟨h, -⟩ | ⟨-, h⟩
    · exact .inl rfl
    · exact absurd (hi.unique h) (by decide)
    · exact absurd (hi.unique h) (by decide)
    · exact h

/-! ## The sticky flags -/

/-- What drops a command word, and the flag that records it (60_exceptions.md R421 to R425). -/
inductive Drops (s : State) (x : Access) : BitVec 6 → Prop
  | busyLed {i : Instr} (busy : lbusy s = true) (hx : decode x = .instr i) (hi : WritesTo lcmdOffset i)
      (hn : i ≠ .ledNop) : Drops s x flagLdrop
  | illegalLed (hx : decode x = .reservedL) : Drops s x flagLill
  | busySyn (busy : sbusy s = true) (hx : decode x = .instr .synGenerate) : Drops s x flagSdrop
  | illegalSyn (hx : decode x = .reservedS) : Drops s x flagSill
  | illegalMap (hx : decode x = .reservedP) : Drops s x flagPill
  | illegalControl {i : Instr} (hx : decode x = .instr i) (hi : i.wf s.cfg = false) : Drops s x flagPill

theorem wf_of_onControl {c : BitVec 4} {i : Instr} (h : OnControl c i) (p : Params) : i.wf p = ctlLegal p c := by
  cases h <;> rfl

/-- What an access does to the sticky flags: nothing, the flag of a drop, a write of 1 to clear, or a soft reset. -/
theorem runAccess_sticky {x : Access} {s t : State} (h : runAccess x s = .next t) :
    t.ctl.sticky = s.ctl.sticky ∨
    (∃ f, Drops s x f ∧ s.ctl.fatal = false ∧ t.ctl.sticky = s.ctl.sticky ||| f) ∨
    (∃ v, decode x = .instr (.wrStatus v) ∧ t.ctl.sticky = w1c s.ctl.sticky (v.extractLsb' 8 6)) ∨
    ∃ v, decode x = .instr (.wrCtrl v) ∧ v.getLsbD 1 = true := by
  have illegal : ∀ f, Drops s x f → (dropIllegal s f).ctl.sticky = s.ctl.sticky ∨
      (∃ g, Drops s x g ∧ s.ctl.fatal = false ∧ (dropIllegal s f).ctl.sticky = s.ctl.sticky ||| g) := by
    intro f hd
    cases hf : s.ctl.fatal
    · rw [dropIllegal_of_running f hf]; exact .inr ⟨f, hd, rfl, rfl⟩
    · rw [dropIllegal_of_fatal f hf]; exact .inl rfl
  unfold runAccess at h
  split at h
  · next i hx =>
    cases exec_effect h with
    | drawDropped hi hn hf busy => exact .inr (.inl ⟨_, .busyLed busy hx hi hn, hf, rfl⟩)
    | generateDropped hf busy => exact .inr (.inl ⟨_, .busySyn busy hx, hf, rfl⟩)
    | mapDropped hi hf hc => exact .inr (.inl ⟨_, .illegalControl hx ((wf_of_onControl hi _).trans hc), hf, rfl⟩)
    | clearSticky v => exact .inr (.inr (.inl ⟨v, hx, rfl⟩))
    | softReset hv => exact .inr (.inr (.inr ⟨_, hx, hv⟩))
    | scanEnable v => rw [writeScanEn_frame]; exact .inl rfl
    | _ => exact .inl rfl
  · next hx => cases h; exact (illegal _ (.illegalLed hx)).imp_right .inl
  · next hx => cases h; exact (illegal _ (.illegalSyn hx)).imp_right .inl
  · next hx => cases h; exact (illegal _ (.illegalMap hx)).imp_right .inl
  · cases h; exact .inl rfl

/-- What a tick and a clock cycle do to the sticky flags (43_led_scan.md R372). -/
theorem timerStep_sticky (s : State) : (timerStep s).ctl.sticky = s.ctl.sticky ∨
    (s.ctl.scanEn = true ∧ s.ctl.fatal = false ∧ s.scan.period.toNat ≤ s.scan.tcnt.toNat + 1 ∧ s.scan.phase ≠ .idle ∧
      (timerStep s).ctl.sticky = s.ctl.sticky ||| flagScanOvr) := by
  unfold timerStep
  split_ifs with hrun hwrap
  · rw [Bool.and_eq_true, Bool.not_eq_true'] at hrun
    cases hp : s.scan.phase with
    | idle => left; simp only [tick, withScan_scan, hp]; rfl
    | _ => right; simp only [tick, withScan_scan, hp]; exact ⟨hrun.1, hrun.2, hwrap, by nofun, rfl⟩
  · exact .inl rfl
  · exact .inl rfl

theorem engineStep_sticky (a : Agent) (s : State) : (engineStep a s).ctl.sticky = s.ctl.sticky ∨
    (a = .timer ∧ s.env.inReset = false ∧ s.ctl.scanEn = true ∧ s.ctl.fatal = false ∧
      s.scan.period.toNat ≤ s.scan.tcnt.toNat + 1 ∧ s.scan.phase ≠ .idle ∧
      (engineStep a s).ctl.sticky = s.ctl.sticky ||| flagScanOvr) := by
  unfold engineStep
  split_ifs with hr
  · exact .inl rfl
  · cases a with
    | host => exact .inl rfl
    | le => left; simp only; rw [leStep_frame]; rfl
    | se => left; simp only; rw [seStep_frame]; rfl
    | sy => left; simp only; rw [syStep_frame]; rfl
    | timer => exact (timerStep_sticky s).imp_right fun h => ⟨rfl, by simpa using hr, h⟩

/-- The port carries A[19:2]: an access that decodes to a command of a register goes to the word of that register. -/
theorem writes_of_decode {x : Access} {i : Instr} {a : BitVec 20} (h : decode x = .instr i) (hi : WritesTo a i) :
    x.we = true ∧ a = x.addr &&& 0xFFFFC#20 := by
  rw [WritesTo, encodeDecodeCanonical x i h] at hi
  exact ⟨hi.1, hi.2.symm⟩

theorem wordIndex_of_lcmd {a : BitVec 20} (h : lcmdOffset = a &&& 0xFFFFC#20) : a.toNat / 4 = 0x14 := by
  have index := congrArg (fun b : BitVec 20 => (b.extractLsb' 2 18).toNat) h
  simp only [wordIndex_clearLowBits, BitVec.extractLsb'_toNat, Nat.shiftRight_eq_div_pow] at index
  have := a.isLt
  simp only [lcmdOffset, BitVec.toNat_ofNat] at index
  omega

/-- A bit of a one-bit flag names the flag. -/
theorem index_of_flag {k : Nat} (hk : k < 6) :
    (flagLdrop.getLsbD k = true → k = 0) ∧ (flagLill.getLsbD k = true → k = 1) ∧
    (flagSdrop.getLsbD k = true → k = 2) ∧ (flagSill.getLsbD k = true → k = 3) ∧
    (flagPill.getLsbD k = true → k = 4) ∧ (flagScanOvr.getLsbD k = true → k = 5) := by
  revert k
  decide

/-- A drop sets the flag of its own event (60_exceptions.md R421). -/
theorem flagEvent_of_drops {s u : State} {x : Access} {f : BitVec 6} {k : Nat} (hk : k < 6) (hd : Drops u x f)
    (hf : s.ctl.fatal = false) (hx : HostDoes s x) (cfg : u.cfg = s.cfg) (led : u.led = s.led) (syn : u.syn = s.syn)
    (bit : f.getLsbD k = true) : FlagEvent s k := by
  obtain ⟨k0, k1, k2, k3, k4, -⟩ := index_of_flag hk
  cases hd with
  | busyLed busy hdec hi hn =>
    obtain rfl := k0 bit
    obtain ⟨we, addr⟩ := writes_of_decode hdec hi
    exact ⟨hf, by rw [lbusy, ← led]; exact busy, x, _, hx, we, wordIndex_of_lcmd addr, hdec, hn⟩
  | illegalLed hdec => obtain rfl := k1 bit; exact ⟨hf, x, hx, hdec⟩
  | busySyn busy hdec => obtain rfl := k2 bit; exact ⟨hf, by rw [sbusy, ← syn]; exact busy, x, hx, hdec⟩
  | illegalSyn hdec => obtain rfl := k3 bit; exact ⟨hf, x, hx, hdec⟩
  | illegalMap hdec => obtain rfl := k4 bit; exact ⟨hf, x, hx, .inl hdec⟩
  | illegalControl hdec hi => obtain rfl := k4 bit; exact ⟨hf, x, hx, .inr ⟨_, hdec, by rw [← cfg]; exact hi⟩⟩

/-- What a step does to the sticky flags. -/
theorem step_sticky {s t : State} (h : step s = .next t) : t.ctl.sticky = s.ctl.sticky ∨
    (∃ f, (∀ k, k < 6 → f.getLsbD k = true → FlagEvent s k) ∧ t.ctl.sticky = s.ctl.sticky ||| f) ∨
    (∃ x v, HostDoes s x ∧ decode x = .instr (.wrStatus v) ∧
      t.ctl.sticky = w1c s.ctl.sticky (v.extractLsb' 8 6)) ∨
    (EndsReset s ∨ SoftResets s) ∧ t.ctl.sticky = 0#6 := by
  rcases step_cases h with ⟨-, rfl⟩ | ⟨turn, rfl⟩ | ⟨a, -, turn, rfl⟩ | ⟨-, rfl | rfl | ⟨x, hx, hr⟩⟩
  · left; rw [assertReset_ctl, takeTurn_ctl]
  · unfold releaseReset
    split_ifs with hr
    · exact .inr (.inr (.inr ⟨.inl ⟨turn, by rw [← takeTurn_inReset]; exact hr⟩, rfl⟩))
    · exact .inl (by rw [takeTurn_ctl])
  · have sticky := engineStep_sticky a (takeTurn s)
    simp only [takeTurn_ctl, takeTurn_scan, takeTurn_inReset] at sticky
    refine sticky.imp_right fun ⟨ha, hr, he, hf, hwrap, hp, e⟩ => .inl ⟨_, fun k hk bit => ?_, e⟩
    obtain rfl := (index_of_flag hk).2.2.2.2.2 bit
    subst ha
    exact ⟨⟨turn, hr, he, hf, hwrap⟩, hp⟩
  · left; rw [takeTurn_ctl]
  · left; rw [popAccess_ctl, takeTurn_ctl]
  · have reset : ∀ v, decode x = .instr (.wrCtrl v) → v.getLsbD 1 = true → t.ctl.sticky = 0#6 := by
      intro v hdec hv
      rw [runAccess_of_instr hdec] at hr
      simp only [exec, execWrCtrl, hv, if_true] at hr
      cases hr
      rfl
    have sticky := runAccess_sticky hr
    simp only [popAccess_ctl, takeTurn_ctl] at sticky
    rcases sticky with e | ⟨f, hd, hf, e⟩ | ⟨v, hdec, e⟩ | ⟨v, hdec, hv⟩
    · exact .inl e
    · exact .inr (.inl ⟨f, fun k hk => flagEvent_of_drops hk hd hf hx (by simp) (by simp) (by simp), e⟩)
    · exact .inr (.inr (.inl ⟨x, v, hx, hdec, e⟩))
    · exact .inr (.inr (.inr ⟨.inr ⟨x, v, hx, hdec, hv⟩, reset v hdec hv⟩))

/-- Settles O9: a step keeps the flags, adds the flag of an event, clears the bits of a STATUS write, or resets. -/
theorem stickyFlagsChangeOnlyByTheirEvents : Obligations.StickyFlagsChangeOnlyByTheirEvents := by
  intro s t k hk h
  rcases step_sticky h with e | ⟨f, hf, e⟩ | ⟨x, v, hx, hdec, e⟩ | ⟨hreset, e⟩ <;> rw [e]
  · exact ⟨fun off on => absurd (off.symm.trans on) (by decide), fun on off => absurd (off.symm.trans on) (by decide)⟩
  · rw [BitVec.getLsbD_or]
    refine ⟨fun off on => hf k hk ?_, fun on off => ?_⟩
    · rw [off, Bool.false_or] at on; exact on
    · rw [on, Bool.true_or] at off; cases off
  · rw [getLsbD_w1c _ _ hk, BitVec.getLsbD_extractLsb', decide_eq_true hk, Bool.true_and]
    refine ⟨fun off on => ?_, fun on off => .inr (.inr ⟨x, v, hx, hdec, ?_⟩)⟩
    · rw [off, Bool.false_and] at on; cases on
    · rw [on, Bool.true_and, Bool.not_eq_false'] at off; exact off
  · rw [BitVec.getLsbD_zero]
    exact ⟨fun _ on => absurd on (by decide), fun _ _ => hreset.imp_right .inl⟩

end Sys2Proof.Proofs.Frames
end

section
/-! SUPPORT. The invariant: it holds at reset and every step keeps it (10_state.md sections 3 to 7, 43_led_scan.md R365,
R370), and which agents write FB and SRAM (10_state.md R63, R78). -/

namespace Sys2Proof.Proofs.Invariant

open Sys2Proof Sys2Proof.Machine Sys2Proof.Proofs.BusMap Sys2Proof.Proofs.Encoding Sys2Proof.Proofs.Effects
  Sys2Proof.Proofs.Frames

/-! ## At reset -/

theorem paramsStored_reset : ParamsStored WaveParams.reset :=
  ⟨fun r => by cases r <;> (unfold ParamStored; decide +kernel), by decide⟩

/-- A panel that is off outside HOLD to END. -/
theorem outputInRange_of_dark {s : State} (off : s.panel.oeN = true) (phase : ∀ hold, s.scan.phase ≠ .fin hold)
    (pclk : s.panel.pclk = false) (lat : s.panel.lat = false) (addr : s.panel.addr.toNat < 2 ^ addrBits s.cfg) :
    OutputInRange s :=
  ⟨⟨fun h => absurd (off.symm.trans h) (by decide), fun ⟨hold, h, _⟩ => absurd h (phase hold)⟩, pclk, lat, addr⟩

/-- Outside HOLD to END the panel is off. -/
theorem oeN_of_phase {s : State} (h : OutputInRange s) (phase : ∀ hold, s.scan.phase ≠ .fin hold) :
    s.panel.oeN = true := by
  cases off : s.panel.oeN with
  | true => rfl
  | false =>
    obtain ⟨hold, hp, -⟩ := h.lit.mp off
    exact absurd hp (phase hold)

/-- The reset state of a legal configuration meets the invariant, with any memory in canonical form and any
environment. -/
theorem inv_resetOf {p : Params} {m : Memory} (e : Env) (hp : configCheck p = true)
    (hm : MemoryInWindows ((State.resetOf p).withMem m)) : Inv (((State.resetOf p).withMem m).withEnv e) := by
  obtain ⟨hw, hh, hd, -, ht, -, -, hs, -, -, -, hperiod, -⟩ := configCheck_iff.mp hp
  exact {
    legal := hp
    notFatal := by show (!configCheck p) = false; rw [hp]; rfl
    registers := {
      params := paramsStored_reset
      capacity := by
        show (BitVec.ofNat 17 p.maxSamples).toNat ≤ p.maxSamples
        rw [BitVec.toNat_ofNat]; exact Nat.mod_le _ _
      textLen := Nat.zero_le _
      period := fun h => by
        have := congrArg BitVec.toNat (show BitVec.ofNat 24 p.scanPeriodReset = 0#24 from h)
        rw [BitVec.toNat_ofNat, BitVec.toNat_ofNat, Nat.mod_eq_of_lt hperiod.2] at this
        omega }
    memory := ⟨hm.canonical, hm.windows⟩
    scan := {
      plane := show 0 < p.depth by omega
      rowpair := show 0 < p.h / 2 by omega
      column := nofun
      pending := nofun
      setup := nofun }
    output := outputInRange_of_dark rfl nofun rfl rfl (Nat.two_pow_pos _)
    job := nofun
    list := nofun }

theorem memoryInWindows_nil (s : State) : MemoryInWindows (s.withMem []) := ⟨rfl, nofun⟩

/-- Settles O58. -/
theorem invariantHoldsAtReset : Obligations.InvariantHoldsAtReset :=
  inv_resetOf (p := Params.reference) Env.start (by decide +kernel) (memoryInWindows_nil _)

/-! ## One rule per part of the state -/

theorem jobInRange_congr {s t : State} {j : Job} (h : JobInRange s j) (cfg : t.cfg = s.cfg)
    (pos : t.syn.pos = s.syn.pos) (len : t.syn.activeLen = s.syn.activeLen) : JobInRange t j := by
  obtain ⟨hp, hi, hc, hpos, hlen, h1, h2, h3, h4⟩ := h
  exact ⟨hp, hi, by rw [cfg]; exact hc, by rw [pos]; exact hpos, by rw [len, cfg]; exact hlen, by rw [cfg]; exact h1,
    by rw [cfg]; exact h2, by rw [cfg]; exact h3, by rw [cfg]; exact h4⟩

theorem scanInRange_congr {s t : State} (h : ScanInRange s) (cfg : t.cfg = s.cfg) (scan : t.scan = s.scan)
    (en : t.ctl.scanEn = s.ctl.scanEn) : ScanInRange t := by
  obtain ⟨h1, h2, h3, h4, h5⟩ := h
  exact ⟨by rw [scan, cfg]; exact h1, by rw [scan, cfg]; exact h2, by rw [scan, cfg]; exact h3, by rw [scan]; exact h4,
    by rw [scan, en]; exact h5⟩

theorem outputInRange_congr {s t : State} (h : OutputInRange s) (cfg : t.cfg = s.cfg) (panel : t.panel = s.panel)
    (phase : t.scan.phase = s.scan.phase) : OutputInRange t := by
  obtain ⟨h1, h2, h3, h4⟩ := h
  exact ⟨by rw [panel, phase]; exact h1, by rw [panel]; exact h2, by rw [panel]; exact h3, by rw [panel, cfg]; exact h4⟩

/-- A step that leaves the memory, LE and SY alone keeps the invariant when it keeps its parts about the scan. -/
theorem Inv.of_scan {s t : State} (h : Inv s) (cfg : t.cfg = s.cfg) (fatal : t.ctl.fatal = s.ctl.fatal)
    (mem : t.mem = s.mem) (led : t.led = s.led) (syn : t.syn = s.syn) (period : t.scan.period ≠ 0#24)
    (scan : ScanInRange t) (output : OutputInRange t) : Inv t where
  legal := by rw [cfg]; exact h.legal
  notFatal := by rw [fatal]; exact h.notFatal
  registers := ⟨by rw [syn]; exact h.registers.params, by rw [syn, cfg]; exact h.registers.capacity,
    by rw [led, cfg]; exact h.registers.textLen, period⟩
  memory := ⟨by rw [mem]; exact h.memory.canonical, by rw [mem, cfg]; exact h.memory.windows⟩
  scan := scan
  output := output
  job := fun j hj => jobInRange_congr (h.job j (by rw [← syn]; exact hj)) cfg (by rw [syn]) (by rw [syn])
  list := by rw [led, cfg]; exact h.list

section
variable {s : State}

theorem Inv.withCtl (h : Inv s) {x : Ctl} (fatal : x.fatal = s.ctl.fatal) (en : x.scanEn = s.ctl.scanEn) :
    Inv (s.withCtl x) :=
  Inv.of_scan h rfl fatal rfl rfl rfl h.registers.period (scanInRange_congr h.scan rfl rfl en)
    (outputInRange_congr h.output rfl rfl rfl)

theorem Inv.withEnv (h : Inv s) (e : Env) : Inv (s.withEnv e) :=
  Inv.of_scan h rfl rfl rfl rfl rfl h.registers.period (scanInRange_congr h.scan rfl rfl rfl)
    (outputInRange_congr h.output rfl rfl rfl)

theorem Inv.withPm (h : Inv s) (m : Mapper) : Inv (s.withPm m) :=
  Inv.of_scan h rfl rfl rfl rfl rfl h.registers.period (scanInRange_congr h.scan rfl rfl rfl)
    (outputInRange_congr h.output rfl rfl rfl)

theorem Inv.withLed (h : Inv s) {l : Led} (len : l.textLen.toNat ≤ s.cfg.textMax)
    (list : ∀ q, l.pw = some q → ListOnPanel s.cfg q) : Inv (s.withLed l) where
  legal := h.legal
  notFatal := h.notFatal
  registers := ⟨h.registers.params, h.registers.capacity, len, h.registers.period⟩
  memory := ⟨h.memory.canonical, h.memory.windows⟩
  scan := scanInRange_congr h.scan rfl rfl rfl
  output := outputInRange_congr h.output rfl rfl rfl
  job := fun j hj => jobInRange_congr (h.job j hj) rfl rfl rfl
  list := list

theorem Inv.withSyn (h : Inv s) {y : Synth} (par : ParamsStored y.par) (cap : y.capacity.toNat ≤ s.cfg.maxSamples)
    (job : ∀ j, y.job = some j → JobInRange (s.withSyn y) j) : Inv (s.withSyn y) where
  legal := h.legal
  notFatal := h.notFatal
  registers := ⟨par, cap, h.registers.textLen, h.registers.period⟩
  memory := ⟨h.memory.canonical, h.memory.windows⟩
  scan := scanInRange_congr h.scan rfl rfl rfl
  output := outputInRange_congr h.output rfl rfl rfl
  job := job
  list := h.list

theorem Inv.withMem (h : Inv s) {m : Memory} (hm : MemoryInWindows (s.withMem m)) : Inv (s.withMem m) where
  legal := h.legal
  notFatal := h.notFatal
  registers := ⟨h.registers.params, h.registers.capacity, h.registers.textLen, h.registers.period⟩
  memory := hm
  scan := scanInRange_congr h.scan rfl rfl rfl
  output := outputInRange_congr h.output rfl rfl rfl
  job := fun j hj => jobInRange_congr (h.job j hj) rfl rfl rfl
  list := h.list

theorem Inv.writeFb (h : Inv s) {j : Nat} (c : Pixel) (hj : j < s.cfg.w * s.cfg.h) : Inv (writeFb s j c) :=
  Inv.withMem h (m := (Machine.writeFb s j c).mem) (h.memory.writeFb c hj)

theorem Inv.writeSram (h : Inv s) {j : Nat} (v : Word) (hj : j < s.cfg.maxSamples) : Inv (writeSram s j v) :=
  Inv.withMem h (m := (Machine.writeSram s j v).mem) (h.memory.writeSram v hj)

theorem Inv.takeTurn (h : Inv s) : Inv (takeTurn s) := by
  unfold Machine.takeTurn
  split <;> exact Inv.withEnv h _

/-! ## HOST -/

/-- A new job: the snapshot of registers in range, before its first sample (40_synth.md R200). -/
theorem jobInRange_newJob (h : Inv s) : JobInRange (s.withSyn { s.syn with
    activeLen := BitVec.ofNat 17 (jobLen s.cfg (newJob s.syn)), pos := 0#17, job := some (newJob s.syn) })
    (newJob s.syn) where
  params := h.registers.params
  index := Nat.zero_le _
  capacity := h.registers.capacity
  pos := rfl
  activeLen := by
    have le : jobLen s.cfg (newJob s.syn) ≤ s.syn.capacity.toNat := jobLen_le s.cfg (newJob s.syn)
    show (BitVec.ofNat 17 (jobLen s.cfg (newJob s.syn))).toNat = _
    rw [BitVec.toNat_ofNat, Nat.mod_eq_of_lt (by have := s.syn.capacity.isLt; omega)]
    rfl
  pitch := rfl
  pitchLen := Nat.zero_le _
  envelope := rfl
  envelopeLen := Nat.zero_le _

theorem scanActive_iff : scanActive s = true ↔ s.scan.phase ≠ .idle ∧ s.scan.phase ≠ .setup := by
  unfold scanActive
  split <;> simp_all

/-- A CTRL write without SRST keeps the invariant: disabled outside a slot, the scan is at its first place and dark
(44_control.md R400). -/
theorem Inv.writeScanEn (h : Inv s) (v : Bool) : Inv (writeScanEn s v) := by
  obtain ⟨hplane, hrow, hcol, hpend, hsetup⟩ := h.scan
  have dark : scanActive s = false → ∀ hold, s.scan.phase ≠ .fin hold := fun idle hold e => by
    rw [scanActive, e] at idle; cases idle
  unfold Machine.writeScanEn
  simp only
  split_ifs with on off
  · rw [Bool.and_eq_true] at on
    exact Inv.of_scan h rfl rfl rfl rfl rfl h.registers.period ⟨hplane, hrow, hcol, hpend, fun _ => on.2⟩
      (outputInRange_congr h.output rfl rfl rfl)
  · simp only [Bool.and_eq_true, Bool.not_eq_true'] at off
    refine Inv.of_scan h rfl rfl rfl rfl rfl h.registers.period ⟨?_, ?_, nofun, nofun, nofun⟩ ?_
    · exact Nat.lt_of_le_of_lt (Nat.zero_le _) hplane
    · exact Nat.lt_of_le_of_lt (Nat.zero_le _) hrow
    · have dim : s.panel.oeN = true := oeN_of_phase h.output (dark off.2)
      exact outputInRange_of_dark dim nofun h.output.pclk h.output.lat h.output.addr
  · refine Inv.of_scan h rfl rfl rfl rfl rfl h.registers.period ⟨hplane, hrow, hcol, hpend, fun waits => ?_⟩
      (outputInRange_congr h.output rfl rfl rfl)
    have en := hsetup waits
    have idle : scanActive s = false := by rw [scanActive, show s.scan.phase = .setup from waits]
    simpa [en, idle] using off

theorem inv_softReset (h : Inv s) : Inv (softReset s) :=
  inv_resetOf s.env h.legal ⟨h.memory.canonical, h.memory.windows⟩

/-- Every instruction keeps the invariant. -/
theorem inv_of_effect (h : Inv s) {i : Instr} {t : State} (he : Effect s i t) : Inv t := by
  cases he with
  | nothing => exact h
  | draw k _ _ _ hl => exact Inv.withLed h h.registers.textLen fun q hq => by cases hq; exact hl
  | drawDropped | generateDropped | mapDropped => exact Inv.withCtl h rfl rfl
  | generate =>
    exact Inv.withSyn h h.registers.params h.registers.capacity fun j hj => by cases hj; exact jobInRange_newJob h
  | map ctl _ _ hp =>
    refine Inv.withPm (Inv.withSyn h ?_ ?_ fun j hj => ?_) _
    · exact hp h.registers.params
    · exact h.registers.capacity
    · exact jobInRange_congr (h.job j hj) rfl rfl rfl
  | softReset => exact inv_softReset h
  | scanEnable v => exact Inv.writeScanEn h _
  | clearSticky | interrupt => exact Inv.withCtl h rfl rfl
  | scanStore unit _ hp =>
    exact Inv.of_scan h rfl rfl rfl rfl rfl (hp h.registers.period)
      ⟨h.scan.plane, h.scan.rowpair, h.scan.column, h.scan.pending, h.scan.setup⟩
      (outputInRange_congr h.output rfl rfl rfl)
  | ledStore _ hl ht => exact Inv.withLed h (ht h.registers.textLen) (by rw [hl]; exact h.list)
  | synStore fmt _ hp hc =>
    exact Inv.withSyn h (hp h.registers.params) (hc h.registers.capacity) fun j hj =>
      jobInRange_congr (h.job j hj) rfl rfl rfl
  | rawStore => exact Inv.withPm h _
  | pixel v hj => exact Inv.writeFb h _ hj
  | read => exact Inv.withEnv h _

theorem inv_dropIllegal (h : Inv s) (f : BitVec 6) : Inv (dropIllegal s f) := by
  rw [dropIllegal_of_running f h.notFatal]
  exact Inv.withCtl h rfl rfl

theorem inv_runAccess (h : Inv s) {x : Access} {t : State} (hr : runAccess x s = .next t) : Inv t := by
  unfold runAccess at hr
  split at hr
  · exact inv_of_effect h (exec_effect hr)
  · cases hr; exact inv_dropIllegal h _
  · cases hr; exact inv_dropIllegal h _
  · cases hr; exact inv_dropIllegal h _
  · cases hr; exact h

/-! ## LE -/

theorem inv_leStep (h : Inv s) : Inv (leStep s) := by
  unfold leStep
  split
  · exact h
  · split
    · exact h
    · refine Inv.withCtl (Inv.withLed h ?_ ?_) ?_ ?_
      exacts [h.registers.textLen, nofun, rfl, rfl]
    · next q l hl =>
      have onPanel := h.list _ hl
      obtain ⟨hx, hy⟩ := onPanel q List.mem_cons_self
      refine Inv.writeFb (Inv.withLed h ?_ fun k hk => ?_) q.c (pixelIndex_lt s.cfg hx hy)
      · exact h.registers.textLen
      · cases hk
        exact fun r hr => onPanel r (List.mem_cons_of_mem _ hr)

/-! ## SY -/

/-- A cache that holds the values of its indices still does when the entry of its next index is appended. -/
theorem extend_cache {f : Nat → F32} {l : List F32} {n : Nat} {needs : Bool} (values : l = (List.range l.length).map f)
    (len : l.length ≤ n) (room : needs = true → l.length < n) :
    (if needs then l ++ [f l.length] else l) =
      (List.range (if needs then l ++ [f l.length] else l).length).map f ∧
    (if needs then l ++ [f l.length] else l).length ≤ n := by
  split_ifs with h
  · rw [List.length_append, List.length_singleton, List.range_succ, List.map_append, ← values]
    exact ⟨rfl, room h⟩
  · exact ⟨values, len⟩

/-- A fill step appends to each cache in use the entry of its next index (40_synth.md R210). -/
theorem jobInRange_fillCaches {j : Job} (h : JobInRange s j) :
    JobInRange (withJob s (some (fillCaches s.cfg j))) (fillCaches s.cfg j) := by
  have pitch := extend_cache (needs := needsPitch s.cfg j) h.pitch h.pitchLen fun needs => by
    rw [needsPitch, Bool.and_eq_true, decide_eq_true_eq] at needs
    exact needs.2
  have envelope := extend_cache (needs := needsEnvelope s.cfg j) h.envelope h.envelopeLen fun needs => by
    rw [needsEnvelope, Bool.and_eq_true, decide_eq_true_eq] at needs
    exact needs.2
  exact ⟨h.params, h.index, h.capacity, h.pos, h.activeLen, pitch.1, pitch.2, envelope.1, envelope.2⟩

theorem lt_of_synAction_sample {p : Params} {j : Job} (h : synAction p j = .sample) : j.i < j.cap.toNat := by
  unfold synAction at h
  split_ifs at h
  assumption

theorem jobLen_congr {p : Params} {j k : Job} (cap : k.cap = j.cap) (par : k.par = j.par) : jobLen p k = jobLen p j := by
  rw [jobLen, jobLen, cap, par]

/-- The job after a sample: the next index, shown by SYN_POS, and a new phase (40_synth.md R230). -/
theorem jobInRange_advance {j : Job} (h : JobInRange s j) (hi : j.i < j.cap.toNat) (ph : F32) :
    JobInRange (s.withSyn { s.syn with pos := BitVec.ofNat 17 (j.i + 1) }) { j with i := j.i + 1, ph := ph } := by
  have len : jobLen s.cfg { j with i := j.i + 1, ph := ph } = jobLen s.cfg j := jobLen_congr rfl rfl
  refine ⟨h.params, hi, h.capacity, ?_, ?_, h.pitch, ?_, h.envelope, ?_⟩
  · show (BitVec.ofNat 17 (j.i + 1)).toNat = j.i + 1
    rw [BitVec.toNat_ofNat, Nat.mod_eq_of_lt (by have := j.cap.isLt; omega)]
  · rw [withSyn_cfg, len]; exact h.activeLen
  · rw [withSyn_cfg, len]; exact h.pitchLen
  · rw [withSyn_cfg, len]; exact h.envelopeLen

theorem inv_sampleStep (h : Inv s) {j : Job} (hj : s.syn.job = some j) (hi : j.i < j.cap.toNat) :
    Inv (sampleStep s j) := by
  have job := h.job j hj
  simp only [sampleStep]
  generalize sampleWord s.cfg j s.env = v
  have written := Inv.writeSram (Inv.withEnv h v.2.2) v.1 (Nat.lt_of_lt_of_le hi job.capacity)
  refine Inv.withEnv (Inv.withSyn written ?_ ?_ fun k hk => ?_) _
  · exact h.registers.params
  · exact h.registers.capacity
  · cases hk
    exact jobInRange_congr (jobInRange_advance job hi v.2.1) rfl rfl rfl

theorem inv_syStep (h : Inv s) : Inv (syStep s) := by
  unfold syStep
  split
  · exact h
  · split
    · exact h
    · next j hj =>
      unfold synStep
      split
      · exact Inv.withSyn h h.registers.params h.registers.capacity fun k hk => by
          cases hk; exact jobInRange_fillCaches (h.job j hj)
      · next e => exact inv_sampleStep h hj (lt_of_synAction_sample e)
      · refine Inv.withCtl (Inv.withSyn h ?_ ?_ ?_) ?_ ?_
        exacts [h.registers.params, h.registers.capacity, nofun, rfl, rfl]
      · exact h

/-! ## SE and the timer -/

theorem addrLines_lt (p : Params) (r : Nat) : (addrLines p r).toNat < 2 ^ addrBits p := by
  rw [addrLines, BitVec.toNat_ofNat]
  exact Nat.lt_of_le_of_lt (Nat.mod_le _ _) (Nat.mod_lt _ (Nat.two_pow_pos _))

/-- SE's frame: it keeps the invariant when it keeps the parts about the scan and the panel. -/
theorem Inv.seStep (h : Inv s) (scan : ScanInRange (seStep s)) (output : OutputInRange (seStep s))
    (period : (seStep s).scan.period = s.scan.period) : Inv (seStep s) := by
  refine Inv.of_scan h ?_ ?_ ?_ ?_ ?_ (by rw [period]; exact h.registers.period) scan output <;>
    (rw [seStep_frame]; rfl)

/-- The step of a phase (43_led_scan.md R363). -/
def phaseStep (s : State) : Phase → State
  | .idle => s
  | .setup => seSetup s
  | .shift c => seShift s c
  | .latch => seLatch s
  | .hold => seHold s
  | .fin hold => seEnd s hold

theorem seStep_of_phase {ph : Phase} (hf : s.ctl.fatal = false) (e : s.scan.phase = ph)
    (setup : ph = .setup → s.ctl.scanEn = true) : Machine.seStep s = phaseStep s ph := by
  unfold Machine.seStep
  rw [hf, if_neg (by decide), e]
  cases ph with
  | setup => simp only [setup rfl, if_true, phaseStep]
  | _ => rfl

theorem advanceSlot_keeps (s : State) : (advanceSlot s).cfg = s.cfg ∧ (advanceSlot s).panel = s.panel ∧
    (advanceSlot s).ctl.scanEn = s.ctl.scanEn ∧ (advanceSlot s).scan.period = s.scan.period ∧
    (advanceSlot s).scan.phase = s.scan.phase := by
  unfold advanceSlot
  split_ifs <;> exact ⟨rfl, rfl, rfl, rfl, rfl⟩

/-- What the end of END does to the scan: back to the first place when disabled, else a waiting or a new slot. -/
theorem endSlot_scan (s : State) :
    (s.ctl.scanEn = false ∧ (endSlot s).scan = scanRewind s.scan) ∨
    (s.ctl.scanEn = true ∧ (endSlot s).scan = { s.scan with tpend := false, phase := .setup }) ∨
    (s.ctl.scanEn = true ∧ s.scan.tpend = false ∧ (endSlot s).scan = { s.scan with phase := .idle }) := by
  cases en : s.ctl.scanEn
  · exact .inl ⟨rfl, by rw [endSlot_disabled s en]; rfl⟩
  · cases pending : s.scan.tpend
    · exact .inr (.inr ⟨rfl, rfl, by rw [endSlot_waiting s en pending]; rfl⟩)
    · exact .inr (.inl ⟨rfl, by rw [endSlot_pending s en pending]; rfl⟩)

/-- END leaves a place of the panel and the panel off (43_led_scan.md R363, R373). -/
theorem endSlot_advanceSlot_inRange {u : State} (place : ScanPlace u) (legal : configCheck u.cfg = true)
    (off : u.panel.oeN = true) (pclk : u.panel.pclk = false) (lat : u.panel.lat = false)
    (addr : u.panel.addr.toNat < 2 ^ addrBits u.cfg) :
    ScanInRange (endSlot (advanceSlot u)) ∧ OutputInRange (endSlot (advanceSlot u)) ∧
      (endSlot (advanceSlot u)).scan.period = u.scan.period := by
  obtain ⟨plane, row, -⟩ := advanceSlot_place place legal
  obtain ⟨cfg, panel, en, period, -⟩ := advanceSlot_keeps u
  rw [← cfg] at plane row addr
  rw [← panel] at off pclk lat addr
  rw [← period]
  generalize advanceSlot u = v at *
  have frame := endSlot_frame v
  have ecfg : (endSlot v).cfg = v.cfg := by rw [frame]; rfl
  have epanel : (endSlot v).panel = v.panel := by rw [frame]; rfl
  have een : (endSlot v).ctl.scanEn = v.ctl.scanEn := by rw [frame]; rfl
  rw [← ecfg] at plane row addr
  rw [← epanel] at off pclk lat addr
  rcases endSlot_scan v with ⟨-, e⟩ | ⟨on, e⟩ | ⟨-, pending, e⟩
  · refine ⟨⟨?_, ?_, ?_, ?_, ?_⟩, outputInRange_of_dark off ?_ pclk lat addr, ?_⟩ <;> rw [e]
    exacts [Nat.lt_of_le_of_lt (Nat.zero_le _) plane, Nat.lt_of_le_of_lt (Nat.zero_le _) row, nofun, nofun, nofun, nofun, rfl]
  · refine ⟨⟨?_, ?_, ?_, ?_, ?_⟩, outputInRange_of_dark off ?_ pclk lat addr, ?_⟩ <;> rw [e]
    exacts [plane, row, nofun, nofun, fun _ => een.trans on, nofun]
  · refine ⟨⟨?_, ?_, ?_, ?_, ?_⟩, outputInRange_of_dark off ?_ pclk lat addr, ?_⟩ <;> rw [e]
    exacts [plane, row, nofun, fun p => absurd (pending.symm.trans p) (by decide), nofun, nofun]

theorem inv_seStep (h : Inv s) : Inv (seStep s) := by
  obtain ⟨hplane, hrow, hcol, hpend, hsetup⟩ := h.scan
  obtain ⟨-, pclk, lat, addr⟩ := h.output
  have hw := (configCheck_iff.mp h.legal).1
  have inSlot : ∀ ph, s.scan.phase = ph → (∀ hold, ph ≠ .fin hold) → s.panel.oeN = true := fun ph e hn =>
    oeN_of_phase h.output (by rw [e]; exact hn)
  have step := seStep_of_phase h.notFatal rfl hsetup
  cases e : s.scan.phase with
  | idle => rw [e] at step; rw [step, phaseStep]; exact h
  | setup =>
    rw [e] at step
    apply Inv.seStep h <;> rw [step, phaseStep]
    · exact ⟨hplane, hrow, fun c hc => by cases hc; exact hw.1, nofun, nofun⟩
    · exact outputInRange_of_dark rfl nofun pclk lat (addrLines_lt _ _)
    · rfl
  | shift c =>
    rw [e] at step
    have next : (seShift s c).scan.phase = if c + 1 < s.cfg.w then .shift (c + 1) else .latch := rfl
    apply Inv.seStep h <;> rw [step, phaseStep]
    · refine ⟨hplane, hrow, fun d hd => ?_, fun _ => ?_, ?_⟩
      · rw [next] at hd
        split_ifs at hd with hc
        cases hd; exact hc
      · rw [next]; split_ifs <;> nofun
      · rw [next]; split_ifs <;> nofun
    · refine outputInRange_of_dark (inSlot _ e nofun) (fun hold => ?_) rfl lat addr
      rw [next]; split_ifs <;> nofun
    · rfl
  | latch =>
    rw [e] at step
    apply Inv.seStep h <;> rw [step, phaseStep]
    · exact ⟨hplane, hrow, nofun, nofun, nofun⟩
    · exact outputInRange_of_dark (inSlot _ e nofun) nofun pclk rfl addr
    · rfl
  | hold =>
    rw [e] at step
    have off := inSlot _ e nofun
    apply Inv.seStep h <;> rw [step, phaseStep] <;> simp only [seHold] <;> split_ifs with lit
    · exact ⟨hplane, hrow, nofun, nofun, nofun⟩
    · exact ⟨hplane, hrow, nofun, nofun, nofun⟩
    · exact ⟨⟨fun _ => ⟨_, rfl, lit⟩, fun _ => rfl⟩, pclk, lat, addr⟩
    · refine ⟨⟨fun on => ?_, fun ⟨hold, eh, pos⟩ => ?_⟩, pclk, lat, addr⟩
      · exact absurd (off.symm.trans on) (by decide)
      · cases eh; exact absurd pos lit
    · rfl
    · rfl
  | fin hold =>
    rw [e] at step
    have place : ScanPlace s := ⟨hplane, hrow, hcol⟩
    have ended : ScanInRange (seEnd s hold) ∧ OutputInRange (seEnd s hold) ∧
        (seEnd s hold).scan.period = s.scan.period := by
      unfold seEnd
      simp only
      split_ifs
      · exact endSlot_advanceSlot_inRange ⟨hplane, hrow, hcol⟩ h.legal rfl pclk lat addr
      · exact endSlot_advanceSlot_inRange ⟨hplane, hrow, hcol⟩ h.legal rfl pclk lat addr
    apply Inv.seStep h <;> rw [step, phaseStep]
    exacts [ended.1, ended.2.1, ended.2.2]

/-- A tick while the scan is enabled keeps the invariant. -/
theorem inv_tick (h : Inv s) (en : s.ctl.scanEn = true) : Inv (tick s) := by
  obtain ⟨hplane, hrow, hcol, hpend, hsetup⟩ := h.scan
  unfold tick
  split
  · next e =>
    have dim : s.panel.oeN = true := oeN_of_phase h.output (by rw [e]; nofun)
    refine Inv.of_scan h rfl rfl rfl rfl rfl h.registers.period ⟨hplane, hrow, nofun, nofun, fun _ => en⟩ ?_
    exact outputInRange_of_dark dim nofun h.output.pclk h.output.lat h.output.addr
  all_goals
    next e =>
      refine Inv.of_scan h rfl rfl rfl rfl rfl h.registers.period
        ⟨hplane, hrow, hcol, fun _ => ?_, hsetup⟩ (outputInRange_congr h.output rfl rfl rfl)
      show s.scan.phase ≠ .idle
      rw [e]
      nofun

theorem inv_timerStep (h : Inv s) : Inv (timerStep s) := by
  obtain ⟨hplane, hrow, hcol, hpend, hsetup⟩ := h.scan
  have counts : ∀ n, Inv (s.withScan { s.scan with tcnt := n }) := fun n =>
    Inv.of_scan h rfl rfl rfl rfl rfl h.registers.period ⟨hplane, hrow, hcol, hpend, hsetup⟩
      (outputInRange_congr h.output rfl rfl rfl)
  unfold timerStep
  split_ifs with run
  · rw [Bool.and_eq_true] at run
    exact inv_tick (counts _) run.1
  · exact counts _
  · exact h

/-! ## Every step -/

theorem inv_engineStep (h : Inv s) (a : Agent) : Inv (engineStep a s) := by
  unfold engineStep
  split_ifs
  · exact h
  · cases a with
    | host => exact h
    | le => exact inv_leStep h
    | se => exact inv_seStep h
    | sy => exact inv_syStep h
    | timer => exact inv_timerStep h

theorem inv_releaseReset (h : Inv s) : Inv (releaseReset s) := by
  unfold releaseReset
  split_ifs
  · exact inv_resetOf _ h.legal (memoryInWindows_nil _)
  · exact h

end

/-- Settles O59: each kind of step keeps the invariant. -/
theorem everyStepKeepsTheInvariant : Obligations.EveryStepKeepsTheInvariant := by
  intro s t h hs
  have taken := Inv.takeTurn h
  rcases step_cases hs with ⟨-, rfl⟩ | ⟨-, rfl⟩ | ⟨a, -, -, rfl⟩ | ⟨-, rfl | rfl | ⟨x, -, hr⟩⟩
  · exact Inv.withEnv taken _
  · exact inv_releaseReset taken
  · exact inv_engineStep taken a
  · exact taken
  · exact Inv.withEnv taken _
  · exact inv_runAccess (Inv.withEnv taken _) hr

/-! ## Which agents write the memories -/

/-- What a step without the end of a hard reset can do to the bytes: nothing, LE's pixel, SY's sample, or HOST's pixel. -/
theorem step_memory {s t : State} (h : step s = .next t) (hr : ¬EndsReset s) :
    KeepsMemory s t ∨ (nextTurn s = .agent .le ∧ t = leStep (takeTurn s)) ∨
      (nextTurn s = .agent .sy ∧ t = syStep (takeTurn s)) ∨
      (nextTurn s = .agent .host ∧ ∃ x j v, HostDoes s x ∧ decode x = .instr (.wrFb j v) ∧
        exec (.wrFb j v) (popAccess (takeTurn s)) = .next t) := by
  have keeps : ∀ t : State, t.mem = (takeTurn s).mem → t.env.epoch = (takeTurn s).env.epoch → KeepsMemory s t :=
    fun t hm he => readByte_congr (by rw [hm, takeTurn_mem]) (by rw [he, takeTurn_epoch])
  rcases step_cases h with ⟨-, rfl⟩ | ⟨turn, rfl⟩ | ⟨a, -, turn, rfl⟩ | ⟨turn, rfl | rfl | ⟨x, hx, hrun⟩⟩
  · exact .inl (keeps _ rfl rfl)
  · have running : (takeTurn s).env.inReset ≠ true := fun e => hr ⟨turn, by rw [← takeTurn_inReset]; exact e⟩
    left
    unfold releaseReset
    rw [if_neg running]
    exact keeps _ rfl rfl
  · unfold engineStep
    split_ifs
    · exact .inl (keeps _ rfl rfl)
    · cases a with
      | host => exact .inl (keeps _ rfl rfl)
      | le => exact .inr (.inl ⟨turn, rfl⟩)
      | se => exact .inl (keeps _ (seStep_memory _).1 (seStep_memory _).2)
      | sy => exact .inr (.inr (.inl ⟨turn, rfl⟩))
      | timer => left; simp only; rw [timerStep_frame]; exact keeps _ rfl rfl
  · exact .inl (keeps _ rfl rfl)
  · exact .inl (keeps _ rfl rfl)
  · by_cases fb : ∃ j v, decode x = .instr (.wrFb j v)
    · obtain ⟨j, v, hdec⟩ := fb
      rw [runAccess_of_instr hdec] at hrun
      exact .inr (.inr (.inr ⟨turn, x, j, v, hx, hdec, hrun⟩))
    · left
      unfold runAccess at hrun
      split at hrun
      · next i hdec =>
        obtain ⟨hm, he⟩ := effect_mem (exec_effect hrun) fun j v e => fb ⟨j, v, by rw [hdec, e]⟩
        exact keeps _ hm he
      · cases hrun; exact keeps _ (by unfold dropIllegal; split <;> rfl) (by unfold dropIllegal; split <;> rfl)
      · cases hrun; exact keeps _ (by unfold dropIllegal; split <;> rfl) (by unfold dropIllegal; split <;> rfl)
      · cases hrun; exact keeps _ (by unfold dropIllegal; split <;> rfl) (by unfold dropIllegal; split <;> rfl)
      · cases hrun; exact keeps _ rfl rfl

/-- LE writes below the SRAM window (10_state.md R100). -/
theorem leStep_above {s : State} (h : Inv s) {a : Nat} (ha : sramBase ≤ a) : readByte (leStep s) a = readByte s a := by
  unfold leStep
  split
  · rfl
  · split
    · rfl
    · rfl
    · next q l hl =>
      obtain ⟨hx, hy⟩ := h.list _ hl q List.mem_cons_self
      have below := fbAddr_below h.legal (pixelIndex_lt s.cfg hx hy)
      exact readByte_writeFb_other _ _ _ (.inr (by simp only [withLed_cfg]; omega))

/-- SY writes from the SRAM window on. -/
theorem syStep_below (s : State) {a : Nat} (ha : a < sramBase) : readByte (syStep s) a = readByte s a := by
  unfold syStep
  split
  · rfl
  · split
    · rfl
    · unfold synStep
      split
      · rfl
      · exact sampleStep_below s _ ha
      · rfl
      · rfl

theorem exec_wrFb_above {s t : State} {j : BitVec 16} {v : Word} (hc : configCheck s.cfg = true)
    (h : exec (.wrFb j v) s = .next t) {a : Nat} (ha : sramBase ≤ a) : readByte t a = readByte s a := by
  by_cases hj : j.toNat < s.cfg.w * s.cfg.h
  · have := fbAddr_below hc hj
    exact exec_wrFb_keepsOutside h a (.inr (by omega))
  · simp only [exec, execWrFb, hj, if_false] at h
    cases h; rfl

theorem readByte_takeTurn (s : State) (a : Nat) : readByte (takeTurn s) a = readByte s a :=
  readByte_congr (takeTurn_mem s) (takeTurn_epoch s) a

/-- Settles O60: of the steps that store, LE's and HOST's store below the SRAM window and SY's from there on. -/
theorem onlyTheirEnginesWriteTheMemories : Obligations.OnlyTheirEnginesWriteTheMemories := by
  intro s t h hs hr
  rcases step_memory hs hr with keeps | ⟨turn, rfl⟩ | ⟨turn, rfl⟩ | ⟨turn, x, j, v, hx, hdec, hexec⟩
  · exact ⟨fun _ a _ => keeps a, fun _ _ a _ => keeps a⟩
  · refine ⟨fun _ a ha => ?_, fun other => absurd turn other⟩
    rw [leStep_above (Inv.takeTurn h) ha, readByte_takeTurn]
  · refine ⟨fun other => absurd turn other, fun _ _ a ha => ?_⟩
    rw [syStep_below _ ha, readByte_takeTurn]
  · refine ⟨fun _ a ha => ?_, fun _ no => absurd hdec (no x j v hx)⟩
    rw [exec_wrFb_above (by simpa using h.legal) hexec ha]
    exact readByte_takeTurn s a

end Sys2Proof.Proofs.Invariant
end

section
/-! SUPPORT. The drawing commands: what they list (42_led_draw.md), the midpoint circle, and how LE performs a list. -/

namespace Sys2Proof.Proofs.Drawing

open Sys2Proof Sys2Proof.Machine

/-! ## CLEAR and FILL -/

/-- The elements of a grid, row by row. -/
def rowMajor {α : Type} (f : Nat → Nat → α) (w h : Nat) : List α :=
  (List.range h).flatMap fun y => (List.range w).map fun x => f x y

theorem rowMajor_succ {α : Type} (f : Nat → Nat → α) (w h : Nat) :
    rowMajor f w (h + 1) = rowMajor f w h ++ (List.range w).map fun x => f x h := by
  simp only [rowMajor, List.range_succ, List.flatMap_append, List.flatMap_singleton]

theorem length_rowMajor {α : Type} (f : Nat → Nat → α) (w h : Nat) : (rowMajor f w h).length = w * h := by
  induction h with
  | zero => rfl
  | succ h ih => rw [rowMajor_succ, List.length_append, ih, List.length_map, List.length_range, Nat.mul_succ]

/-- Element `k` of a grid stands in column `k % w` of row `k / w`. -/
theorem getElem?_rowMajor {α : Type} (f : Nat → Nat → α) {w h k : Nat} (hk : k < w * h) :
    (rowMajor f w h)[k]? = some (f (k % w) (k / w)) := by
  induction h with
  | zero => exact absurd hk (Nat.not_lt_zero k)
  | succ h ih =>
    rw [rowMajor_succ]
    rcases Nat.lt_or_ge k (w * h) with before | last
    · rw [List.getElem?_append_left (by rw [length_rowMajor]; exact before), ih before]
    · obtain ⟨r, rfl⟩ := Nat.exists_eq_add_of_le last
      have hr : r < w := by rw [Nat.mul_succ] at hk; omega
      rw [List.getElem?_append_right (by rw [length_rowMajor]; omega), length_rowMajor, Nat.add_sub_cancel_left,
        Nat.mul_add_mod, Nat.mod_eq_of_lt hr, Nat.mul_add_div (by omega), Nat.div_eq_of_lt hr, Nat.add_zero]
      simp [hr]

theorem drawFill_eq_rowMajor (p : Params) (c : Pixel) : drawFill p c = rowMajor (fun x y => ⟨x, y, c⟩) p.w p.h :=
  drawFill_eq p c

theorem getElem?_drawFill (p : Params) (c : Pixel) (k : Nat) (hk : k < (drawFill p c).length) :
    (drawFill p c)[k]? = some ⟨k % p.w, k / p.w, c⟩ := by
  rw [drawFill_eq_rowMajor] at hk ⊢
  rw [length_rowMajor] at hk
  exact getElem?_rowMajor _ hk

theorem length_drawFill (p : Params) (c : Pixel) : (drawFill p c).length = p.w * p.h := by
  rw [drawFill_eq_rowMajor, length_rowMajor]

/-- Settles O12. -/
theorem clearAndFillListThePanel : Obligations.ClearAndFillListThePanel := fun _ hf hb =>
  ⟨⟨_, ledCommand_of_idle _ _ hf hb, length_drawFill _ _, getElem?_drawFill _ _⟩,
    ⟨_, ledCommand_of_idle _ _ hf hb, length_drawFill _ _, getElem?_drawFill _ _⟩⟩

/-! ## PIXEL, RECT, FRECT and CIRCLE -/

theorem plot_eq_clipped (p : Params) (c : Pixel) (x y : Int) : plot p c x y = clipped p c [(x, y)] := by
  rw [← flatMap_plot, List.flatMap_singleton]

theorem drawRect_eq (p : Params) (c : Pixel) (x y wr ht : Int) :
    drawRect p c x y wr ht = clipped p c (if 0 < wr ∧ 0 < ht then
      (List.range wr.toNat).map (fun (i : Nat) => (x + (i : Int), y)) ++
      (List.range wr.toNat).map (fun (i : Nat) => (x + (i : Int), y + ht - 1)) ++
      (List.range ht.toNat).map (fun (j : Nat) => (x, y + (j : Int))) ++
      (List.range ht.toNat).map (fun (j : Nat) => (x + wr - 1, y + (j : Int))) else []) := by
  unfold drawRect
  split_ifs
  · rw [clipped_append, clipped_append, clipped_append, ← intRange_flatMap_plot p c _ fun i => (x + i, y),
      ← intRange_flatMap_plot p c _ fun i => (x + i, y + ht - 1), ← intRange_flatMap_plot p c _ fun j => (x, y + j),
      ← intRange_flatMap_plot p c _ fun j => (x + wr - 1, y + j)]
  · rfl

theorem drawFrect_eq (p : Params) (c : Pixel) (x y wr ht : Int) :
    drawFrect p c x y wr ht =
      clipped p c (if 0 < wr ∧ 0 < ht then gridPoints x y wr.toNat ht.toNat else []) := by
  unfold drawFrect
  split_ifs
  · exact grid_flatMap_plot p c x y _ _
  · rfl

theorem drawCircle_eq (p : Params) (c : Pixel) (x y r : Int) :
    drawCircle p c x y r = clipped p c (if 0 ≤ r then outline x y r else []) := by
  unfold drawCircle
  split_ifs
  · exact flatMap_plot p c _
  · rfl

/-- Settles O13. -/
theorem pixelAndRectanglesListTheirPoints : Obligations.PixelAndRectanglesListTheirPoints := by
  intro s hf hb
  refine ⟨?_, ?_, ?_⟩
  · exact (ledCommand_of_idle _ _ hf hb).trans (by rw [plot_eq_clipped]; rfl)
  · exact (ledCommand_of_idle _ _ hf hb).trans (by rw [drawRect_eq]; rfl)
  · exact (ledCommand_of_idle _ _ hf hb).trans (by rw [drawFrect_eq]; rfl)

/-- Settles O14. -/
theorem circleListsItsOutline : Obligations.CircleListsItsOutline := fun s hf hb =>
  (ledCommand_of_idle _ _ hf hb).trans (by rw [drawCircle_eq]; rfl)

/-! ## The midpoint outline -/

/-- A point at distances `a` and `b` from the centre (x, y), in either order and with either sign. -/
def OnOctant (x y a b : Int) (q : Int × Int) : Prop :=
  (|q.1 - x| = |a| ∧ |q.2 - y| = |b|) ∨ (|q.1 - x| = |b| ∧ |q.2 - y| = |a|)

theorem onOctant_of_mem {x y a b : Int} {q : Int × Int} (h : q ∈ octants x y a b) : OnOctant x y a b q := by
  simp only [octants, List.mem_cons, List.not_mem_nil, or_false] at h
  rcases h with rfl | rfl | rfl | rfl | rfl | rfl | rfl | rfl <;> simp [OnOctant, abs_neg]

theorem onOctant_of_axis {x y r : Int} {q : Int × Int}
    (h : q ∈ [(x, y + r), (x, y - r), (x + r, y), (x - r, y)]) : OnOctant x y 0 r q := by
  simp only [List.mem_cons, List.not_mem_nil, or_false] at h
  rcases h with rfl | rfl | rfl | rfl <;> simp [OnOctant, abs_neg]

/-- What holds before each pass of the midpoint loop for the circle of radius `r`: the decision value and its
increments are functions of the place (a, b), which lies within half a pixel of the circle (42_led_draw.md R309). -/
structure MidpointPlace (r f ddx ddy a b : Int) : Prop where
  a_nonneg : 0 ≤ a
  a_le : a ≤ r
  b_nonneg : 0 ≤ b
  b_le : b ≤ r
  decision : f = (a + 1) ^ 2 + b ^ 2 - b - r ^ 2
  ddx_eq : ddx = 2 * a + 1
  ddy_eq : ddy = -2 * b
  low : -max a b ≤ a ^ 2 + b ^ 2 - r ^ 2
  high : a ^ 2 + b ^ 2 - r ^ 2 ≤ max a b

theorem midpointPlace_start {r : Int} (hr : 0 ≤ r) : MidpointPlace r (1 - r) 1 (-2 * r) 0 r :=
  ⟨le_refl 0, hr, hr, le_refl r, by ring, by ring, by ring, by rw [max_eq_right hr]; linarith,
    by rw [max_eq_right hr]; linarith⟩

/-- A pass that moves `b` as well: the decision value says that the point above is outside. -/
theorem MidpointPlace.diagonal {r f ddx ddy a b : Int} (h : MidpointPlace r f ddx ddy a b) (hab : a < b) (hf : 0 ≤ f) :
    MidpointPlace r (f + (ddy + 2) + (ddx + 2)) (ddx + 2) (ddy + 2) (a + 1) (b - 1) := by
  obtain ⟨ha, har, hb, hbr, rfl, rfl, rfl, low, high⟩ := h
  rw [max_eq_right hab.le] at low high
  refine ⟨by omega, by omega, by omega, by omega, by ring, by ring, by ring, ?_, ?_⟩
  · have := le_max_right (a + 1) (b - 1)
    nlinarith
  · have := le_max_left (a + 1) (b - 1)
    nlinarith

/-- A pass that moves `a` alone. -/
theorem MidpointPlace.straight {r f ddx ddy a b : Int} (h : MidpointPlace r f ddx ddy a b) (hab : a < b) (hf : f < 0) :
    MidpointPlace r (f + (ddx + 2)) (ddx + 2) ddy (a + 1) b := by
  obtain ⟨ha, har, hb, hbr, rfl, rfl, rfl, low, high⟩ := h
  rw [max_eq_right hab.le] at low high
  have := le_max_right (a + 1) b
  exact ⟨by omega, by omega, hb, hbr, by ring, by ring, rfl, by nlinarith, by nlinarith⟩

/-- Every point of the loop lies in the octants of a place of the circle. -/
theorem place_of_mem_outlineLoop {x y r : Int} {q : Int × Int} (n : Nat) {f ddx ddy a b : Int}
    (h : MidpointPlace r f ddx ddy a b) (hq : q ∈ outlineLoop x y n f ddx ddy a b) :
    ∃ f ddx ddy a b, MidpointPlace r f ddx ddy a b ∧ OnOctant x y a b q := by
  induction n generalizing f ddx ddy a b with
  | zero => cases hq
  | succ n ih =>
    unfold outlineLoop at hq
    split_ifs at hq with hab hf
    · have next := h.diagonal hab hf
      rcases List.mem_append.mp hq with here | later
      · exact ⟨_, _, _, _, _, next, onOctant_of_mem here⟩
      · exact ih next later
    · have next := h.straight hab (by omega)
      rcases List.mem_append.mp hq with here | later
      · exact ⟨_, _, _, _, _, next, onOctant_of_mem here⟩
      · exact ih next later
    · cases hq

theorem place_of_mem_outline {x y r : Int} (hr : 0 ≤ r) {q : Int × Int} (hq : q ∈ outline x y r) :
    ∃ f ddx ddy a b, MidpointPlace r f ddx ddy a b ∧ OnOctant x y a b q := by
  rcases List.mem_append.mp hq with axis | loop
  · exact ⟨_, _, _, _, _, midpointPlace_start hr, onOctant_of_axis axis⟩
  · exact place_of_mem_outlineLoop _ (midpointPlace_start hr) loop

/-- Settles O16: the place of a point is within max(a, b) of the circle, and u, v are a, b up to order and sign. -/
theorem circleOutlineIsRound : Obligations.CircleOutlineIsRound := by
  intro x y r hr q hq
  obtain ⟨f, ddx, ddy, a, b, ⟨ha, -, hb, -, -, -, -, low, high⟩, place⟩ := place_of_mem_outline hr hq
  rw [← sq_abs (q.1 - x), ← sq_abs (q.2 - y), abs_le]
  rcases place with ⟨hu, hv⟩ | ⟨hu, hv⟩ <;> rw [hu, hv, abs_of_nonneg ha, abs_of_nonneg hb]
  · exact ⟨low, high⟩
  · rw [max_comm, add_comm]
    exact ⟨low, high⟩

/-- No point of the outline is farther than `r` rows from the centre. -/
theorem row_of_mem_outline {x y r : Int} (hr : 0 ≤ r) {q : Int × Int} (hq : q ∈ outline x y r) :
    y - r ≤ q.2 ∧ q.2 ≤ y + r := by
  obtain ⟨f, ddx, ddy, a, b, ⟨ha, har, hb, hbr, -⟩, place⟩ := place_of_mem_outline hr hq
  have : |q.2 - y| ≤ r := by
    rcases place with ⟨-, hv⟩ | ⟨-, hv⟩ <;> rw [hv, abs_of_nonneg (by assumption)] <;> assumption
  rw [abs_le] at this
  omega

/-- The rows at distance `k` from the centre both hold a point. -/
def MeetsRows (y k : Int) (l : List (Int × Int)) : Prop := (∃ px, (px, y + k) ∈ l) ∧ ∃ px, (px, y - k) ∈ l

theorem MeetsRows.append_left {y k : Int} {l : List (Int × Int)} (m : List (Int × Int)) (h : MeetsRows y k l) :
    MeetsRows y k (l ++ m) :=
  h.imp (fun ⟨px, hp⟩ => ⟨px, List.mem_append_left m hp⟩) fun ⟨px, hp⟩ => ⟨px, List.mem_append_left m hp⟩

theorem MeetsRows.append_right {y k : Int} (l : List (Int × Int)) {m : List (Int × Int)} (h : MeetsRows y k m) :
    MeetsRows y k (l ++ m) :=
  h.imp (fun ⟨px, hp⟩ => ⟨px, List.mem_append_right l hp⟩) fun ⟨px, hp⟩ => ⟨px, List.mem_append_right l hp⟩

theorem octants_meetsRows (x y a b : Int) : MeetsRows y a (octants x y a b) ∧ MeetsRows y b (octants x y a b) :=
  ⟨⟨⟨x + b, by simp [octants]⟩, ⟨x + b, by simp [octants]⟩⟩, ⟨x + a, by simp [octants]⟩, ⟨x + a, by simp [octants]⟩⟩

/-- The loop steps `a` up and `b` down by at most 1 until they meet, so it passes every distance between them. -/
theorem outlineLoop_meetsRows (x y : Int) (n : Nat) {f ddx ddy a b k : Int} (fuel : b - a ≤ n) (hak : a < k)
    (hkb : k < b) : MeetsRows y k (outlineLoop x y n f ddx ddy a b) := by
  induction n generalizing f ddx ddy a b with
  | zero => push_cast at fuel; omega
  | succ n ih =>
    push_cast at fuel
    unfold outlineLoop
    rw [if_pos (by omega)]
    simp only
    obtain ⟨meetsA, meetsB⟩ := octants_meetsRows x y (a + 1) (if 0 ≤ f then b - 1 else b)
    generalize hb1 : (if 0 ≤ f then b - 1 else b) = b1 at *
    have hb1 : b1 = b - 1 ∨ b1 = b := by split_ifs at hb1 <;> omega
    rcases eq_or_ne k (a + 1) with rfl | hka
    · exact meetsA.append_left _
    rcases eq_or_ne k b1 with rfl | hkb1
    · exact meetsB.append_left _
    exact (ih (by omega) (by omega) (by omega)).append_right _

/-- Settles O17: the four axis points meet the rows at distance 0 and r, the loop those in between. -/
theorem circleOutlineMeetsEveryRow : Obligations.CircleOutlineMeetsEveryRow := by
  intro x y r d hlo hhi
  have rows : ∀ k, 0 ≤ k → k ≤ r → MeetsRows y k (outline x y r) := by
    intro k hk hkr
    rcases eq_or_ne k 0 with rfl | h0
    · exact ⟨⟨x + r, by simp [outline]⟩, ⟨x + r, by simp [outline]⟩⟩
    rcases eq_or_ne k r with rfl | hr
    · exact ⟨⟨x, by simp [outline]⟩, ⟨x, by simp [outline]⟩⟩
    exact (outlineLoop_meetsRows x y r.toNat (by omega) (by omega) (by omega)).append_right _
  rcases le_total y d with h | h
  · obtain ⟨⟨px, hp⟩, -⟩ := rows (d - y) (by omega) (by omega)
    exact ⟨px, by rwa [add_sub_cancel] at hp⟩
  · obtain ⟨-, px, hp⟩ := rows (y - d) (by omega) (by omega)
    exact ⟨px, by rwa [sub_sub_cancel] at hp⟩

/-! ## FCIRCLE -/

theorem mem_intRange {lo z : Int} {n : Nat} : z ∈ intRange lo n ↔ lo ≤ z ∧ z < lo + n := by
  simp only [intRange, List.mem_map, List.mem_range]
  constructor
  · rintro ⟨i, hi, rfl⟩; omega
  · rintro ⟨h1, h2⟩; exact ⟨(z - lo).toNat, by omega, by omega⟩

theorem foldl_min_le (x : Int) (l : List Int) : l.foldl min x ≤ x ∧ (∀ a ∈ l, l.foldl min x ≤ a) ∧
    (l.foldl min x = x ∨ l.foldl min x ∈ l) := by
  induction l generalizing x with
  | nil => exact ⟨le_refl x, nofun, .inl rfl⟩
  | cons b l ih =>
    obtain ⟨h1, h2, h3⟩ := ih (min x b)
    simp only [List.foldl_cons, List.mem_cons, forall_eq_or_imp]
    refine ⟨h1.trans (min_le_left _ _), ⟨h1.trans (min_le_right _ _), h2⟩, ?_⟩
    rcases h3 with h3 | h3
    · rw [h3]; rcases min_choice x b with h | h <;> rw [h]
      exacts [.inl rfl, .inr (.inl rfl)]
    · exact .inr (.inr h3)

theorem le_foldl_max (x : Int) (l : List Int) : x ≤ l.foldl max x ∧ (∀ a ∈ l, a ≤ l.foldl max x) ∧
    (l.foldl max x = x ∨ l.foldl max x ∈ l) := by
  induction l generalizing x with
  | nil => exact ⟨le_refl x, nofun, .inl rfl⟩
  | cons b l ih =>
    obtain ⟨h1, h2, h3⟩ := ih (max x b)
    simp only [List.foldl_cons, List.mem_cons, forall_eq_or_imp]
    refine ⟨(le_max_left _ _).trans h1, ⟨(le_max_right _ _).trans h1, h2⟩, ?_⟩
    rcases h3 with h3 | h3
    · rw [h3]; rcases max_choice x b with h | h <;> rw [h]
      exacts [.inl rfl, .inr (.inl rfl)]
    · exact .inr (.inr h3)

/-- A span holds the columns between two of the list. -/
theorem mem_columnSpan {l : List Int} {z : Int} : z ∈ columnSpan l ↔ ∃ a ∈ l, ∃ b ∈ l, a ≤ z ∧ z ≤ b := by
  cases l with
  | nil => simp [columnSpan]
  | cons x l =>
    obtain ⟨min1, min2, min3⟩ := foldl_min_le x l
    obtain ⟨max1, max2, max3⟩ := le_foldl_max x l
    have least : ∀ a ∈ x :: l, l.foldl min x ≤ a := by simpa using ⟨min1, min2⟩
    have greatest : ∀ a ∈ x :: l, a ≤ l.foldl max x := by simpa using ⟨max1, max2⟩
    have minMem : l.foldl min x ∈ x :: l := by simpa using min3
    have maxMem : l.foldl max x ∈ x :: l := by simpa using max3
    rw [columnSpan, mem_intRange]
    constructor
    · intro h
      exact ⟨_, minMem, _, maxMem, h.1, by omega⟩
    · rintro ⟨a, ha, b, hb, haz, hzb⟩
      have := least a ha
      have := greatest b hb
      omega

/-- The columns that FCIRCLE fills in a row lie between two outline points of the row. -/
theorem mem_rowSpan {x y r z py : Int} :
    z ∈ columnSpan (((outline x y r).filter fun q => q.2 = py).map Prod.fst) ↔
      ∃ x1 x2 : Int, (x1, py) ∈ outline x y r ∧ (x2, py) ∈ outline x y r ∧ x1 ≤ z ∧ z ≤ x2 := by
  have row : ∀ a : Int, a ∈ ((outline x y r).filter fun q => q.2 = py).map Prod.fst ↔ (a, py) ∈ outline x y r := by
    intro a
    simp only [List.mem_map, List.mem_filter, decide_eq_true_eq]
    constructor
    · rintro ⟨⟨u, v⟩, ⟨h, rfl⟩, rfl⟩; exact h
    · intro h; exact ⟨(a, py), ⟨h, rfl⟩, rfl⟩
  rw [mem_columnSpan]
  constructor
  · rintro ⟨a, ha, b, hb, h⟩; exact ⟨a, b, (row a).mp ha, (row b).mp hb, h⟩
  · rintro ⟨a, b, ha, hb, h⟩; exact ⟨a, (row a).mpr ha, b, (row b).mpr hb, h⟩

theorem mem_drawFcircle {p : Params} {c : Pixel} {x y r : Int} {q : PixelWrite} :
    q ∈ drawFcircle p c x y r ↔ 0 ≤ r ∧ ∃ px py : Int, (0 ≤ px ∧ px < p.w ∧ 0 ≤ py ∧ py < p.h) ∧
      (∃ x1 x2 : Int, (x1, py) ∈ outline x y r ∧ (x2, py) ∈ outline x y r ∧ x1 ≤ px ∧ px ≤ x2) ∧
      q = ⟨px.toNat, py.toNat, c⟩ := by
  unfold drawFcircle
  split_ifs with hr
  · simp only [List.mem_flatMap, mem_plot, mem_rowSpan, mem_intRange, hr, true_and]
    constructor
    · rintro ⟨py, -, px, span, onPanel, hq⟩
      exact ⟨px, py, onPanel, span, hq⟩
    · rintro ⟨px, py, onPanel, ⟨x1, x2, h1, h⟩, hq⟩
      have := row_of_mem_outline hr h1
      exact ⟨py, by omega, px, ⟨x1, x2, h1, h⟩, onPanel, hq⟩
  · simp [hr]

/-- Settles O15: a listed point and the pixel it stands for determine each other on the panel. -/
theorem filledCircleFillsItsRows : Obligations.FilledCircleFillsItsRows := by
  intro s hf hb
  refine ⟨_, ledCommand_of_idle _ _ hf hb, fun q hq => ?_, fun px py => ?_⟩
  · obtain ⟨-, -, -, -, -, rfl⟩ := mem_drawFcircle.mp hq
    rfl
  · constructor
    · rintro ⟨q, hq, rfl, rfl⟩
      obtain ⟨hr, px, py, ⟨hx0, hxw, hy0, hyh⟩, span, rfl⟩ := mem_drawFcircle.mp hq
      obtain ⟨u, rfl⟩ := Int.eq_ofNat_of_zero_le hx0
      obtain ⟨v, rfl⟩ := Int.eq_ofNat_of_zero_le hy0
      exact ⟨Int.ofNat_lt.mp hxw, Int.ofNat_lt.mp hyh, hr, span⟩
    · rintro ⟨hx, hy, hr, span⟩
      exact ⟨⟨px, py, s.led.lcolor⟩, mem_drawFcircle.mpr ⟨hr, px, py, by omega, span, rfl⟩, rfl, rfl⟩

/-! ## Text and scroll -/

theorem definedChar_iff (ch : Byte) : definedChar ch = true ↔
    ch.toNat = 0x20 ∨ ch.toNat = 0x21 ∨ (0x30 ≤ ch.toNat ∧ ch.toNat ≤ 0x39) ∨ (0x41 ≤ ch.toNat ∧ ch.toNat ≤ 0x5A) :=
  decide_eq_true_iff

theorem glyphLit_of_ne_space {ch : Byte} (h : ch ≠ 0x20#8) (j i : Nat) : glyphLit ch j i = Config.fontBit ch j i := by
  rw [glyphLit, bne_iff_ne.mpr h, Bool.true_and]

/-- Settles O18. -/
theorem textListsItsGlyphs : Obligations.TextListsItsGlyphs := by
  refine ⟨definedChar_iff, by decide +kernel, fun j i => rfl, fun ch j i h => glyphLit_of_ne_space h j i,
    fun s hf hb => ⟨?_, ?_⟩⟩
  · exact (ledCommand_of_idle _ _ hf hb).trans (by rw [drawText_eq]; rfl)
  · exact (ledCommand_of_idle _ _ hf hb).trans (by rw [drawText_eq]; rfl)

/-- Settles O19. -/
theorem scrollStarts : Obligations.ScrollStarts := by
  intro s hf hb
  exact ⟨(ledCommand_of_idle _ _ hf hb).trans (by rw [renderBand_eq]; rfl),
    (ledCommand_of_idle _ _ hf hb).trans (by rw [renderBand_eq]; rfl)⟩

theorem textWidth_eq (p : Params) (t : List Byte) : textWidth p t =
    if (t.filter definedChar).length = 0 then 0
    else ((t.filter definedChar).length : Int) * ((p.gw : Int) + 1) - 1 := by
  unfold textWidth
  rw [List.countP_eq_length_filter]

/-- A text in the buffer is at most 64 glyphs of at most 6 columns wide (42_led_draw.md R335). -/
theorem textWidth_bounds {p : Params} {t : List Byte} (hp : configCheck p = true) (ht : t.length ≤ 64) :
    0 ≤ textWidth p t ∧ textWidth p t ≤ 383 := by
  obtain ⟨-, -, -, glyph, -⟩ := configCheck_iff.mp hp
  have hn : (t.filter definedChar).length ≤ 64 := (List.length_filter_le _ _).trans ht
  rw [textWidth_eq]
  generalize (t.filter definedChar).length = n at *
  split_ifs with h0
  · omega
  · rcases glyph with ⟨hg, -⟩ | ⟨hg, -⟩ <;> rw [hg] <;> omega

theorem toInt_ofInt16 {x : Int} (h : -32768 ≤ x ∧ x < 32768) : (BitVec.ofInt 16 x).toInt = x := by
  rw [BitVec.toInt_ofInt, Int.bmod_def]
  split_ifs <;> omega

/-- The new XOFF is what SSTEP computes: no offset in sight of the panel wraps its 16 bits. -/
theorem scrollAdvance_xoff {p : Params} (k : Scroll) {t : List Byte} (hp : configCheck p = true) (ht : t.length ≤ 64) :
    (scrollAdvance p k t).xoff.toInt =
      if k.xoff.toInt - 1 + textWidth p t ≤ 0 then (p.w : Int) else k.xoff.toInt - 1 := by
  obtain ⟨hw, -⟩ := configCheck_iff.mp hp
  have tw := textWidth_bounds hp ht
  have hx := BitVec.toInt_lt (x := k.xoff)
  apply toInt_ofInt16
  split_ifs <;> omega

/-- Settles O20. -/
theorem scrollStepsAndStops : Obligations.ScrollStepsAndStops := by
  intro s hp hf hb t ng tw x
  have ht : t.length ≤ 64 := by simp [t]
  have htw : textWidth s.cfg t = tw := textWidth_eq _ _
  have bounds := textWidth_bounds hp ht
  have xoff := scrollAdvance_xoff s.led.scroll hp ht
  have hw := (configCheck_iff.mp hp).1
  have sstep := (execLedSstep_eq s).trans (ledCommand_of_idle _ _ hf hb)
  refine ⟨fun active => ⟨scrollAdvance s.cfg s.led.scroll t, ?_, rfl, ?_, ?_⟩, fun inactive => ?_, ?_⟩
  · rw [active, if_pos rfl, if_pos rfl, renderBand_eq] at sstep
    exact sstep
  · rw [xoff, htw]
  · rw [xoff, ← htw]
    split_ifs <;> omega
  · rw [inactive, if_neg (by decide), if_neg (by decide)] at sstep
    exact sstep
  · exact ledCommand_of_idle _ _ hf hb

/-! ## LE -/

section
variable {s : State}

theorem leStep_cons {q : PixelWrite} {l : List PixelWrite} (hf : s.ctl.fatal = false) (h : s.led.pw = some (q :: l)) :
    leStep s = writePixel (s.withLed { s.led with pw := some l }) q.x q.y q.c := by
  unfold leStep
  rw [hf, if_neg (by decide), h]

theorem leStep_nil (hf : s.ctl.fatal = false) (h : s.led.pw = some []) :
    leStep s = (s.withLed { s.led with pw := none }).withCtl { s.ctl with irqPend := s.ctl.irqPend ||| 2#4 } := by
  unfold leStep
  rw [hf, if_neg (by decide), h]
  rfl

theorem leStep_none (h : s.led.pw = none) : leStep s = s := by
  unfold leStep
  rw [h]
  exact ite_self s

/-- LE's step stores to memory as the pixel write does. -/
theorem leStep_cons_mem {q : PixelWrite} {l : List PixelWrite} (hf : s.ctl.fatal = false)
    (h : s.led.pw = some (q :: l)) : (leStep s).mem = (writePixel s q.x q.y q.c).mem := by
  rw [leStep_cons hf h]
  rfl

theorem leStep_cons_frame {q : PixelWrite} {l : List PixelWrite} (hf : s.ctl.fatal = false)
    (h : s.led.pw = some (q :: l)) : leStep s = (s.withLed { s.led with pw := some l }).withMem (leStep s).mem := by
  rw [leStep_cons hf h]
  rfl

theorem leStep_cons_readByte {q : PixelWrite} {l : List PixelWrite} (hf : s.ctl.fatal = false)
    (h : s.led.pw = some (q :: l)) (a : Nat) : readByte (leStep s) a = readByte (writePixel s q.x q.y q.c) a :=
  readByte_congr (leStep_cons_mem hf h) (by rw [leStep_cons_frame hf h]; rfl) a

theorem readPixel_congr {t u : State} (cfg : u.cfg = t.cfg) (h : ∀ a, readByte u a = readByte t a) (x y : Nat) :
    readPixel u x y = readPixel t x y := by
  simp only [readPixel, readFb, cfg, h]

theorem leStep_cons_keepsOutside {q : PixelWrite} {l : List PixelWrite} (hf : s.ctl.fatal = false)
    (h : s.led.pw = some (q :: l)) : KeepsMemoryOutside (fbAddr (pixelIndex s.cfg q.x q.y)) 3 s (leStep s) := by
  intro a ha
  rw [leStep_cons_readByte hf h]
  exact readByte_writeFb_other s _ _ (by omega)

/-- Settles O21. -/
theorem leStepWritesOnePixel : Obligations.LeStepWritesOnePixel := by
  intro s hf
  refine ⟨fun q l h => ⟨_, leStep_cons_frame hf h, ?_, leStep_cons_keepsOutside hf h⟩, leStep_nil hf, leStep_none⟩
  rw [readPixel_congr (by rw [leStep_cons_frame hf h]; rfl) (leStep_cons_readByte hf h)]
  exact readFb_writeFb_same s _ _

theorem leStep_cons_readPixel {q : PixelWrite} {l : List PixelWrite} (hf : s.ctl.fatal = false)
    (h : s.led.pw = some (q :: l)) (hq : q.x < s.cfg.w) {x y : Nat} (hx : x < s.cfg.w) :
    readPixel (leStep s) x y = if x = q.x ∧ y = q.y then q.c else readPixel s x y := by
  rw [readPixel_congr (by rw [leStep_cons_frame hf h]; rfl) (leStep_cons_readByte hf h)]
  exact readPixel_writePixel s q.c hq hx

theorem leRun_succ (n : Nat) (s : State) : leRun (n + 1) s = leRun n (leStep s) := rfl

theorem lastColor_getD_cons (x y : Nat) (q : PixelWrite) (l : List PixelWrite) (c : Pixel) :
    (lastColor x y (q :: l)).getD c = (lastColor x y l).getD (if x = q.x ∧ y = q.y then q.c else c) := by
  simp only [lastColor, eq_comm (a := q.x), eq_comm (a := q.y)]
  cases lastColor x y l <;> split_ifs <;> rfl

/-- The memory that a run of LE changes lies in the panel's part of FB. -/
theorem keepsOutside_panel {t : State} {j : Nat} (h : KeepsMemoryOutside (fbAddr j) 3 s t) (hj : j < s.cfg.w * s.cfg.h) :
    KeepsMemoryOutside (fbAddr 0) (4 * (s.cfg.w * s.cfg.h)) s t := by
  intro a ha
  apply h
  simp only [fbAddr] at *
  omega

end

/-- What LE's steps leave of a list: the theorem below, for any list on the panel. -/
theorem leRun_performs (l : List PixelWrite) : ∀ s : State, s.ctl.fatal = false → s.led.pw = some l →
    ListOnPanel s.cfg l →
    ∃ m, leRun (l.length + 1) s =
        ((s.withLed { s.led with pw := none }).withCtl { s.ctl with irqPend := s.ctl.irqPend ||| 2#4 }).withMem m ∧
      (∀ x y, x < s.cfg.w → y < s.cfg.h →
        readPixel (leRun (l.length + 1) s) x y = (lastColor x y l).getD (readPixel s x y)) ∧
      KeepsMemoryOutside (fbAddr 0) (4 * (s.cfg.w * s.cfg.h)) s (leRun (l.length + 1) s) := by
  induction l with
  | nil =>
    intro s hf h _
    have run : leRun 1 s = _ := leStep_nil hf h
    refine ⟨s.mem, run, fun x y _ _ => ?_, fun a _ => ?_⟩ <;> rw [List.length_nil, run] <;> rfl
  | cons q l ih =>
    intro s hf h onPanel
    obtain ⟨hqx, hqy⟩ := onPanel q List.mem_cons_self
    have frame := leStep_cons_frame hf h
    have cfg : (leStep s).cfg = s.cfg := by rw [frame]; rfl
    have first := keepsOutside_panel (leStep_cons_keepsOutside hf h) (pixelIndex_lt s.cfg hqx hqy)
    obtain ⟨m, run, pixels, rest⟩ := ih (leStep s) (by rw [frame]; exact hf) (by rw [frame]; rfl)
      (by rw [cfg]; exact fun r hr => onPanel r (List.mem_cons_of_mem _ hr))
    rw [cfg] at pixels rest
    rw [List.length_cons, leRun_succ]
    refine ⟨m, by rw [run, frame]; rfl, fun x y hx hy => ?_, fun a ha => ?_⟩
    · rw [pixels x y hx hy, leStep_cons_readPixel hf h hqx hx, lastColor_getD_cons]
    · rw [rest a ha, first a ha]

/-- Settles O22, by induction over the list. -/
theorem lePerformsItsList : Obligations.LePerformsItsList := fun s l _ hf h onPanel => leRun_performs l s hf h onPanel

end Sys2Proof.Proofs.Drawing
end

section
/-! SUPPORT. The scan-out (43_led_scan.md): the timer, the events of a slot and of a frame, and what a frame lights. -/

namespace Sys2Proof.Proofs.ScanOut

open Sys2Proof Sys2Proof.Machine Sys2Proof.Proofs.Frames Sys2Proof.Proofs.Invariant Sys2Proof.Proofs.Drawing

/-! ## The timer -/

theorem timerStep_stopped {s : State} (h : s.ctl.scanEn = false ∨ s.ctl.fatal = true) : timerStep s = s := by
  unfold timerStep
  rw [if_neg]
  rcases h with h | h <;> simp [h]

section
variable {s : State}

theorem timerStep_counts (en : s.ctl.scanEn = true) (hf : s.ctl.fatal = false)
    (h : s.scan.tcnt.toNat + 1 < s.scan.period.toNat) :
    timerStep s = s.withScan { s.scan with tcnt := BitVec.ofNat 24 (s.scan.tcnt.toNat + 1) } := by
  have count : s.scan.tcnt + 1#24 = BitVec.ofNat 24 (s.scan.tcnt.toNat + 1) := by
    apply BitVec.eq_of_toNat_eq
    simp
  unfold timerStep
  rw [en, hf, if_pos (by decide), if_neg (by omega), count]

theorem timerStep_wraps (en : s.ctl.scanEn = true) (hf : s.ctl.fatal = false)
    (h : s.scan.period.toNat ≤ s.scan.tcnt.toNat + 1) :
    timerStep s = tick (s.withScan { s.scan with tcnt := 0#24 }) := by
  unfold timerStep
  rw [en, hf, if_pos (by decide), if_pos h]

theorem tick_idle (h : s.scan.phase = .idle) : tick s = s.withScan { s.scan with phase := .setup } := by
  unfold tick
  rw [h]

theorem tick_overrun (h : s.scan.phase ≠ .idle) :
    tick s = raiseDrop (s.withScan { s.scan with tpend := true }) flagScanOvr := by
  unfold tick
  split
  · contradiction
  all_goals rfl

end

/-- Settles O33. -/
theorem tickStartsTheSlotOrIsRecorded : Obligations.TickStartsTheSlotOrIsRecorded := by
  intro s
  refine ⟨timerStep_stopped, fun en hf => ⟨timerStep_counts en hf, fun wraps => ⟨fun idle => ?_, fun slot => ?_⟩⟩⟩ <;>
    rw [timerStep_wraps en hf wraps]
  · exact tick_idle idle
  · exact tick_overrun slot

theorem timerRun_succ (n : Nat) (s : State) : timerRun (n + 1) s = timerStep (timerRun n s) :=
  Function.iterate_succ_apply' timerStep n s

/-- Before the last cycle of its period the timer counts the cycles. -/
theorem timerRun_counts {s : State} (en : s.ctl.scanEn = true) (hf : s.ctl.fatal = false) (h0 : s.scan.tcnt = 0#24)
    {n : Nat} (hn : n < s.scan.period.toNat) :
    timerRun n s = s.withScan { s.scan with tcnt := BitVec.ofNat 24 n } := by
  induction n with
  | zero => rw [← h0]; rfl
  | succ n ih =>
    have hlt := s.scan.period.isLt
    have tcnt : (BitVec.ofNat 24 n).toNat = n := by rw [BitVec.toNat_ofNat]; omega
    have count := timerStep_counts (s := s.withScan { s.scan with tcnt := BitVec.ofNat 24 n }) en hf
      (by simp only [withScan_scan, tcnt]; exact hn)
    rw [timerRun_succ, ih (by omega), count]
    simp only [withScan_scan, withScan_withScan, tcnt]

/-- Settles O34. -/
theorem timerTicksEveryPeriod : Obligations.TimerTicksEveryPeriod := by
  intro s en hf h0 hp idle
  refine ⟨fun n => timerRun_counts en hf h0, ?_⟩
  have hlt := s.scan.period.isLt
  obtain ⟨n, hn⟩ : ∃ n, s.scan.period.toNat = n + 1 :=
    Nat.exists_eq_succ_of_ne_zero fun h => hp (BitVec.eq_of_toNat_eq h)
  have tcnt : (BitVec.ofNat 24 n).toNat = n := by rw [BitVec.toNat_ofNat]; omega
  have wrap := timerStep_wraps (s := s.withScan { s.scan with tcnt := BitVec.ofNat 24 n }) en hf
    (by simp only [withScan_scan, tcnt]; omega)
  rw [hn, timerRun_succ, timerRun_counts en hf h0 (by omega), wrap, tick_idle]
  · simp only [withScan_scan, withScan_withScan, ← h0]
  · exact idle

/-! ## CTRL -/

/-- Settles O35. -/
theorem ctrlWriteStartsAndStopsTheScan : Obligations.CtrlWriteStartsAndStopsTheScan := by
  intro s v hv
  have write : exec (.wrCtrl v) s = .next (writeScanEn s (v.getLsbD 0)) := by
    simp only [exec, execWrCtrl, hv, Bool.false_eq_true, if_false]
  rw [write]
  generalize v.getLsbD 0 = b
  refine ⟨fun same => ?_, fun off on => ?_, fun on off outside => ?_, fun on off idle setup => ?_⟩
  · subst same
    unfold writeScanEn
    rw [if_neg (by simp), if_neg (by simp)]
    rfl
  · subst on
    unfold writeScanEn
    rw [if_pos (by simp [off])]
  · have inactive : scanActive s = false := by
      rw [← Bool.not_eq_true, scanActive_iff]
      tauto
    subst off
    unfold writeScanEn
    rw [if_neg (by simp), if_pos (by simp [on, inactive])]
    rfl
  · subst off
    unfold writeScanEn
    rw [if_neg (by simp), if_neg (by simp [scanActive_iff.mpr ⟨idle, setup⟩])]

/-! ## A slot -/

/-- The state `s` with another panel and phase and with the events `l`, oldest first: what a slot changes until END. -/
def scanAt (s : State) (p : Panel) (ph : Phase) (l : List Event) : State :=
  ((s.withPanel p).withScan { s.scan with phase := ph }).withEnv { s.env with history := l.reverse ++ s.env.history }

section
variable {s : State} {p : Panel} {l : List Event}

theorem readPixel_scanAt (ph : Phase) : readPixel (scanAt s p ph l) = readPixel s := by
  funext x y
  exact readPixel_congr (t := s) (u := scanAt s p ph l) rfl (readByte_congr rfl rfl) x y

theorem seStep_setup (hf : s.ctl.fatal = false) (en : s.ctl.scanEn = true) (hp : s.scan.phase = .setup) :
    ∃ q : Panel, q.oeN = true ∧ seStep s = scanAt s q (.shift 0) [.oeOff, .addr s.scan.rowpair.toNat] :=
  ⟨{ s.panel with oeN := true, addr := addrLines s.cfg s.scan.rowpair.toNat }, rfl,
    seStep_of_phase hf hp fun _ => en⟩

theorem seStep_shift (hf : s.ctl.fatal = false) (hb : s.scan.plane.toNat < s.cfg.depth) (hd : s.cfg.depth ≤ 8)
    (c : Nat) : ∃ q : Panel, q.oeN = p.oeN ∧ seStep (scanAt s p (.shift c) l) =
      scanAt s q (if c + 1 < s.cfg.w then .shift (c + 1) else .latch) (l ++ [shiftEvent s c]) := by
  obtain ⟨q, oeN, step⟩ := seShift_eq (scanAt s p (.shift c) l) c hb hd
  refine ⟨q, oeN, (seStep_of_phase (s := scanAt s p (.shift c) l) (ph := .shift c) hf rfl nofun).trans (step.trans ?_)⟩
  have event : shiftEvent (scanAt s p (.shift c) l) c = shiftEvent s c := by
    unfold shiftEvent
    rw [readPixel_scanAt]
    rfl
  rw [event, scanAt, scanAt, List.reverse_append]
  rfl

theorem seStep_latch (hf : s.ctl.fatal = false) : ∃ q : Panel, q.oeN = p.oeN ∧
    seStep (scanAt s p .latch l) = scanAt s q .hold (l ++ [.latch]) := by
  refine ⟨{ p with lat := false }, rfl, (seStep_of_phase (s := scanAt s p .latch l) (ph := .latch) hf rfl nofun).trans ?_⟩
  rw [scanAt, scanAt, List.reverse_append]
  rfl

theorem seStep_hold (hf : s.ctl.fatal = false) : ∃ q : Panel,
    seStep (scanAt s p .hold l) =
      scanAt s q (.fin (holdTime s)) (l ++ if 0 < holdTime s then [.oeOn (holdTime s)] else []) := by
  have hold : holdTime (scanAt s p .hold l) = holdTime s := rfl
  rw [seStep_of_phase (s := scanAt s p .hold l) (ph := .hold) hf rfl nofun, phaseStep, seHold]
  simp only [hold]
  split_ifs
  · refine ⟨{ p with oeN := false }, ?_⟩
    rw [scanAt, scanAt, List.reverse_append]
    rfl
  · refine ⟨p, ?_⟩
    rw [List.append_nil]
    rfl

theorem seStep_fin (hf : s.ctl.fatal = false) (hold : Nat) : seStep (scanAt s p (.fin hold) l) =
    endSlot (advanceSlot (scanAt s { p with oeN := true } (.fin hold) (l ++ if 0 < hold then [.oeOff] else []))) := by
  rw [seStep_of_phase (s := scanAt s p (.fin hold) l) (ph := .fin hold) hf rfl nofun, phaseStep, seEnd]
  simp only
  split_ifs
  · rw [scanAt, scanAt, List.reverse_append]
    rfl
  · rw [List.append_nil]
    rfl

/-- The steps from SHIFT(c) to LATCH shift out the columns from `c` on. -/
theorem seRun_shifts (hf : s.ctl.fatal = false) (hb : s.scan.plane.toNat < s.cfg.depth) (hd : s.cfg.depth ≤ 8)
    {n c : Nat} (hn : c + (n + 1) = s.cfg.w) : ∃ q : Panel, q.oeN = p.oeN ∧
      seRun (n + 1) (scanAt s p (.shift c) l) = scanAt s q .latch (l ++ (List.range' c (n + 1)).map (shiftEvent s)) := by
  induction n generalizing p l c with
  | zero =>
    obtain ⟨q, oeN, step⟩ := seStep_shift (p := p) (l := l) hf hb hd c
    rw [if_neg (by omega)] at step
    exact ⟨q, oeN, step⟩
  | succ n ih =>
    obtain ⟨q, oeN, step⟩ := seStep_shift (p := p) (l := l) hf hb hd c
    rw [if_pos (by omega)] at step
    obtain ⟨q', oeN', run⟩ := ih (p := q) (l := l ++ [shiftEvent s c]) (c := c + 1) (by omega)
    refine ⟨q', oeN'.trans oeN, ?_⟩
    rw [seRun, Function.iterate_succ_apply, step, ← seRun, run, List.range'_succ, List.map_cons, List.append_assoc]
    rfl

theorem seRun_add (m n : Nat) (s : State) : seRun (m + n) s = seRun n (seRun m s) := by
  rw [seRun, Nat.add_comm, Function.iterate_add_apply]
  rfl

/-- The events of the current slot (43_led_scan.md R363). -/
def currentEvents (s : State) : List Event :=
  slotEvents s.cfg (readPixel s) s.scan.unit.toNat s.scan.plane.toNat s.scan.rowpair.toNat

/-- The `W + 4` steps of a slot emit its events and end it (43_led_scan.md R363). -/
theorem seRun_slot (legal : configCheck s.cfg = true) (hf : s.ctl.fatal = false) (en : s.ctl.scanEn = true)
    (hp : s.scan.phase = .setup) (hb : s.scan.plane.toNat < s.cfg.depth) : ∃ (q : Panel) (hold : Nat), q.oeN = true ∧
      seRun (s.cfg.w + 4) s = endSlot (advanceSlot (scanAt s q (.fin hold) (currentEvents s))) := by
  obtain ⟨hw, -, hd, -⟩ := configCheck_iff.mp legal
  obtain ⟨n, hn⟩ : ∃ n, s.cfg.w = n + 1 := ⟨s.cfg.w - 1, by omega⟩
  obtain ⟨q1, -, setup⟩ := seStep_setup hf en hp
  obtain ⟨q2, -, shifts⟩ := seRun_shifts (s := s) (p := q1) (l := [.oeOff, .addr s.scan.rowpair.toNat]) hf hb
    (by omega) (n := n) (c := 0) (by omega)
  obtain ⟨q3, -, latch⟩ := seStep_latch (s := s) (p := q2)
    (l := [.oeOff, .addr s.scan.rowpair.toNat] ++ (List.range' 0 (n + 1)).map (shiftEvent s)) hf
  obtain ⟨q4, hold⟩ := seStep_hold (s := s) (p := q3)
    (l := [.oeOff, .addr s.scan.rowpair.toNat] ++ (List.range' 0 (n + 1)).map (shiftEvent s) ++ [.latch]) hf
  refine ⟨{ q4 with oeN := true }, holdTime s, rfl, ?_⟩
  have steps : seRun (s.cfg.w + 4) s = seStep (seStep (seStep (seRun (n + 1) (seStep s)))) := by
    rw [show s.cfg.w + 4 = 1 + ((n + 1) + 3) by omega, seRun_add, seRun_add]
    rfl
  rw [steps, setup, shifts, latch, hold, seStep_fin hf]
  congr 2
  unfold currentEvents slotEvents
  rw [← List.range_eq_range', hn]
  congr 1
  simp only [List.append_assoc]
  congr 3
  unfold holdTime
  split_ifs <;> rfl

end

/-! ## The place of the next slot -/

theorem endSlot_enabled (s : State) (en : s.ctl.scanEn = true) : endSlot s = s.withScan { s.scan with
    tpend := false, phase := if s.scan.tpend then .setup else .idle } := by
  cases pending : s.scan.tpend
  · rw [endSlot_waiting s en pending, if_neg (by decide), ← pending]
  · exact endSlot_pending s en pending

/-- The current slot is the last of its frame. -/
abbrev IsLast (s : State) : Prop := slotIndex s + 1 = s.cfg.depth * (s.cfg.h / 2)

/-- `advance()` goes to the next slot, after the last one to the first, where it completes the frame
(43_led_scan.md R373, R374). -/
theorem advanceSlot_eq {s : State} (legal : configCheck s.cfg = true) (hb : s.scan.plane.toNat < s.cfg.depth)
    (hr : s.scan.rowpair.toNat < s.cfg.h / 2) : ∃ (b : BitVec 4) (r : BitVec 8),
      b.toNat < s.cfg.depth ∧ r.toNat < s.cfg.h / 2 ∧
      b.toNat * (s.cfg.h / 2) + r.toNat = (slotIndex s + 1) % (s.cfg.depth * (s.cfg.h / 2)) ∧
      advanceSlot s = ((s.withScan { s.scan with
          plane := b, rowpair := r,
          frameCount := if IsLast s then s.scan.frameCount + 1#32 else s.scan.frameCount }).withCtl
        { s.ctl with irqPend := s.ctl.irqPend ||| if IsLast s then 1#4 else 0#4 }).withEnv
        { s.env with history := (if IsLast s then [Event.frameEnd] else []) ++ s.env.history } := by
  obtain ⟨-, hh, hd, -⟩ := configCheck_iff.mp legal
  have rows : (s.scan.plane.toNat + 1) * (s.cfg.h / 2) ≤ s.cfg.depth * (s.cfg.h / 2) := Nat.mul_le_mul_right _ hb
  rw [Nat.add_mul, Nat.one_mul] at rows
  by_cases inRow : s.scan.rowpair.toNat + 1 < s.cfg.h / 2
  · have notLast : ¬IsLast s := by unfold IsLast slotIndex; omega
    have e : (s.scan.rowpair + 1#8).toNat = s.scan.rowpair.toNat + 1 := by
      rw [BitVec.toNat_add]; simp; omega
    refine ⟨s.scan.plane, s.scan.rowpair + 1#8, hb, by omega, ?_, ?_⟩
    · rw [e, slotIndex, Nat.mod_eq_of_lt (by omega), Nat.add_assoc]
    · rw [advanceSlot, if_pos inRow, if_neg notLast, if_neg notLast, if_neg notLast, BitVec.or_zero]
      rfl
  by_cases inFrame : s.scan.plane.toNat + 1 < s.cfg.depth
  · have next : (s.scan.plane.toNat + 2) * (s.cfg.h / 2) ≤ s.cfg.depth * (s.cfg.h / 2) :=
      Nat.mul_le_mul_right _ (by omega)
    rw [Nat.add_mul] at next
    have notLast : ¬IsLast s := by unfold IsLast slotIndex; omega
    have e : (s.scan.plane + 1#4).toNat = s.scan.plane.toNat + 1 := by
      rw [BitVec.toNat_add]; simp; omega
    refine ⟨s.scan.plane + 1#4, 0#8, by omega, by simp; omega, ?_, ?_⟩
    · rw [e, slotIndex, Nat.mod_eq_of_lt (by omega), Nat.add_mul]
      simp
      omega
    · rw [advanceSlot, if_neg inRow, if_pos inFrame, if_neg notLast, if_neg notLast, if_neg notLast, BitVec.or_zero]
      rfl
  · have isLast : IsLast s := by
      have plane : s.scan.plane.toNat + 1 = s.cfg.depth := by omega
      unfold IsLast slotIndex
      rw [← plane, Nat.add_mul]
      omega
    refine ⟨0#4, 0#8, by simp; omega, by simp; omega, ?_, ?_⟩
    · rw [show slotIndex s + 1 = _ from isLast, Nat.mod_self]
      simp
    · rw [advanceSlot, if_neg inRow, if_neg inFrame, if_pos isLast, if_pos isLast, if_pos isLast]
      rfl

/-- A slot scanned from SETUP with the scan enabled, as one equation. -/
theorem seRun_slot_eq {s : State} (legal : configCheck s.cfg = true) (hf : s.ctl.fatal = false)
    (en : s.ctl.scanEn = true) (hp : s.scan.phase = .setup) (hb : s.scan.plane.toNat < s.cfg.depth)
    (hr : s.scan.rowpair.toNat < s.cfg.h / 2) : ∃ (q : Panel) (b : BitVec 4) (r : BitVec 8), q.oeN = true ∧
      b.toNat < s.cfg.depth ∧ r.toNat < s.cfg.h / 2 ∧
      b.toNat * (s.cfg.h / 2) + r.toNat = (slotIndex s + 1) % (s.cfg.depth * (s.cfg.h / 2)) ∧
      seRun (s.cfg.w + 4) s = (((s.withPanel q).withScan { s.scan with
          plane := b, rowpair := r, phase := if s.scan.tpend then .setup else .idle, tpend := false,
          frameCount := if IsLast s then s.scan.frameCount + 1#32 else s.scan.frameCount }).withCtl
        { s.ctl with irqPend := s.ctl.irqPend ||| if IsLast s then 1#4 else 0#4 }).withEnv
        { s.env with
          history := (currentEvents s ++ if IsLast s then [Event.frameEnd] else []).reverse ++ s.env.history } := by
  obtain ⟨q, hold, oeN, run⟩ := seRun_slot legal hf en hp hb
  obtain ⟨b, r, hb', hr', place, advance⟩ :=
    advanceSlot_eq (s := scanAt s q (.fin hold) (currentEvents s)) legal hb hr
  refine ⟨q, b, r, oeN, hb', hr', place, ?_⟩
  have last : IsLast (scanAt s q (.fin hold) (currentEvents s)) ↔ IsLast s := Iff.rfl
  have events : (currentEvents s ++ if IsLast s then [Event.frameEnd] else []).reverse ++ s.env.history =
      (if IsLast s then [Event.frameEnd] else []) ++ ((currentEvents s).reverse ++ s.env.history) := by
    split_ifs <;> simp
  rw [run, advance, events]
  simp only [last]
  rw [endSlot_enabled]
  exacts [rfl, en]

/-- Settles O29. -/
theorem slotEmitsItsEvents : Obligations.SlotEmitsItsEvents := by
  intro s legal hf en hp hb hr
  obtain ⟨q, b, r, oeN, hb', hr', place, run⟩ := seRun_slot_eq legal hf en hp hb hr
  simp only [run]
  exact ⟨rfl, oeN, place, hb', hr', rfl, rfl, rfl, rfl, rfl, rfl, rfl, rfl⟩

/-- Settles O30. -/
theorem disabledScanEndsDarkAtTheFirstSlot : Obligations.DisabledScanEndsDarkAtTheFirstSlot := by
  intro s hold hf off hp
  obtain ⟨u, panel, en, mem, ended⟩ : ∃ u : State, u.panel = { s.panel with oeN := true } ∧ u.ctl.scanEn = false ∧
      u.mem = s.mem ∧ seStep s = endSlot u := by
    rw [seStep_of_phase hf hp nofun, phaseStep, seEnd]
    simp only
    split_ifs
    · refine ⟨_, ?_, ?_, ?_, rfl⟩
      exacts [(advanceSlot_keeps _).2.1, (advanceSlot_keeps _).2.2.1.trans off, (advanceSlot_memory _).1]
    · refine ⟨_, ?_, ?_, ?_, rfl⟩
      exacts [(advanceSlot_keeps _).2.1, (advanceSlot_keeps _).2.2.1.trans off, (advanceSlot_memory _).1]
  rw [ended, endSlot_disabled u en]
  exact ⟨rfl, rfl, rfl, rfl, panel, mem⟩

/-! ## A frame -/

/-- The number of slots of a frame. -/
def slotCount (p : Params) : Nat := p.depth * (p.h / 2)

/-- The events of the first `k` slots of a frame, in the order of 43_led_scan.md R373. -/
def firstSlots (p : Params) (fb : Nat → Nat → Pixel) (unit k : Nat) : List Event :=
  (List.range k).flatMap fun i => slotEvents p fb unit (i / (p.h / 2)) (i % (p.h / 2))

theorem range_flatMap_divMod {α : Type} (f : Nat → Nat → List α) (n d : Nat) :
    ((List.range (d * n)).flatMap fun i => f (i / n) (i % n)) =
      (List.range d).flatMap fun b => (List.range n).flatMap fun r => f b r := by
  induction d with
  | zero => simp
  | succ d ih =>
    rw [Nat.succ_mul, List.range_add, List.flatMap_append, ih, List.range_succ, List.flatMap_append,
      List.flatMap_singleton, List.flatMap_map]
    congr 1
    refine List.flatMap_congr fun r hr => ?_
    have hr : r < n := List.mem_range.mp hr
    rw [Nat.mul_comm d n, Nat.mul_add_div (by omega), Nat.div_eq_of_lt hr, Nat.mul_add_mod, Nat.mod_eq_of_lt hr,
      Nat.add_zero]

theorem frameEvents_eq (p : Params) (fb : Nat → Nat → Pixel) (unit : Nat) :
    frameEvents p fb unit = firstSlots p fb unit (slotCount p) ++ [.frameEnd] := by
  rw [frameEvents, firstSlots, slotCount, range_flatMap_divMod]

/-- What `k` slots of a frame that starts in `s` leave: their events, and the frame counted when they are all. -/
structure AfterSlots (s : State) (k : Nat) (t : State) : Prop where
  cfg : t.cfg = s.cfg
  mem : t.mem = s.mem
  epoch : t.env.epoch = s.env.epoch
  unit : t.scan.unit = s.scan.unit
  phase : t.scan.phase = .idle ∨ t.scan.phase = .setup
  plane : t.scan.plane.toNat < s.cfg.depth
  rowpair : t.scan.rowpair.toNat < s.cfg.h / 2
  place : slotIndex t = k % slotCount s.cfg
  count : t.scan.frameCount = if k = slotCount s.cfg then s.scan.frameCount + 1#32 else s.scan.frameCount
  ctl : t.ctl = { s.ctl with irqPend := s.ctl.irqPend ||| if k = slotCount s.cfg then 1#4 else 0#4 }
  history : t.env.history = (firstSlots s.cfg (readPixel s) s.scan.unit.toNat k ++
    if k = slotCount s.cfg then [Event.frameEnd] else []).reverse ++ s.env.history

/-- The first slot of a frame is slot (0, 0). -/
theorem place_of_slotIndex_zero {s : State} (legal : configCheck s.cfg = true) (h0 : slotIndex s = 0) :
    s.scan.plane.toNat < s.cfg.depth ∧ s.scan.rowpair.toNat < s.cfg.h / 2 := by
  obtain ⟨-, hh, hd, -⟩ := configCheck_iff.mp legal
  obtain ⟨hp, hr⟩ := Nat.add_eq_zero_iff.mp h0
  rcases Nat.mul_eq_zero.mp hp with hp | hp <;> omega

theorem afterSlots_zero {s : State} (legal : configCheck s.cfg = true)
    (phase : s.scan.phase = .idle ∨ s.scan.phase = .setup) (h0 : slotIndex s = 0) : AfterSlots s 0 s := by
  obtain ⟨-, hh, hd, -⟩ := configCheck_iff.mp legal
  obtain ⟨plane, rowpair⟩ := place_of_slotIndex_zero legal h0
  have some : 0 ≠ slotCount s.cfg := (Nat.mul_pos (by omega) (by omega)).ne
  refine ⟨rfl, rfl, rfl, rfl, phase, plane, rowpair, ?_, ?_, ?_, ?_⟩
  · rw [Nat.zero_mod]; exact h0
  · rw [if_neg some]
  · rw [if_neg some, BitVec.or_zero]
  · rw [if_neg some]; rfl

/-- SE's slot from either waiting phase is the slot from SETUP. -/
theorem scanSlot_eq {t : State} (phase : t.scan.phase = .idle ∨ t.scan.phase = .setup) :
    scanSlot t = seRun (t.cfg.w + 4) (t.withScan { t.scan with phase := .setup }) := by
  unfold scanSlot
  rcases phase with h | h
  · rw [if_pos h, tick_idle h]
  · rw [if_neg (by rw [h]; nofun), ← h]
    rfl

theorem firstSlots_succ (p : Params) (fb : Nat → Nat → Pixel) (unit k : Nat) :
    firstSlots p fb unit (k + 1) = firstSlots p fb unit k ++ slotEvents p fb unit (k / (p.h / 2)) (k % (p.h / 2)) := by
  rw [firstSlots, firstSlots, List.range_succ, List.flatMap_append, List.flatMap_singleton]

theorem AfterSlots.succ {s t : State} {k : Nat} (legal : configCheck s.cfg = true) (hf : s.ctl.fatal = false)
    (en : s.ctl.scanEn = true) (hk : k < slotCount s.cfg) (h : AfterSlots s k t) :
    AfterSlots s (k + 1) (scanSlot t) := by
  obtain ⟨cfg, mem, epoch, unit, phase, plane, rowpair, place, count, ctl, history⟩ := h
  rw [Nat.mod_eq_of_lt hk] at place
  rw [if_neg hk.ne] at count ctl history
  rw [BitVec.or_zero] at ctl
  have pixels : readPixel t = readPixel s := by
    funext x y
    exact readPixel_congr cfg (readByte_congr mem epoch) x y
  have hplace := place
  rw [slotIndex, cfg] at hplace
  have planeEq : t.scan.plane.toNat = k / (s.cfg.h / 2) := by
    rw [← hplace, Nat.mul_comm, Nat.mul_add_div (by omega), Nat.div_eq_of_lt rowpair, Nat.add_zero]
  have rowEq : t.scan.rowpair.toNat = k % (s.cfg.h / 2) := by
    rw [← hplace, Nat.mul_comm, Nat.mul_add_mod, Nat.mod_eq_of_lt rowpair]
  have last : IsLast (t.withScan { t.scan with phase := .setup }) ↔ k + 1 = slotCount s.cfg := by
    show slotIndex t + 1 = t.cfg.depth * (t.cfg.h / 2) ↔ _
    rw [place, cfg]
    rfl
  have events : currentEvents (t.withScan { t.scan with phase := .setup }) =
      slotEvents s.cfg (readPixel s) s.scan.unit.toNat (k / (s.cfg.h / 2)) (k % (s.cfg.h / 2)) := by
    show slotEvents t.cfg (readPixel t) t.scan.unit.toNat t.scan.plane.toNat t.scan.rowpair.toNat = _
    rw [cfg, pixels, unit, planeEq, rowEq]
  obtain ⟨q, b, r, -, hb, hr, next, run⟩ := seRun_slot_eq (s := t.withScan { t.scan with phase := .setup })
    (by rw [withScan_cfg, cfg]; exact legal) (by rw [withScan_ctl, ctl]; exact hf) (by rw [withScan_ctl, ctl]; exact en)
    rfl (by rw [withScan_cfg, cfg]; exact plane) (by rw [withScan_cfg, cfg]; exact rowpair)
  simp only [withScan_cfg, cfg] at hb hr
  change seRun (t.cfg.w + 4) _ = _ at run
  rw [scanSlot_eq phase, run, events]
  refine ⟨cfg, mem, epoch, unit, ?_, hb, hr, ?_, ?_, ?_, ?_⟩
  · show (if t.scan.tpend then Phase.setup else .idle) = .idle ∨ (if t.scan.tpend then Phase.setup else .idle) = .setup
    split_ifs
    exacts [.inr rfl, .inl rfl]
  · show b.toNat * (t.cfg.h / 2) + r.toNat = _
    rw [cfg]
    rw [withScan_cfg, cfg] at next
    rw [next, ← place]
    rfl
  · simp only [last]
    show (if k + 1 = slotCount s.cfg then t.scan.frameCount + 1#32 else t.scan.frameCount) = _
    rw [count]
  · simp only [last]
    show { t.ctl with irqPend := t.ctl.irqPend ||| if k + 1 = slotCount s.cfg then 1#4 else 0#4 } = _
    rw [ctl]
  · simp only [last]
    show (_ ++ if k + 1 = slotCount s.cfg then [Event.frameEnd] else []).reverse ++ t.env.history = _
    rw [history, firstSlots_succ, List.append_nil]
    simp only [List.reverse_append, List.append_assoc]

theorem afterSlots_iterate {s : State} (legal : configCheck s.cfg = true) (hf : s.ctl.fatal = false)
    (en : s.ctl.scanEn = true) (phase : s.scan.phase = .idle ∨ s.scan.phase = .setup) (h0 : slotIndex s = 0) {k : Nat}
    (hk : k ≤ slotCount s.cfg) : AfterSlots s k (scanSlot^[k] s) := by
  induction k with
  | zero => exact afterSlots_zero legal phase h0
  | succ k ih =>
    rw [Function.iterate_succ_apply']
    exact (ih (by omega)).succ legal hf en hk

/-- What a whole frame leaves. -/
theorem afterSlots_frame {s : State} (legal : configCheck s.cfg = true) (hf : s.ctl.fatal = false)
    (en : s.ctl.scanEn = true) (phase : s.scan.phase = .idle ∨ s.scan.phase = .setup) (h0 : slotIndex s = 0) :
    AfterSlots s (slotCount s.cfg) (scanSlot^[s.cfg.depth * (s.cfg.h / 2)] s) :=
  afterSlots_iterate legal hf en phase h0 (le_refl (slotCount s.cfg))

theorem AfterSlots.frame_history {s t : State} (h : AfterSlots s (slotCount s.cfg) t) :
    t.env.history = (frameEvents s.cfg (readPixel s) s.scan.unit.toNat).reverse ++ s.env.history := by
  rw [h.history, if_pos rfl, frameEvents_eq]

/-- Settles O31. -/
theorem frameEmitsItsEvents : Obligations.FrameEmitsItsEvents := by
  intro s legal hf en phase h0
  have frame := afterSlots_frame legal hf en phase h0
  exact ⟨frame.frame_history, frame.place.trans (Nat.mod_self _), frame.count.trans (if_pos rfl),
    by rw [frame.ctl, if_pos rfl], frame.mem⟩

/-! ## A dark frame -/

theorem lastColor_eq_none {l : List PixelWrite} {x y : Nat} (h : ∀ q ∈ l, ¬(q.x = x ∧ q.y = y)) :
    lastColor x y l = none := by
  induction l with
  | nil => rfl
  | cons a l ih =>
    rw [List.forall_mem_cons] at h
    rw [lastColor, ih h.2, if_neg h.1]
    rfl

/-- A list in one colour leaves it at each of its points. -/
theorem lastColor_of_mono {c : Pixel} {l : List PixelWrite} (mono : ∀ q ∈ l, q.c = c) {x y : Nat}
    (h : ∃ q ∈ l, q.x = x ∧ q.y = y) : lastColor x y l = some c := by
  induction l with
  | nil => obtain ⟨q, hq, -⟩ := h; cases hq
  | cons a l ih =>
    rw [List.forall_mem_cons] at mono
    by_cases later : ∃ q ∈ l, q.x = x ∧ q.y = y
    · rw [lastColor, ih mono.2 later, Option.some_or]
    · obtain ⟨q, hq, hxy⟩ := h
      obtain rfl : q = a := (List.mem_cons.mp hq).resolve_right fun hq => later ⟨q, hq, hxy⟩
      rw [lastColor, lastColor_eq_none fun r hr e => later ⟨r, hr, e⟩, if_pos hxy, mono.1]
      rfl

theorem mem_drawFill {p : Params} {c : Pixel} {q : PixelWrite} :
    q ∈ drawFill p c ↔ (q.x < p.w ∧ q.y < p.h) ∧ q.c = c := by
  rw [drawFill_eq]
  simp only [List.mem_flatMap, List.mem_map, List.mem_range]
  constructor
  · rintro ⟨y, hy, x, hx, rfl⟩; exact ⟨⟨hx, hy⟩, rfl⟩
  · rintro ⟨⟨hx, hy⟩, rfl⟩; exact ⟨q.y, hy, q.x, hx, rfl⟩

theorem lastColor_drawFill {p : Params} (c : Pixel) {x y : Nat} (hx : x < p.w) (hy : y < p.h) :
    lastColor x y (drawFill p c) = some c :=
  lastColor_of_mono (fun _ hq => (mem_drawFill.mp hq).2) ⟨⟨x, y, c⟩, mem_drawFill.mpr ⟨⟨hx, hy⟩, rfl⟩, rfl, rfl⟩

/-- The events of a slot: no FrameEnd, and the SHIFT events of its columns. -/
theorem mem_slotEvents {p : Params} {fb : Nat → Nat → Pixel} {unit b r : Nat} {e : Event}
    (h : e ∈ slotEvents p fb unit b r) : e ≠ .frameEnd ∧ ∀ c r1 g1 b1 r2 g2 b2, e = .shift c r1 g1 b1 r2 g2 b2 →
      c < p.w ∧ columnOf p fb b r c = ⟨r1, g1, b1, r2, g2, b2⟩ := by
  simp only [slotEvents, List.mem_append, List.mem_cons, List.not_mem_nil, or_false, List.mem_map,
    List.mem_range] at h
  rcases h with (((rfl | rfl) | ⟨c, hc, rfl⟩) | rfl) | h
  · exact ⟨nofun, nofun⟩
  · exact ⟨nofun, nofun⟩
  · refine ⟨nofun, fun c' _ _ _ _ _ _ e => ?_⟩
    cases e
    exact ⟨hc, rfl⟩
  · exact ⟨nofun, nofun⟩
  · split_ifs at h
    · simp only [List.mem_cons, List.not_mem_nil, or_false] at h
      rcases h with rfl | rfl <;> exact ⟨nofun, nofun⟩
    · cases h

theorem mem_firstSlots {p : Params} {fb : Nat → Nat → Pixel} {unit : Nat} {e : Event} {k : Nat}
    (h : e ∈ firstSlots p fb unit k) : ∃ i < k, e ∈ slotEvents p fb unit (i / (p.h / 2)) (i % (p.h / 2)) := by
  obtain ⟨i, hi, he⟩ := List.mem_flatMap.mp h
  exact ⟨i, List.mem_range.mp hi, he⟩

theorem countP_frameEnd (p : Params) (fb : Nat → Nat → Pixel) (unit : Nat) :
    (frameEvents p fb unit).countP (fun e => decide (e = .frameEnd)) = 1 := by
  have none : (firstSlots p fb unit (slotCount p)).countP (fun e => decide (e = .frameEnd)) = 0 := by
    rw [List.countP_eq_zero]
    intro e he
    obtain ⟨i, -, he⟩ := mem_firstSlots he
    simpa using (mem_slotEvents he).1
  rw [frameEvents_eq, List.countP_append, none]
  rfl

/-- A frame of a black panel shifts out zero bits only (43_led_scan.md R377). -/
theorem shift_mem_frameEvents_dark {p : Params} {fb : Nat → Nat → Pixel} (unit : Nat) (hh : 2 ≤ p.h)
    (dark : ∀ x y, x < p.w → y < p.h → fb x y = 0#24) {c : Nat} {r1 g1 b1 r2 g2 b2 : Bool}
    (h : Event.shift c r1 g1 b1 r2 g2 b2 ∈ frameEvents p fb unit) :
    r1 = false ∧ g1 = false ∧ b1 = false ∧ r2 = false ∧ g2 = false ∧ b2 = false := by
  rw [frameEvents_eq] at h
  rcases List.mem_append.mp h with h | h
  · obtain ⟨i, -, h⟩ := mem_firstSlots h
    obtain ⟨hc, bits⟩ := (mem_slotEvents h).2 _ _ _ _ _ _ _ rfl
    have hr := Nat.mod_lt i (show 0 < p.h / 2 by omega)
    simp only [columnOf, dark c (i % (p.h / 2)) hc (by omega), dark c (i % (p.h / 2) + p.h / 2) hc (by omega),
      BitVec.getLsbD_zero, ColumnBits.mk.injEq] at bits
    simpa only [eq_comm (a := false)] using bits
  · simp at h

/-- Settles O23: LE performs the black list of CLEAR, so every pixel of the panel is black when the frame is scanned. -/
theorem clearThenRefreshIsDark : Obligations.ClearThenRefreshIsDark := by
  intro s legal hf hb en phase h0
  refine ⟨_, ledCommand_of_idle _ _ hf hb, ?_⟩
  obtain ⟨-, hh, -⟩ := configCheck_iff.mp legal
  have cleared := leRun_performs (drawFill s.cfg 0x000000#24)
    (s.withLed { s.led with scroll := s.led.scroll, pw := some (drawFill s.cfg 0x000000#24) }) hf rfl
    (drawFill_onPanel s.cfg _)
  rw [length_drawFill] at cleared
  obtain ⟨m, run, pixels, -⟩ := cleared
  simp only at run pixels ⊢
  generalize leRun _ _ = u at *
  have cfg : u.cfg = s.cfg := by rw [run]; rfl
  have scan : u.scan = s.scan := by rw [run]; rfl
  have history : u.env.history = s.env.history := by rw [run]; rfl
  have frame := afterSlots_frame (s := u) (by rw [cfg]; exact legal) (by rw [run]; exact hf) (by rw [run]; exact en)
    (by rw [scan]; exact phase) (by rw [slotIndex, scan, cfg]; exact h0)
  rw [cfg] at frame
  have dark : ∀ x y, x < u.cfg.w → y < u.cfg.h → readPixel u x y = 0#24 := by
    intro x y hx hy
    rw [cfg] at hx hy
    rw [pixels x y hx hy, lastColor_drawFill _ hx hy]
    rfl
  rw [← cfg] at frame ⊢
  refine ⟨_, by rw [frame.frame_history, history], ?_, fun c r1 g1 b1 r2 g2 b2 h => ?_⟩
  · rw [List.countP_reverse]; exact countP_frameEnd _ _ _
  · exact shift_mem_frameEvents_dark _ (by rw [cfg]; omega) dark (List.mem_reverse.mp h)

/-! ## What a frame lights -/

/-- The panel after a list of events. -/
def panelAfterAll (l : List Event) (v : PanelView) : PanelView := l.foldl panelAfter v

theorem litTime_append (p : Params) (x y : Nat) (ch : Channel) (l m : List Event) (v : PanelView) :
    litTime p x y ch (l ++ m) v = litTime p x y ch l v + litTime p x y ch m (panelAfterAll l v) := by
  induction l generalizing v with
  | nil => exact (Nat.zero_add _).symm
  | cons e l ih =>
    have first : ∀ l, litTime p x y ch (e :: l) v = litTime p x y ch [e] v + litTime p x y ch l (panelAfter v e) :=
      fun _ => rfl
    rw [List.cons_append, first (l ++ m), first l, ih, Nat.add_assoc]
    rfl

/-- The lit time of slots one after another is the sum of theirs, where the panel's earlier state does not count. -/
theorem litTime_flatMap_range (p : Params) (x y : Nat) (ch : Channel) (f : Nat → List Event) (g : Nat → Nat) (n : Nat)
    (h : ∀ i < n, ∀ v, litTime p x y ch (f i) v = g i) (v : PanelView) :
    litTime p x y ch ((List.range n).flatMap f) v = ∑ i ∈ Finset.range n, g i := by
  induction n with
  | zero => rfl
  | succ n ih =>
    rw [List.range_succ, List.flatMap_append, List.flatMap_singleton, litTime_append,
      ih fun i hi => h i (by omega), h n (by omega), Finset.sum_range_succ]

/-- The SHIFT event of a column. -/
def columnEvent (c : Nat) (k : ColumnBits) : Event := .shift c k.r1 k.g1 k.b1 k.r2 k.g2 k.b2

theorem panelAfterAll_columns (f : Nat → ColumnBits) (l : List Nat) (v : PanelView) :
    panelAfterAll (l.map fun c => columnEvent c (f c)) v =
      { v with shifted := (l.map fun c => (c, f c)).reverse ++ v.shifted } := by
  induction l generalizing v with
  | nil => rfl
  | cons c l ih =>
    rw [List.map_cons, List.map_cons, List.reverse_cons, List.append_assoc]
    exact ih _

theorem litTime_columns (p : Params) (x y : Nat) (ch : Channel) (f : Nat → ColumnBits) (l : List Nat) (v : PanelView) :
    litTime p x y ch (l.map fun c => columnEvent c (f c)) v = 0 := by
  induction l generalizing v with
  | nil => rfl
  | cons c l ih => exact (Nat.zero_add _).trans (ih _)

theorem columnBits_of_mem (f : Nat → ColumnBits) {l : List Nat} {x : Nat} (h : x ∈ l) :
    columnBits (l.map fun c => (c, f c)) x = f x := by
  induction l with
  | nil => cases h
  | cons c l ih =>
    rw [List.map_cons, columnBits]
    split_ifs with e
    · rw [e]
    · exact ih ((List.mem_cons.mp h).resolve_left e)

/-- The bit that slot (b, r) shows at a channel of pixel (x, y), if its row-pair holds the row
(43_led_scan.md R365, R375). -/
def slotBit (p : Params) (fb : Nat → Nat → Pixel) (b r x y : Nat) (ch : Channel) : Bool :=
  if y = r then channelBit (columnOf p fb b r x) false ch
  else if y = r + p.h / 2 then channelBit (columnOf p fb b r x) true ch
  else false

/-- A slot lights what it shows for its hold time, whatever the panel showed before. -/
theorem litTime_slotEvents (p : Params) (fb : Nat → Nat → Pixel) (unit b r x y : Nat) (ch : Channel) (hx : x < p.w)
    (v : PanelView) : litTime p x y ch (slotEvents p fb unit b r) v =
      if slotBit p fb b r x y ch then unit * 2 ^ b else 0 := by
  have events : slotEvents p fb unit b r = [.oeOff, .addr r] ++
      ((List.range p.w).map fun c => columnEvent c (columnOf p fb b r c)) ++ [.latch] ++
      (if 0 < unit * 2 ^ b then [.oeOn (unit * 2 ^ b), .oeOff] else []) := rfl
  have latched : panelAfterAll ([.oeOff, .addr r] ++ ((List.range p.w).map fun c => columnEvent c (columnOf p fb b r c)) ++
      [.latch]) v = ⟨r, ((List.range p.w).map fun c => (c, columnOf p fb b r c)).reverse, r,
        ((List.range p.w).map fun c => (c, columnOf p fb b r c)).reverse⟩ := by
    unfold panelAfterAll
    rw [List.foldl_append, List.foldl_append, ← panelAfterAll, ← panelAfterAll, panelAfterAll_columns]
    simp only [List.foldl, panelAfter, panelAfterAll, List.append_nil]
  have dark : litTime p x y ch ([.oeOff, .addr r] ++
      ((List.range p.w).map fun c => columnEvent c (columnOf p fb b r c)) ++ [.latch]) v = 0 := by
    rw [litTime_append, litTime_append, litTime_columns]
    rfl
  have column : columnBits ((List.range p.w).map fun c => (c, columnOf p fb b r c)).reverse x = columnOf p fb b r x := by
    rw [← List.map_reverse, columnBits_of_mem _ (by simpa using hx)]
  rw [events, litTime_append, dark, latched, Nat.zero_add]
  split_ifs with pos on on
  all_goals simp only [slotBit] at on
  · simp only [litTime, lights, column, on, if_true, Nat.add_zero]
  · simp only [litTime, lights, column, on, Nat.add_zero]
    rfl
  · exact (Nat.eq_zero_of_not_pos pos).symm
  · rfl

/-- The place of a channel in a pixel (20_memory.md R132). -/
def channelIndex : Channel → Nat
  | .red => 0
  | .green => 1
  | .blue => 2

/-- The value of a channel, bit by bit. -/
theorem testBit_channelValue (v : Pixel) (ch : Channel) {k : Nat} (hk : k < 8) :
    (channelValue v ch).testBit k = v.getLsbD (8 * channelIndex ch + k) := by
  cases ch <;> simp only [channelValue, channelIndex, BitVec.getLsbD]
  · rw [show 256 = 2 ^ 8 by rfl, Nat.testBit_mod_two_pow, decide_eq_true hk, Bool.true_and, Nat.mul_zero, Nat.zero_add]
  · rw [show 256 = 2 ^ 8 by rfl, Nat.testBit_mod_two_pow, decide_eq_true hk, Nat.testBit_div_two_pow, Bool.true_and,
      Nat.mul_one, Nat.add_comm]
  · rw [show 256 = 2 ^ 8 by rfl, show 65536 = 2 ^ 16 by rfl, Nat.testBit_mod_two_pow, decide_eq_true hk,
      Nat.testBit_div_two_pow, Bool.true_and, Nat.add_comm]

/-- A plane shows its bit of the channel's value (43_led_scan.md R362). -/
theorem channelBit_columnOf {p : Params} (hd : p.depth ≤ 8) {b : Nat} (hb : b < p.depth) (fb : Nat → Nat → Pixel)
    (r x : Nat) (lower : Bool) (ch : Channel) : channelBit (columnOf p fb b r x) lower ch =
      (channelValue (fb x (if lower then r + p.h / 2 else r)) ch / 2 ^ (8 - p.depth)).testBit b := by
  have index : 8 * channelIndex ch + (8 - p.depth + b) = 8 * channelIndex ch + (8 - p.depth) + b := by omega
  rw [Nat.testBit_div_two_pow, Nat.add_comm b, testBit_channelValue _ _ (by omega), index]
  cases lower <;> cases ch <;> rfl

/-- The one slot of a plane that shows a row is that of its row-pair. -/
theorem slotBit_eq {p : Params} (hd : p.depth ≤ 8) {b : Nat} (hb : b < p.depth) (fb : Nat → Nat → Pixel) {r : Nat}
    (hr : r < p.h / 2) (x : Nat) {y : Nat} (hy : y / (p.h / 2) < 2) (ch : Channel) : slotBit p fb b r x y ch =
      (decide (r = y % (p.h / 2)) && (channelValue (fb x y) ch / 2 ^ (8 - p.depth)).testBit b) := by
  have split := Nat.div_add_mod y (p.h / 2)
  have rest := Nat.mod_lt y (show 0 < p.h / 2 by omega)
  rw [slotBit, channelBit_columnOf hd hb, channelBit_columnOf hd hb]
  rcases Nat.le_one_iff_eq_zero_or_eq_one.mp (Nat.le_of_lt_succ hy) with half | half <;> rw [half] at split
  · rw [Nat.mul_zero, Nat.zero_add] at split
    by_cases e : y = r
    · rw [if_pos e, decide_eq_true (by omega), e]; rfl
    · rw [if_neg e, if_neg (by omega), decide_eq_false (by omega)]; rfl
  · rw [Nat.mul_one] at split
    by_cases e : y = r + p.h / 2
    · rw [if_neg (by omega), if_pos e, decide_eq_true (by omega), e]; rfl
    · rw [if_neg (by omega), if_neg e, decide_eq_false (by omega)]; rfl

/-- A number below 2^d is the sum of its bits. -/
theorem sum_testBit (n d : Nat) : ∑ b ∈ Finset.range d, (n.testBit b).toNat * 2 ^ b = n % 2 ^ d := by
  induction d with
  | zero => simp [Nat.mod_one]
  | succ d ih =>
    rw [Finset.sum_range_succ, ih, Nat.toNat_testBit, Nat.pow_succ, Nat.mod_mul, Nat.mul_comm]

theorem channelValue_lt (v : Pixel) (ch : Channel) : channelValue v ch < 256 := by
  cases ch <;> exact Nat.mod_lt _ (by decide)

/-- A frame lights a channel by its value: the bits of the planes add up (43_led_scan.md R376). -/
theorem litTime_frameEvents {p : Params} (legal : configCheck p = true) (fb : Nat → Nat → Pixel) (unit : Nat)
    {x y : Nat} (hx : x < p.w) (hy : y < p.h) (ch : Channel) (v : PanelView) :
    litTime p x y ch (frameEvents p fb unit) v = channelValue (fb x y) ch / 2 ^ (8 - p.depth) * unit := by
  obtain ⟨-, hh, hd, -⟩ := configCheck_iff.mp legal
  have half : y / (p.h / 2) < 2 := (Nat.div_lt_iff_lt_mul (by omega)).mpr (by omega)
  have slots : ∀ b < p.depth, ∀ v, litTime p x y ch ((List.range (p.h / 2)).flatMap fun r => slotEvents p fb unit b r) v =
      ((channelValue (fb x y) ch / 2 ^ (8 - p.depth)).testBit b).toNat * 2 ^ b * unit := by
    intro b hb v
    have ofRow : ∀ r ∈ Finset.range (p.h / 2), (if slotBit p fb b r x y ch then unit * 2 ^ b else 0) =
        if r = y % (p.h / 2) then
          if (channelValue (fb x y) ch / 2 ^ (8 - p.depth)).testBit b then unit * 2 ^ b else 0
        else 0 := by
      intro r hr
      simp only [slotBit_eq hd.2 hb fb (Finset.mem_range.mp hr) x half ch, Bool.and_eq_true, decide_eq_true_eq, ite_and]
    rw [litTime_flatMap_range p x y ch _ _ _ fun r _ v => litTime_slotEvents p fb unit b r x y ch hx v,
      Finset.sum_congr rfl ofRow, Finset.sum_ite_eq' (Finset.range (p.h / 2)) (y % (p.h / 2)),
      if_pos (Finset.mem_range.mpr (Nat.mod_lt _ (by omega)))]
    cases (channelValue (fb x y) ch / 2 ^ (8 - p.depth)).testBit b
    · simp
    · simp [Nat.mul_comm]
  have small : channelValue (fb x y) ch / 2 ^ (8 - p.depth) < 2 ^ p.depth := by
    rw [Nat.div_lt_iff_lt_mul (Nat.two_pow_pos _), ← Nat.pow_add, show p.depth + (8 - p.depth) = 8 by omega]
    exact channelValue_lt _ _
  rw [frameEvents, litTime_append, litTime_flatMap_range p x y ch _ _ _ slots, ← Finset.sum_mul, sum_testBit,
    Nat.mod_eq_of_lt small]
  exact Nat.add_zero _

/-- Settles O32. -/
theorem frameLightsEachChannelByItsValue : Obligations.FrameLightsEachChannelByItsValue := by
  intro s legal hf en phase h0
  exact ⟨_, (afterSlots_frame legal hf en phase h0).frame_history, fun x y ch v hx hy =>
    litTime_frameEvents legal _ _ hx hy ch v⟩

end Sys2Proof.Proofs.ScanOut
end

section
/-! SUPPORT. What the register writes store (44_control.md R404 to R412): the scan, text, parameter, synth and mapper
registers. -/

namespace Sys2Proof.Proofs.RegisterWrites

open Sys2Proof Sys2Proof.Machine Sys2Proof.Proofs.Effects

/-! ## Scan registers -/

/-- A zero period is stored as 1 (44_control.md R404). -/
theorem period_stored (v : Word) : (if v.extractLsb' 0 24 = 0#24 then 1#24 else v.extractLsb' 0 24) =
    BitVec.ofNat 24 (if v.toNat % 2 ^ 24 = 0 then 1 else v.toNat % 2 ^ 24) := by
  have low : (v.extractLsb' 0 24).toNat = v.toNat % 2 ^ 24 := by simp
  have zero : v.extractLsb' 0 24 = 0#24 ↔ v.toNat % 2 ^ 24 = 0 := by rw [← BitVec.toNat_inj, low]; rfl
  by_cases h : v.toNat % 2 ^ 24 = 0
  · rw [if_pos (zero.mpr h), if_pos h]
  · rw [if_neg (mt zero.mp h), if_neg h, ← low, BitVec.ofNat_toNat, BitVec.setWidth_eq]

/-- Settles O36. -/
theorem scanRegistersStore : Obligations.ScanRegistersStore := fun s v =>
  ⟨by rw [← period_stored]; rfl, rfl⟩

/-! ## Text registers -/

/-- A text store replaces its byte below TEXT_MAX and no other (10_state.md R60). -/
theorem getElem?_storeTextByte (p : Params) (t : Vector Byte 64) (i : Nat) (b : Byte) {k : Nat} (hk : k < 64) :
    (storeTextByte p t i b).toList[k]? = if i = k ∧ k < p.textMax then some b else t.toList[k]? := by
  unfold storeTextByte
  by_cases same : i = k
  · subst same
    by_cases below : i < p.textMax
    · rw [if_pos below, if_pos ⟨rfl, below⟩, Vector.getElem?_toList, Vector.getElem?_setIfInBounds_self, if_pos hk]
    · rw [if_neg below, if_neg (not_and_of_not_right _ below)]
  · rw [if_neg (not_and_of_not_left (k < p.textMax) same)]
    split_ifs
    · rw [Vector.getElem?_toList, Vector.getElem?_toList, Vector.getElem?_setIfInBounds_ne same]
    · rfl

/-- Settles O38. -/
theorem textRegistersStore : Obligations.TextRegistersStore := by
  intro s m v legal
  obtain ⟨-, -, -, -, hmax, -⟩ := configCheck_iff.mp legal
  refine ⟨⟨_, rfl, ?_⟩, ⟨_, rfl, fun k hk => ?_⟩⟩
  · have low : (v.extractLsb' 0 8).toNat = v.toNat % 256 := by simp
    rw [low, BitVec.toNat_ofNat, Nat.mod_eq_of_lt (by omega)]
  · simp only [getElem?_storeTextByte _ _ _ _ hk]
    by_cases word : k / 4 = m.toNat
    · have place : k = 4 * m.toNat + k % 4 := by omega
      have bound : k % 4 < 4 := Nat.mod_lt _ (by decide)
      generalize k % 4 = j at place bound
      subst place
      interval_cases j <;> simp [word]
    · rw [if_neg (by omega), if_neg (by omega), if_neg (by omega), if_neg (by omega), if_neg fun h => word h.1]

/-! ## Parameter registers -/

/-- What a parameter register of range [lo, hi] may hold after a write of `v` (10_state.md R70). -/
def Stored (v lo hi y : F32) : Prop :=
  fle lo y = true ∧ fle y hi = true ∧ (fIsNaN v = true → y = lo) ∧ (flt v lo = true → y = lo) ∧
    (fle lo v = true → fle v hi = true → fIsZero v = false → y = v) ∧
    (fIsZero v = true → y = lo) ∧ (flt hi v = true → y = hi)

theorem not_nan_of_zero {v : F32} (h : fIsZero v = true) : fIsNaN v = false := by
  simp only [fIsZero, fIsNaN, decide_eq_true_eq, decide_eq_false_iff_not] at *
  omega

theorem fkey_of_zero {v : F32} (h : fIsZero v = true) : fkey v = 0 := by
  have : fmag v = 0 := by simpa [fIsZero] using h
  simp [fkey, this]

/-- A zero is clamped to MIN: it is below it, or MIN is +0 and it is stored as that. -/
theorem clampP_of_zero {v lo hi : F32} (hr : fle lo hi = true) (hl : lo = fPosZero ∨ flt fPosZero lo = true)
    (hv : fIsZero v = true) : clampP v lo hi = lo := by
  obtain ⟨hlo, hhi, order⟩ := fle_iff.mp hr
  have nan := not_nan_of_zero hv
  have key := fkey_of_zero hv
  unfold clampP
  rw [if_neg (by simp [nan])]
  rcases hl with rfl | hl
  · have zero : fkey fPosZero = 0 := by decide
    rw [if_neg (by simp [(flt_eq_false_iff nan hlo).mpr (by omega)]),
      if_neg (by simp [(flt_eq_false_iff hhi nan).mpr (by omega)]), if_pos hv]
  · obtain ⟨-, -, pos⟩ := flt_iff.mp hl
    have zero : fkey fPosZero = 0 := by decide
    rw [if_pos (flt_iff.mpr ⟨nan, hlo, by omega⟩)]

/-- The clamp of 10_state.md R70 meets its statement, where MIN is +0 or above it. -/
theorem stored_clampP (v : F32) {lo hi : F32} (hr : fle lo hi = true) (hl : lo = fPosZero ∨ flt fPosZero lo = true) :
    Stored v lo hi (clampP v lo hi) := by
  obtain ⟨hlo, hhi, order⟩ := fle_iff.mp hr
  obtain ⟨above, below⟩ := clampP_mem (v := v) hr fun _ => by
    rcases hl with rfl | hl
    · exact hr
    · exact fle_trans (fle_of_flt hl) hr
  refine ⟨above, below, fun nan => ?_, fun low => ?_, fun h1 h2 hz => ?_, clampP_of_zero hr hl, fun high => ?_⟩
  · rw [clampP, if_pos nan]
  · obtain ⟨nan, -⟩ := flt_iff.mp low
    rw [clampP, if_neg (by simp [nan]), if_pos low]
  · exact clampP_of_mem h1 h2 (by simp [hz])
  · obtain ⟨-, nan, key⟩ := flt_iff.mp high
    rw [clampP, if_neg (by simp [nan]), if_neg (by simp [(flt_eq_false_iff nan hlo).mpr (by omega)]), if_pos high]

theorem stored_param (v : F32) (r : ParamReg) : Stored v (paramMin r) (paramMax r) (clampP v (paramMin r) (paramMax r)) :=
  stored_clampP v (paramMin_le_paramMax r) (by cases r <;> decide)

/-- Settles O39. -/
theorem parameterRegistersClamp : Obligations.ParameterRegistersClamp := fun _ v =>
  ⟨⟨_, stored_param v .freq, rfl⟩, ⟨_, stored_param v .amp, rfl⟩, ⟨_, stored_param v .decay, rfl⟩,
    ⟨_, stored_param v .offset, rfl⟩, ⟨_, stored_param v .pdecay, rfl⟩, ⟨_, stored_param v .nmix, rfl⟩,
    ⟨_, stored_param v .envc, rfl⟩, ⟨_, stored_param v .comp, rfl⟩, rfl⟩

/-! ## Synth and mapper registers -/

/-- Settles O40. -/
theorem synthAndMapperRegistersStore : Obligations.SynthAndMapperRegistersStore := by
  intro s v legal
  obtain ⟨-, -, -, -, -, -, -, hmax, -⟩ := configCheck_iff.mp legal
  refine ⟨⟨_, rfl, ?_⟩, rfl, rfl⟩
  rw [BitVec.toNat_ofNat, Nat.mod_eq_of_lt (by omega)]

end Sys2Proof.Proofs.RegisterWrites
end

section
/-! SUPPORT. What a read of the bus gives (10_state.md R41 to R94, 20_memory.md R124 to R127): the windows, the registers
field by field, and the two ROMs. -/

namespace Sys2Proof.Proofs.RegisterReads

open Sys2Proof Sys2Proof.Machine Sys2Proof.Laws.RoundTrip Sys2Proof.Proofs.BusMap Sys2Proof.Proofs.Frames
  Sys2Proof.Proofs.Invariant

/-! ## A read changes nothing that a read sees -/

theorem readWord_withRdata (s : State) (v : Word) (n : BitVec 18) :
    readWord (s.withEnv { s.env with rdata := v }) n = readWord s n := rfl

/-- Settles O26. -/
theorem readsHaveNoSideEffect : Obligations.ReadsHaveNoSideEffect := fun s a =>
  ⟨rfl, fun b => readByte_congr rfl rfl b, readWord_withRdata s (readWord s a)⟩

/-! ## The windows -/

theorem readWord_fb (s : State) (j : BitVec 16) : readWord s (0b01#2 ++ j) =
    if j.toNat < s.cfg.w * s.cfg.h then (readFb s j.toNat).setWidth 32 else 0#32 := by
  have bound := j.isLt
  have index : (0b01#2 ++ j).toNat = 0x10000 + j.toNat := by rw [toNat_append_add]; rfl
  have window : (0x10000 + j.toNat) / 0x10000 = 1 := by omega
  have place : (0x10000 + j.toNat) % 0x10000 = j.toNat := by omega
  simp only [readWord, index, window, place, OfNat.one_ne_ofNat, if_false, if_true]

theorem readWord_sram (s : State) (j : BitVec 16) : readWord s (0b10#2 ++ j) =
    if j.toNat < s.cfg.maxSamples then readSram s j.toNat else 0#32 := by
  have bound := j.isLt
  have index : (0b10#2 ++ j).toNat = 0x20000 + j.toNat := by rw [toNat_append_add]; rfl
  have window : (0x20000 + j.toNat) / 0x10000 = 2 := by omega
  have place : (0x20000 + j.toNat) % 0x10000 = j.toNat := by omega
  simp only [readWord, index, window, place, if_true]

/-- The low 24 bits of a word, as the mask that reads them back. -/
theorem setWidth_extractLsb'_24 (v : Word) : (v.extractLsb' 0 24).setWidth 32 = v &&& 0x00FFFFFF#32 := by
  apply BitVec.eq_of_toNat_eq
  rw [BitVec.toNat_and, show (0x00FFFFFF#32).toNat = 2 ^ 24 - 1 by rfl, Nat.and_two_pow_sub_one_eq_mod]
  simp
  omega

theorem exec_wrFb_inside (s : State) {j : BitVec 16} (v : Word) (h : j.toNat < s.cfg.w * s.cfg.h) :
    exec (.wrFb j v) s = .next (writeFb s j.toNat (v.extractLsb' 0 24)) := if_pos h

theorem exec_wrFb_outside (s : State) {j : BitVec 16} (v : Word) (h : s.cfg.w * s.cfg.h ≤ j.toNat) :
    exec (.wrFb j v) s = .next s := if_neg (Nat.not_lt.mpr h)

/-- Settles O24. -/
theorem windowsReadAndWrite : Obligations.WindowsReadAndWrite := by
  intro s j v
  refine ⟨fun inside => ⟨_, exec_wrFb_inside s v inside, ?_, exec_wrFb_keepsOutside (exec_wrFb_inside s v inside)⟩,
    fun outside => ⟨exec_wrFb_outside s v outside, ?_⟩, readWord_sram s j⟩
  · change readWord (writeFb s j.toNat (v.extractLsb' 0 24)) (0b01#2 ++ j) = v &&& 0x00FFFFFF#32
    rw [readWord_fb, writeFb_cfg, if_pos inside, readFb_writeFb_same, setWidth_extractLsb'_24]
  · rw [readWord_fb, if_neg (Nat.not_lt.mpr outside)]

/-! ## Fields -/

/-- A flag at bit `k` of a word. -/
def bitAt (b : Bool) (k : Nat) : Nat := if b then 2 ^ k else 0

theorem toNat_ofBool_eq_bitAt (b : Bool) : (BitVec.ofBool b).toNat = bitAt b 0 := by cases b <;> rfl

theorem bitAt_mul (b : Bool) (j k : Nat) : bitAt b j * 2 ^ k = bitAt b (j + k) := by
  cases b
  · exact Nat.zero_mul _
  · exact (Nat.pow_add 2 j k).symm

theorem toNat_setWidth_word {n : Nat} (x : BitVec n) (h : n ≤ 32) : (x.setWidth 32).toNat = x.toNat := by
  rw [BitVec.toNat_setWidth, Nat.mod_eq_of_lt (lt_of_lt_of_le x.isLt (Nat.pow_le_pow_right (by decide) h))]

/-- What a host reads at a byte offset. -/
def readAt (s : State) (a : Nat) : Word := readWord s (BitVec.ofNat 18 (a / 4))

theorem readAt_register (s : State) {a : Nat} (h : a < 0x300 ∧ a % 4 = 0 ∧ ¬(0x100 ≤ a ∧ a ≤ 0x13C)) :
    readAt s a = readRegister s a := by
  have index : 4 * (BitVec.ofNat 18 (a / 4)).toNat = a := by rw [BitVec.toNat_ofNat]; omega
  rw [readAt, readWord_of_not_inWindow s (by rw [index]; unfold InWindow; omega), index]

/-! ## Control, configuration and scan registers -/

theorem statusWord_fields (s : State) : (statusWord s).toNat =
    bitAt (lbusy s) 0 + bitAt (sbusy s) 1 + bitAt (scanActive s) 2 + bitAt s.ctl.fatal 3 + s.ctl.sticky.toNat * 2 ^ 8 := by
  have shift (b : Bool) (k : Nat) : bitAt b k = bitAt b 0 * 2 ^ k := by rw [bitAt_mul, Nat.zero_add]
  rw [shift _ 1, shift _ 2, shift _ 3]
  simp only [statusWord, toNat_append_add, toNat_ofBool_eq_bitAt, BitVec.toNat_ofNat]
  omega

theorem scanPosWord_fields (s : State) : (scanPosWord s).toNat =
    s.scan.plane.toNat + s.scan.rowpair.toNat * 2 ^ 8 + bitAt (scanActive s) 16 := by
  have shift (b : Bool) (k : Nat) : bitAt b k = bitAt b 0 * 2 ^ k := by rw [bitAt_mul, Nat.zero_add]
  rw [shift _ 16]
  simp only [scanPosWord, toNat_append_add, toNat_ofBool_eq_bitAt, BitVec.toNat_ofNat]
  omega

/-- The least k with n <= 2^k, computed by the model from the top bit of n - 1. -/
theorem ceilLog2_eq_clog (n : Nat) : ceilLog2 n = Nat.clog 2 n := by
  unfold ceilLog2
  split_ifs with small
  · exact (Nat.clog_of_right_le_one small 2).symm
  · refine eq_of_forall_ge_iff fun k => ?_
    rw [Nat.clog_le_iff_le_pow (by decide), Nat.add_one_le_iff, Nat.log2_lt (by omega)]
    omega

theorem addrBits_lt {p : Params} (legal : configCheck p = true) : addrBits p < 16 := by
  obtain ⟨-, hh, -⟩ := configCheck_iff.mp legal
  have : Nat.clog 2 (p.h / 2) ≤ 7 := (Nat.clog_le_iff_le_pow (by decide)).mpr (by omega)
  rw [addrBits, ceilLog2_eq_clog]
  omega

theorem cfg0Word_fields {p : Params} (legal : configCheck p = true) : (cfg0Word p).toNat = p.w + p.h * 2 ^ 16 := by
  obtain ⟨hw, hh, -⟩ := configCheck_iff.mp legal
  simp only [cfg0Word, toNat_append_add, BitVec.toNat_ofNat]
  omega

theorem cfg1Word_fields {p : Params} (legal : configCheck p = true) : (cfg1Word p).toNat =
    p.depth + max 1 (Nat.clog 2 (p.h / 2)) * 2 ^ 4 + p.gw * 2 ^ 8 + p.gh * 2 ^ 12 + p.textMax * 2 ^ 16 +
      p.numCtl * 2 ^ 24 := by
  obtain ⟨-, -, hd, glyph, hmax, -, -, -, hctl, -⟩ := configCheck_iff.mp legal
  have lines := addrBits_lt legal
  rw [← ceilLog2_eq_clog, ← addrBits]
  simp only [cfg1Word, toNat_append_add, BitVec.toNat_ofNat]
  omega

theorem cfg2Word_fields {p : Params} (legal : configCheck p = true) :
    (cfg2Word p).toNat = p.sampleRate + p.maxSamples * 2 ^ 16 := by
  obtain ⟨-, -, -, -, -, -, hrate, hmax, -⟩ := configCheck_iff.mp legal
  simp only [cfg2Word, toNat_append_add, BitVec.toNat_ofNat]
  omega

theorem readAt_control (s : State) : readAt s 0x000 = 0x42420007#32 ∧ (readAt s 0x004).toNat = bitAt s.ctl.scanEn 0 ∧
    (readAt s 0x008).toNat =
      bitAt (lbusy s) 0 + bitAt (sbusy s) 1 + bitAt (scanActive s) 2 + bitAt s.ctl.fatal 3 + s.ctl.sticky.toNat * 2 ^ 8 ∧
    (readAt s 0x00C).toNat = s.ctl.irqPend.toNat ∧ (readAt s 0x010).toNat = s.ctl.irqEn.toNat := by
  simp (disch := decide) only [readAt_register]
  exact ⟨rfl, (toNat_setWidth_word _ (by decide)).trans (toNat_ofBool_eq_bitAt _), statusWord_fields s,
    toNat_setWidth_word _ (by decide), toNat_setWidth_word _ (by decide)⟩

theorem readAt_config {s : State} (legal : configCheck s.cfg = true) :
    (readAt s 0x014).toNat = s.cfg.w + s.cfg.h * 2 ^ 16 ∧
    (readAt s 0x018).toNat = s.cfg.depth + max 1 (Nat.clog 2 (s.cfg.h / 2)) * 2 ^ 4 + s.cfg.gw * 2 ^ 8 +
      s.cfg.gh * 2 ^ 12 + s.cfg.textMax * 2 ^ 16 + s.cfg.numCtl * 2 ^ 24 ∧
    (readAt s 0x01C).toNat = s.cfg.sampleRate + s.cfg.maxSamples * 2 ^ 16 := by
  simp (disch := decide) only [readAt_register]
  exact ⟨cfg0Word_fields legal, cfg1Word_fields legal, cfg2Word_fields legal⟩

theorem readAt_scan (s : State) : (readAt s 0x020).toNat = s.scan.period.toNat ∧
    (readAt s 0x024).toNat = s.scan.unit.toNat ∧
    (readAt s 0x028).toNat = s.scan.plane.toNat + s.scan.rowpair.toNat * 2 ^ 8 + bitAt (scanActive s) 16 ∧
    readAt s 0x02C = s.scan.frameCount ∧
    (scanActive s = true ↔ s.scan.phase ≠ .idle ∧ s.scan.phase ≠ .setup) := by
  simp (disch := decide) only [readAt_register]
  exact ⟨toNat_setWidth_word _ (by decide), toNat_setWidth_word _ (by decide), scanPosWord_fields s, rfl,
    scanActive_iff⟩

/-! ## Drawing, scroll and text registers -/

theorem scrollPosWord_fields (k : Scroll) : (scrollPosWord k).toNat = k.xoff.toNat + k.sy.toNat * 2 ^ 16 := by
  rw [scrollPosWord, toNat_append_add, Nat.add_comm]

theorem scrollCtlWord_fields (k : Scroll) :
    (scrollCtlWord k).toNat = bitAt k.active 0 + bitAt k.rainbow 1 + k.phase.toNat * 2 ^ 8 := by
  have shift : bitAt k.rainbow 1 = bitAt k.rainbow 0 * 2 ^ 1 := (bitAt_mul _ 0 1).symm
  rw [shift]
  simp only [scrollCtlWord, toNat_append_add, toNat_ofBool_eq_bitAt, BitVec.toNat_ofNat]
  omega

theorem readAt_textbuf (s : State) {m j : Nat} (hm : m < 16) (hj : j < 4) (hmax : 4 * m + j < s.cfg.textMax) :
    s.led.textbuf.toList[4 * m + j]? = some ((readAt s (0x100 + 4 * m)).extractLsb' (8 * j) 8) := by
  have place : 4 * (BitVec.ofNat 18 ((0x100 + 4 * m) / 4)).toNat = 0x100 + 4 * m := by rw [BitVec.toNat_ofNat]; omega
  have inside : 4 * m + j < s.led.textbuf.toList.length := by rw [Vector.length_toList]; omega
  rw [readAt, readWord_textbuf s hm place, textWord_byte s m hj, textByte, if_pos hmax, List.getD_eq_getElem _ _ inside,
    List.getElem?_eq_getElem inside]

theorem readAt_led (s : State) : readAt s 0x040 = s.led.larg0 ∧ readAt s 0x044 = s.led.larg1 ∧
    (readAt s 0x048).toNat = s.led.larg2.toNat ∧ (readAt s 0x04C).toNat = s.led.lcolor.toNat ∧
    (readAt s 0x054).toNat = s.led.textLen.toNat ∧
    (readAt s 0x058).toNat = s.led.scroll.xoff.toNat + s.led.scroll.sy.toNat * 2 ^ 16 ∧
    (readAt s 0x05C).toNat =
      bitAt s.led.scroll.active 0 + bitAt s.led.scroll.rainbow 1 + s.led.scroll.phase.toNat * 2 ^ 8 ∧
    (readAt s 0x060).toNat = s.led.scroll.color.toNat ∧
    ∀ m j, m < 16 → j < 4 → 4 * m + j < s.cfg.textMax →
      s.led.textbuf.toList[4 * m + j]? = some ((readAt s (0x100 + 4 * m)).extractLsb' (8 * j) 8) := by
  refine ⟨?_, ?_, ?_, ?_, ?_, ?_, ?_, ?_, fun m j => readAt_textbuf s⟩ <;> rw [readAt_register s (by decide)]
  · rfl
  · rfl
  · exact toNat_setWidth_word _ (by decide)
  · exact toNat_setWidth_word _ (by decide)
  · exact toNat_setWidth_word _ (by decide)
  · exact scrollPosWord_fields _
  · exact scrollCtlWord_fields _
  · exact toNat_setWidth_word _ (by decide)

/-! ## Synth and mapper registers -/

theorem readAt_params (s : State) : ∀ q ∈ [(0x200, s.syn.par.freq), (0x204, s.syn.par.amp), (0x208, s.syn.par.decay),
    (0x210, s.syn.par.offset), (0x214, s.syn.par.pdecay), (0x218, s.syn.par.nmix), (0x21C, s.syn.par.envc),
    (0x220, s.syn.par.comp), (0x280, s.pm.raw)], readAt s q.1 = q.2 := by
  simp (disch := decide) only [List.forall_mem_cons, readAt_register]
  exact ⟨rfl, rfl, rfl, rfl, rfl, rfl, rfl, rfl, rfl, nofun⟩

theorem readAt_synth (s : State) : (readAt s 0x20C).toNat = s.syn.par.wave.toNat ∧
    (readAt s 0x224).toNat = s.syn.capacity.toNat ∧ (readAt s 0x228).toNat = bitAt s.syn.fmt 0 ∧
    (readAt s 0x230).toNat = s.syn.activeLen.toNat ∧ (readAt s 0x234).toNat = s.syn.written.toNat ∧
    (readAt s 0x238).toNat = s.syn.pos.toNat := by
  simp (disch := decide) only [readAt_register]
  exact ⟨toNat_setWidth_word _ (by decide), toNat_setWidth_word _ (by decide),
    (toNat_setWidth_word _ (by decide)).trans (toNat_ofBool_eq_bitAt _), toNat_setWidth_word _ (by decide),
    toNat_setWidth_word _ (by decide), toNat_setWidth_word _ (by decide)⟩

theorem pmStateWord_fields {s : State} {c : Nat} (h : c < s.cfg.numCtl) : (pmStateWord s c).toNat =
    (getCtl s.pm c).sel.toNat + bitAt (getCtl s.pm c).engaged 8 + bitAt (getCtl s.pm c).changed 9 := by
  have shift (b : Bool) (k : Nat) : bitAt b k = bitAt b 0 * 2 ^ k := by rw [bitAt_mul, Nat.zero_add]
  rw [shift _ 8, shift _ 9]
  simp only [pmStateWord, h, if_true, toNat_append_add, toNat_ofBool_eq_bitAt, BitVec.toNat_ofNat]
  omega

theorem readAt_mapper {s : State} (legal : configCheck s.cfg = true) (c : Nat) (x : PmControl) (hc : c < s.cfg.numCtl)
    (hx : s.pm.ctl.toList[c]? = some x) :
    (readAt s (0x288 + 4 * c)).toNat = x.sel.toNat + bitAt x.engaged 8 + bitAt x.changed 9 ∧
      readAt s (0x298 + 4 * c) = x.last := by
  obtain ⟨-, -, -, -, -, -, -, -, hctl, -⟩ := configCheck_iff.mp legal
  have control : getCtl s.pm c = x := by rw [getCtl, List.getD_eq_getElem?_getD, hx]; rfl
  rw [readAt_register s (by omega), readAt_register s (by omega), readRegister_pmState s (by omega),
    readRegister_pmLast s (by omega), pmStateWord_fields hc, pmLastWord, if_pos hc, control]
  exact ⟨rfl, rfl⟩

theorem readAt_commands (s : State) : readAt s 0x050 = 0#32 ∧ readAt s 0x22C = 0#32 ∧ readAt s 0x284 = 0#32 := by
  simp (disch := decide) only [readAt_register]
  exact ⟨rfl, rfl, rfl⟩

/-! ## The ROMs -/

theorem readAt_pmTab (s : State) {i j : Nat} (hi : i < 8) (hj : j < 8) :
    readAt s (0x300 + 32 * i + 4 * j) = pmEntryWord (pmTab (BitVec.ofNat 3 i)) (4 * j) := by
  have index : (BitVec.ofNat 18 ((0x300 + 32 * i + 4 * j) / 4)).toNat = 0xC0 + 8 * i + j := by
    rw [BitVec.toNat_ofNat]; omega
  have notSram : (0xC0 + 8 * i + j) / 0x10000 ≠ 2 := by omega
  have notFb : (0xC0 + 8 * i + j) / 0x10000 ≠ 1 := by omega
  have notSine : (0xC0 + 8 * i + j) / 0x100 ≠ 1 := by omega
  have window : (0xC0 + 8 * i + j) / 0x40 = 3 := by omega
  have entry : (0xC0 + 8 * i + j) % 0x40 / 8 = i := by omega
  have word : (0xC0 + 8 * i + j) % 8 = j := by omega
  simp only [readAt, readWord, index, notSram, notFb, notSine, window, entry, word, if_false, if_true]

theorem readAt_sineTab (s : State) {i : Nat} (hi : i < 256) : readAt s (0x400 + 4 * i) = sineAt i := by
  have index : (BitVec.ofNat 18 ((0x400 + 4 * i) / 4)).toNat = 0x100 + i := by rw [BitVec.toNat_ofNat]; omega
  have notSram : (0x100 + i) / 0x10000 ≠ 2 := by omega
  have notFb : (0x100 + i) / 0x10000 ≠ 1 := by omega
  have window : (0x100 + i) / 0x100 = 1 := by omega
  have place : (0x100 + i) % 0x100 = i := by omega
  simp only [readAt, readWord, index, notSram, notFb, window, place, if_false, if_true]

/-- The second quarter of the sine table runs back through the first. -/
theorem sineAt_mirror : ∀ i ≤ 64, sineAt (64 + i) = sineAt (64 - i) := by decide +kernel

/-- The second half of the sine table is the first with the sign bit turned. -/
theorem sineAt_negate : ∀ i < 128, 1 ≤ i → sineAt (128 + i) = sineAt i ^^^ 0x80000000#32 := by decide +kernel

/-! ## Read-only words -/

/-- A write to a mapped read-only word is ignored (10_state.md R41, 44_control.md R413). -/
theorem readOnly_ignoresWrites (s : State) {n : BitVec 18} (v : Word)
    (h : 4 * n.toNat ∈ [0x000, 0x014, 0x018, 0x01C, 0x028, 0x02C, 0x058, 0x05C, 0x060, 0x230, 0x234, 0x238] ∨
      (0x288 ≤ 4 * n.toNat ∧ 4 * n.toNat ≤ 0x2A4) ∨ (0x300 ≤ 4 * n.toNat ∧ 4 * n.toNat ≤ 0x7FC) ∨
      (0x80000 ≤ 4 * n.toNat ∧ 4 * n.toNat ≤ 0xBFFFC)) : runAccess ⟨true, wordOffset n, v⟩ s = .next s := by
  apply runAccess_of_ignored
  simp only [List.mem_cons, List.not_mem_nil, or_false] at h
  have notFb : n.toNat / 0x10000 ≠ 1 := by omega
  have notText : n.toNat / 16 ≠ 4 := by omega
  rw [decode_write_wordOffset, decodeWrite, if_neg notFb, if_neg notText]
  unfold decodeRegWrite
  split
  case h_27 => rfl -- the offsets that take no write
  all_goals omega

/-- Settles O28, group by group. -/
theorem registersReadTheirFields : Obligations.RegistersReadTheirFields := by
  intro s legal read bit p k
  obtain ⟨id, control⟩ := readAt_control s
  refine ⟨id, control, readAt_config legal, readAt_scan s, readAt_led s, ⟨readAt_params s, readAt_synth s⟩,
    readAt_mapper legal, readAt_commands s, fun i j hi hj => ?_,
    ⟨fun i hi => ?_, fun i hi => ?_, fun i h1 hi => ?_⟩, fun n v => readOnly_ignoresWrites s v⟩
  · refine (readAt_pmTab s hi hj).trans ?_
    interval_cases i <;> interval_cases j <;> rfl
  · refine (readAt_sineTab s (by omega)).trans ?_
    interval_cases i <;> rfl
  · exact (readAt_sineTab s (by omega)).trans ((sineAt_mirror i hi).trans (readAt_sineTab s (by omega)).symm)
  · refine (readAt_sineTab s (by omega)).trans ((sineAt_negate i hi h1).trans ?_)
    exact congrArg (· ^^^ 0x80000000#32) (readAt_sineTab s (by omega)).symm

end Sys2Proof.Proofs.RegisterReads
end

section
/-! SUPPORT. Hard and soft reset (70_reset_and_hazards.md): what they leave in every part of the machine, and what a host
reads after one. -/

namespace Sys2Proof.Proofs.Resets

open Sys2Proof Sys2Proof.Machine Sys2Proof.Proofs.RegisterReads

/-! ## The words after reset -/

/-- The single registers after reset, offset by offset (70_reset_and_hazards.md R461). -/
theorem readRegister_reset : ∀ q ∈ [(0x000, 0x42420007#32), (0x004, 0#32), (0x008, 0#32), (0x00C, 0#32), (0x010, 0#32),
    (0x014, 0x00400040#32), (0x018, 0x01407554#32), (0x01C, 0x40001F40#32), (0x020, 0x00000800#32),
    (0x024, 0x00000010#32), (0x028, 0#32), (0x02C, 0#32), (0x040, 0#32), (0x044, 0#32), (0x048, 0#32), (0x04C, 0#32),
    (0x050, 0#32), (0x054, 0#32), (0x058, 0#32), (0x05C, 0#32), (0x060, 0#32), (0x200, 0x43DC0000#32),
    (0x204, 0x3F800000#32), (0x208, 0x3F000000#32), (0x20C, 0#32), (0x210, 0#32), (0x214, 0#32), (0x218, 0#32),
    (0x21C, 0x3F800000#32), (0x220, 0#32), (0x224, 0x00004000#32), (0x228, 0#32), (0x22C, 0#32), (0x230, 0#32),
    (0x234, 0#32), (0x238, 0#32), (0x280, 0#32), (0x284, 0#32)],
    (q.1 < 0x300 ∧ q.1 % 4 = 0 ∧ ¬(0x100 ≤ q.1 ∧ q.1 ≤ 0x13C)) ∧ readRegister State.reset q.1 = q.2 := by
  decide +kernel

/-- The text buffer is zero after reset. -/
theorem textWord_reset : ∀ m < 16, readWord State.reset (BitVec.ofNat 18 (0x40 + m)) = 0#32 := by decide +kernel

/-- So are the mapper's controls. -/
theorem pmWords_reset : ∀ c < 4, readWord State.reset (BitVec.ofNat 18 (0xA2 + c)) = 0#32 ∧
    readWord State.reset (BitVec.ofNat 18 (0xA6 + c)) = 0#32 := by decide +kernel

/-- Settles O55. -/
theorem resetReadsItsValues : Obligations.ResetReadsItsValues := by
  refine ⟨fun q hq => ?_, textWord_reset, pmWords_reset, by decide +kernel, rfl⟩
  obtain ⟨place, value⟩ := readRegister_reset q hq
  exact (readAt_register State.reset place).trans value

/-! ## Soft reset -/

/-- Settles O56. -/
theorem softResetKeepsTheMemories : Obligations.SoftResetKeepsTheMemories := fun s _ srst =>
  ⟨softReset s, if_pos srst, fun a => readByte_congr (softReset_mem s) rfl a, softReset_cfg s, softReset_ctl s,
    softReset_scan s, softReset_panel s, rfl, softReset_led s, rfl, softReset_syn s, rfl, softReset_pm s⟩

/-! ## Hard reset -/

/-- Taking a turn changes the list of turns and their count only. -/
theorem takeTurn_withEnv (s : State) :
    ∃ turns count, takeTurn s = s.withEnv { s.env with turns := turns, turnNo := count } := by
  unfold takeTurn
  split
  · exact ⟨_, _, rfl⟩
  · exact ⟨_, _, rfl⟩

theorem hostStep_inReset {s : State} (h : s.env.inReset = true) :
    hostStep s = .next (s.withEnv { s.env with bus := s.env.bus.tail }) := by
  unfold hostStep
  split
  next e => rw [e, List.tail_nil, ← e]; rfl
  next => rw [if_pos h]; rfl

theorem engineStep_inReset (a : Agent) {s : State} (h : s.env.inReset = true) : engineStep a s = s := if_pos h

/-- An agent's turn during reset leaves BBX as it is; HOST's takes an access away. -/
theorem runTurn_inReset (a : Agent) {s : State} (h : s.env.inReset = true) :
    ∃ bus, runTurn (.agent a) s = .next (s.withEnv { s.env with bus := bus }) := by
  cases a with
  | host => exact ⟨_, hostStep_inReset h⟩
  | le => exact ⟨s.env.bus, congrArg Host.Outcome.next (engineStep_inReset .le h)⟩
  | se => exact ⟨s.env.bus, congrArg Host.Outcome.next (engineStep_inReset .se h)⟩
  | sy => exact ⟨s.env.bus, congrArg Host.Outcome.next (engineStep_inReset .sy h)⟩
  | timer => exact ⟨s.env.bus, congrArg Host.Outcome.next (engineStep_inReset .timer h)⟩

theorem releaseReset_inReset {s : State} (h : s.env.inReset = true) : releaseReset s =
    (State.resetOf s.cfg).withEnv { s.env with inReset := false, epoch := s.env.epoch + 1 } := if_pos h

/-- Settles O57. -/
theorem hardResetRestartsTheMachine : Obligations.HardResetRestartsTheMachine := by
  intro s
  obtain ⟨turns, count, taken⟩ := takeTurn_withEnv s
  refine ⟨fun turn => ?_, fun inReset a turn => ?_, fun ⟨turn, inReset⟩ => ?_⟩
  · rw [step, turn, taken]
    exact ⟨_, rfl, rfl, rfl⟩
  · rw [step, turn, taken]
    obtain ⟨bus, run⟩ := runTurn_inReset a (s := s.withEnv { s.env with turns := turns, turnNo := count }) inReset
    exact ⟨_, run, rfl, inReset, rfl⟩
  · rw [step, turn, taken]
    have run := releaseReset_inReset (s := s.withEnv { s.env with turns := turns, turnNo := count }) inReset
    exact ⟨_, congrArg Host.Outcome.next run, rfl, rfl, rfl, rfl⟩

end Sys2Proof.Proofs.Resets
end

section
/-! SUPPORT. The mapper's commands (41_param_map.md): SELECT, NEXT and PREV, and UPDATE with its table, clamps and formulas
written out. -/

namespace Sys2Proof.Proofs.MapperCommands

open Sys2Proof Sys2Proof.Machine

/-! ## Replacing a control -/

/-- Replacing a legal control changes that control alone. -/
theorem withControl_spec (s : State) {c : Nat} (hc : c < 4) (y : PmControl) :
    withControl s c y = s.withPm { s.pm with ctl := (withControl s c y).pm.ctl } ∧
      ∀ d, d < 4 → getCtl (withControl s c y).pm d = if d = c then y else getCtl s.pm d :=
  ⟨rfl, fun _ hd => getCtl_setCtl s.pm y hc hd⟩

theorem lt_four_of_legal {p : Params} (legal : configCheck p = true) {c : Nat} (hc : c < p.numCtl) : c < 4 := by
  obtain ⟨-, -, -, -, -, -, -, -, hctl, -⟩ := configCheck_iff.mp legal
  omega

/-! ## SELECT, NEXT and PREV -/

theorem mapSelect_eq (s : State) (c : Nat) (k : BitVec 3) : mapSelect s c k = withControl s c
    ⟨k, decide (k = (getCtl s.pm c).sel) && (getCtl s.pm c).engaged, false, (getCtl s.pm c).last⟩ := by
  unfold mapSelect
  dsimp only
  by_cases same : k = (getCtl s.pm c).sel
  · rw [if_pos same, decide_eq_true same, Bool.true_and, same]
  · rw [if_neg same, decide_eq_false same, Bool.false_and]

theorem add_one_eq_ofNat : ∀ k : BitVec 3, k + 1#3 = BitVec.ofNat 3 ((k.toNat + 1) % 8) := by decide

theorem add_seven_eq_ofNat : ∀ k : BitVec 3, k + 7#3 = BitVec.ofNat 3 ((k.toNat + 7) % 8) := by decide

/-- Settles O54. -/
theorem selectNextPrevMoveTheIndex : Obligations.SelectNextPrevMoveTheIndex := by
  intro s c k legal hf hc
  have four := lt_four_of_legal legal hc
  refine ⟨⟨_, pmCommand_of_legal c _ hf hc, ?_⟩, ⟨_, pmCommand_of_legal c _ hf hc, ?_⟩,
    ⟨_, pmCommand_of_legal c _ hf hc, ?_⟩⟩
  · rw [mapSelect_eq]
    exact withControl_spec s four _
  · rw [← add_one_eq_ofNat]
    exact withControl_spec s four _
  · rw [← add_seven_eq_ofNat]
    exact withControl_spec s four _

/-! ## The table, the targets and the clamps -/

/-- PMTAB, entry by entry (10_state.md R94). -/
theorem pmTab_eq (k : BitVec 3) : pmTab k =
    [⟨0x41A00000#32, 0x460CA000#32, 0x3C23D70A#32, true, 0x0#4, 0x40C37EF5#32⟩,
      ⟨0#32, 0x3F800000#32, 0x3C23D70A#32, false, 0x1#4, 0#32⟩, ⟨0#32, 0x40000000#32, 0x3C23D70A#32, false, 0x2#4, 0#32⟩,
      ⟨0#32, 0x3F800000#32, 0x3C23D70A#32, false, 0x4#4, 0#32⟩,
      ⟨0x3C23D70A#32, 0x41200000#32, 0x3C23D70A#32, true, 0x5#4, 0x40DD0C55#32⟩,
      ⟨0#32, 0x3F800000#32, 0x3C23D70A#32, false, 0x6#4, 0#32⟩, ⟨0#32, 0x41200000#32, 0x3C23D70A#32, false, 0x7#4, 0#32⟩,
      ⟨0#32, 0x3F800000#32, 0x3C23D70A#32, false, 0x8#4, 0#32⟩].getD k.toNat ⟨0#32, 0#32, 0#32, false, 0#4, 0#32⟩ := by
  revert k
  decide

theorem paramMin_mapTarget (k : BitVec 3) : paramMin (mapTarget k) = if k.toNat = 0 then 0x41A00000#32 else 0#32 := by
  revert k
  decide

theorem paramMax_mapTarget (k : BitVec 3) : paramMax (mapTarget k) =
    [0x460CA000#32, 0x3F800000#32, 0x40000000#32, 0x3F800000#32, 0x41200000#32, 0x3F800000#32, 0x41200000#32,
      0x3F800000#32].getD k.toNat 0#32 := by
  revert k
  decide

/-- The targets in the order of PMTAB: every parameter register but WAVE (41_param_map.md R271). -/
theorem mapTarget_eq (k : BitVec 3) : mapTarget k =
    [ParamReg.freq, .amp, .decay, .offset, .pdecay, .nmix, .envc, .comp].getD k.toNat .freq := by
  revert k
  decide

theorem getParam_mapTarget (w : WaveParams) (k : BitVec 3) : getParam w (mapTarget k) =
    [w.freq, w.amp, w.decay, w.offset, w.pdecay, w.nmix, w.envc, w.comp].getD k.toNat 0#32 := by
  have bound := k.isLt
  rw [mapTarget_eq]
  generalize k.toNat = i at bound
  interval_cases i <;> rfl

theorem setParam_mapTarget (w : WaveParams) (k : BitVec 3) (v : F32) : setParam w (mapTarget k) v =
    [{ w with freq := v }, { w with amp := v }, { w with decay := v }, { w with offset := v }, { w with pdecay := v },
      { w with nmix := v }, { w with envc := v }, { w with comp := v }].getD k.toNat w := by
  have bound := k.isLt
  rw [mapTarget_eq]
  generalize k.toNat = i at bound
  interval_cases i <;> rfl

theorem clampRaw_eq (v : F32) : clampRaw v = if fIsNaN v ∨ flt v 0#32 then 0#32 else if flt 0x3F800000#32 v then
    0x3F800000#32 else if fIsZero v then 0#32 else v := by
  simp only [clampRaw, Bool.or_eq_true]
  rfl

theorem clamp01_eq (v : F32) : clamp01 v =
    if fIsNaN v ∨ flt v 0#32 then 0#32 else if flt 0x3F800000#32 v then 0x3F800000#32 else v := by
  simp only [clamp01, Bool.or_eq_true]
  rfl

theorem clampP_eq (v lo hi : F32) : clampP v lo hi =
    if fIsNaN v ∨ flt v lo then lo else if flt hi v then hi else if fIsZero v then 0#32 else v := by
  by_cases nan : fIsNaN v
  · rw [clampP, if_pos nan, if_pos (.inl nan)]
  · simp only [clampP, nan, Bool.false_eq_true, if_false, false_or]
    rfl

/-! ## UPDATE -/

section
variable (s : State) (c : Nat)

/-- `cur` of UPDATE: the target register's value on [0, 1] (41_param_map.md R265). -/
def updateCur : F32 := mapNorm (pmTab (getCtl s.pm c).sel) (getParam s.syn.par (mapTarget (getCtl s.pm c).sel))

/-- ENGAGED after UPDATE (41_param_map.md R265). -/
def updateEngaged : Bool :=
  (getCtl s.pm c).engaged || fle (fabs (fsub (clampRaw s.pm.raw) (updateCur s c))) s.cfg.engageTol

/-- The value that UPDATE measures the change from: LAST, or cur for a control that has just engaged. -/
def updateBase : F32 := if (getCtl s.pm c).engaged then (getCtl s.pm c).last else updateCur s c

/-- UPDATE commits (41_param_map.md R262, R270). -/
def updateCommits : Bool :=
  updateEngaged s c && flt (pmTab (getCtl s.pm c).sel).thr (fabs (fsub (clampRaw s.pm.raw) (updateBase s c)))

/-- The control after UPDATE. -/
def updatedControl : PmControl :=
  ⟨(getCtl s.pm c).sel, updateEngaged s c, updateCommits s c,
    if updateCommits s c then clampRaw s.pm.raw else if updateEngaged s c then updateBase s c else (getCtl s.pm c).last⟩

/-- The parameter registers after UPDATE. -/
def updatedParams : WaveParams :=
  if updateCommits s c then
    setParam s.syn.par (mapTarget (getCtl s.pm c).sel)
      (clampP (mapDenorm (pmTab (getCtl s.pm c).sel) (clampRaw s.pm.raw)) (paramMin (mapTarget (getCtl s.pm c).sel))
        (paramMax (mapTarget (getCtl s.pm c).sel)))
  else s.syn.par

/-- The commit of an engaged control, with what it decides on named. -/
theorem mapCommit_of_decision {x : PmControl} {commits : Bool} (r : F32)
    (h : flt (pmTab x.sel).thr (fabs (fsub r x.last)) = commits) : mapCommit s c x r =
      withControl (if commits then storeParam s (mapTarget x.sel) (mapDenorm (pmTab x.sel) r) else s) c
        ⟨x.sel, x.engaged, commits, if commits then r else x.last⟩ := by
  rw [mapCommit, h]
  cases commits <;> rfl

/-- UPDATE in one line: what it stores and what becomes of the control (41_param_map.md R262). -/
theorem mapUpdate_eq : mapUpdate s c =
    withControl (s.withSyn { s.syn with par := updatedParams s c }) c (updatedControl s c) := by
  have commit (x : PmControl) (commits : Bool) (sel : x.sel = (getCtl s.pm c).sel)
      (h : flt (pmTab x.sel).thr (fabs (fsub (clampRaw s.pm.raw) x.last)) = commits) :
      commits = updateCommits s c → x.engaged = updateEngaged s c → updateEngaged s c = true → x.last = updateBase s c →
      mapCommit s c x (clampRaw s.pm.raw) =
        withControl (s.withSyn { s.syn with par := updatedParams s c }) c (updatedControl s c) := by
    intro hcommits heng on hlast
    rw [mapCommit_of_decision s c _ h, updatedParams, updatedControl, ← hcommits, heng, hlast, sel, on]
    cases commits <;> rfl
  unfold mapUpdate
  by_cases already : (getCtl s.pm c).engaged
  · have on : updateEngaged s c = true := by rw [updateEngaged, already, Bool.true_or]
    have base : (getCtl s.pm c).last = updateBase s c := by rw [updateBase, if_pos already]
    rw [if_pos already]
    exact commit _ _ rfl rfl (by rw [updateCommits, on, Bool.true_and, base]) (already.trans on.symm) on base
  · have off : (getCtl s.pm c).engaged = false := Bool.eq_false_iff.mpr already
    have base : updateCur s c = updateBase s c := by rw [updateBase, if_neg already]
    have engages : updateEngaged s c = fle (fabs (fsub (clampRaw s.pm.raw) (updateCur s c))) s.cfg.engageTol := by
      rw [updateEngaged, off, Bool.false_or]
    rw [if_neg already]
    split_ifs with near
    · have on : updateEngaged s c = true := engages.trans near
      exact commit ⟨(getCtl s.pm c).sel, true, (getCtl s.pm c).changed, updateCur s c⟩ _ rfl rfl
        (by rw [updateCommits, on, Bool.true_and, base]) on.symm on base
    · have out : updateEngaged s c = false := engages.trans (Bool.eq_false_iff.mpr near)
      have stays : updateCommits s c = false := by rw [updateCommits, out, Bool.false_and]
      simp only [updatedParams, updatedControl, stays, out, off, Bool.false_eq_true, if_false]
      rfl

end

/-- Settles O53: the table, the targets and the clamps are the model's, and UPDATE is its one line. -/
theorem updateEngagesThenCommits : Obligations.UpdateEngagesThenCommits := by
  intro s c legal hf hc x k w zero one step table entry lo hi reg raw r scaled cur engaged base commits back v stored par
  have hentry : entry = pmTab x.sel := (pmTab_eq x.sel).symm
  have hreg : reg = getParam w (mapTarget x.sel) := (getParam_mapTarget w x.sel).symm
  have hr : r = clampRaw raw := (clampRaw_eq raw).symm
  have hcur : cur = updateCur s c.toNat := by
    rw [updateCur, mapNorm, clamp01_eq, ← hreg, ← hentry]
    rfl
  have hengaged : engaged = updateEngaged s c.toNat := by rw [updateEngaged, ← hcur, ← hr]
  have hbase : base = updateBase s c.toNat := by rw [updateBase, ← hcur]
  have hcommits : commits = updateCommits s c.toNat := by
    rw [updateCommits, ← hengaged, ← hbase, ← hr, ← hentry]
  have hv : v = clampP (mapDenorm (pmTab x.sel) r) (paramMin (mapTarget x.sel)) (paramMax (mapTarget x.sel)) := by
    rw [← hentry, clampP_eq, paramMin_mapTarget, paramMax_mapTarget, mapDenorm]
  have hpar : par = updatedParams s c.toNat := by
    rw [updatedParams, ← hcommits, ← hr, ← hv, setParam_mapTarget]
  have hcontrol : updatedControl s c.toNat =
      ⟨x.sel, engaged, commits, if commits then r else if engaged then base else x.last⟩ := by
    rw [updatedControl, ← hcommits, ← hengaged, ← hbase, ← hr]
  refine ⟨_, pmCommand_of_legal c _ hf hc, ?_⟩
  rw [mapUpdate_eq, ← hpar, hcontrol]
  exact withControl_spec (s.withSyn { s.syn with par := par }) (lt_four_of_legal legal hc) _

end Sys2Proof.Proofs.MapperCommands
end

section
/-! SUPPORT. EXP32, LN32 and NOISE as the model holds them to their properties (00_scope.md R9, 40_synth.md R221). -/

namespace Sys2Proof.Proofs.HeldFunctions

open Sys2Proof Sys2Proof.Machine

/-! ## Order and class -/

theorem fFinite_iff {a : F32} : fFinite a = true ↔ fmag a < 0x7F800000 := decide_eq_true_iff

theorem fkey_natAbs (a : F32) : (fkey a).natAbs = fmag a := by
  unfold fkey
  split_ifs <;> omega

/-- A value between two finite values is finite. -/
theorem finite_of_mem {lo v hi : F32} (h1 : fle lo v = true) (h2 : fle v hi = true) (hlo : fFinite lo = true)
    (hhi : fFinite hi = true) : fFinite v = true := by
  obtain ⟨-, -, k1⟩ := fle_iff.mp h1
  obtain ⟨-, -, k2⟩ := fle_iff.mp h2
  rw [fFinite_iff, ← fkey_natAbs] at *
  omega

/-- A value that is not below zero and no -0 has sign 0. -/
theorem fsign_of_nonneg {a : F32} (h : fle fPosZero a = true) (hz : fIsZero a = true → a = fPosZero) :
    fsign a = false := by
  obtain ⟨-, -, key⟩ := fle_iff.mp h
  have key : 0 ≤ fkey a := key
  by_contra neg
  have neg : fsign a = true := by simpa using neg
  rw [fkey, neg, if_pos rfl] at key
  rw [hz (decide_eq_true (by omega))] at neg
  exact absurd neg (by decide)

/-! ## EXP32 by ranges -/

section
variable {x : F32}

theorem fIsZero_iff_fkey : fIsZero x = true ↔ fkey x = 0 := by
  rw [← Int.natAbs_eq_zero, fkey_natAbs]
  exact decide_eq_true_iff

theorem fsign_iff_of_fkey_neg (h : fkey x < 0) : fsign x = true := by
  by_contra pos
  rw [fkey, if_neg pos] at h
  omega

theorem fsign_of_fkey_pos (h : 0 < fkey x) : fsign x = false := by
  by_contra neg
  rw [fkey, if_pos (by simpa using neg)] at h
  omega

theorem exp32_of_zero (hf : fFinite x = true) (h : fkey x = 0) : exp32 x = fOne := by
  rw [exp32, expOf, hf, if_neg (by decide), if_pos (fIsZero_iff_fkey.mpr h)]

theorem exp32_of_neg (hf : fFinite x = true) (h : fkey x < 0) :
    exp32 x = hull (rawNegative Config.expRaw) 31 fPosZero fOne 0 (0x7FFFFFFF - fmag x) := by
  rw [exp32, expOf, hf, if_neg (by decide), if_neg (mt fIsZero_iff_fkey.mp (by omega)), if_pos (fsign_iff_of_fkey_neg h)]

theorem exp32_of_small (hf : fFinite x = true) (h : 0 < fkey x) (small : fmag x ≤ fmag fEight) :
    exp32 x = hull (rawPositive Config.expRaw) 31 fOne fmaxFinite 0 (fmag x) := by
  rw [exp32, expOf, hf, if_neg (by decide), if_neg (mt fIsZero_iff_fkey.mp (by omega)), fsign_of_fkey_pos h,
    if_neg (by decide), if_pos small]

theorem exp32_of_large (hf : fFinite x = true) (h : 0 < fkey x) (large : ¬fmag x ≤ fmag fEight) :
    exp32 x = hull (rawPositive Config.expRaw) 31 (expAtEight Config.expRaw) fPosInf 0 (fmag x) := by
  rw [exp32, expOf, hf, if_neg (by decide), if_neg (mt fIsZero_iff_fkey.mp (by omega)), fsign_of_fkey_pos h,
    if_neg (by decide), if_neg large]

/-! ## Bounds -/

theorem expAtEight_mem : fle fOne (expAtEight Config.expRaw) = true ∧ fle (expAtEight Config.expRaw) fmaxFinite = true :=
  hull_mem _ _ _ _ (by decide) (by decide)

theorem expAtEight_le_inf : fle (expAtEight Config.expRaw) fPosInf = true := fle_trans expAtEight_mem.2 (by decide)

theorem zero_le_expAtEight : fle fPosZero (expAtEight Config.expRaw) = true := fle_trans (by decide) expAtEight_mem.1

/-- At and below zero EXP32 is in [+0, 1.0], and no -0 (00_scope.md R9 (ii)). -/
theorem exp32_mem_of_nonpos (hf : fFinite x = true) (h : fkey x ≤ 0) :
    fle fPosZero (exp32 x) = true ∧ fle (exp32 x) fOne = true ∧ fsign (exp32 x) = false := by
  rcases h.lt_or_eq with neg | zero
  · rw [exp32_of_neg hf neg]
    obtain ⟨above, below⟩ := hull_mem (rawNegative Config.expRaw) 31 (lo := fPosZero) (hi := fOne) 0 (0x7FFFFFFF - fmag x)
      (by decide) (by decide)
    exact ⟨above, below, fsign_of_nonneg above
      (hull_sign _ 31 0 _ (by decide) (by decide) (by decide) (by decide))⟩
  · rw [exp32_of_zero hf zero]
    decide

/-- At and above zero EXP32 is at least 1.0. -/
theorem one_le_exp32 (hf : fFinite x = true) (h : 0 ≤ fkey x) : fle fOne (exp32 x) = true := by
  rcases h.lt_or_eq with pos | zero
  · by_cases small : fmag x ≤ fmag fEight
    · rw [exp32_of_small hf pos small]
      exact (hull_mem _ 31 0 _ (by decide) (by decide)).1
    · rw [exp32_of_large hf pos small]
      exact fle_trans expAtEight_mem.1 (hull_mem _ 31 0 _ zero_le_expAtEight expAtEight_le_inf).1
  · rw [exp32_of_zero hf zero.symm]
    decide

/-- Up to 8.0 it is finite (00_scope.md R9 (iii)). -/
theorem exp32_le_max (hf : fFinite x = true) (h : 0 ≤ fkey x) (small : fmag x ≤ fmag fEight) :
    fle (exp32 x) fmaxFinite = true := by
  rcases h.lt_or_eq with pos | zero
  · rw [exp32_of_small hf pos small]
    exact (hull_mem _ 31 0 _ (by decide) (by decide)).2
  · rw [exp32_of_zero hf zero.symm]
    decide

end

theorem fmag_le_of_pos {x y : F32} (h : 0 < fkey x) (hxy : fkey x ≤ fkey y) : fmag x ≤ fmag y := by
  have := fkey_natAbs x
  have := fkey_natAbs y
  omega

/-- EXP32 is monotone above zero: within each of its two ranges, and across 8.0. -/
theorem exp32_mono_of_pos {x y : F32} (hx : fFinite x = true) (hy : fFinite y = true) (h : 0 < fkey x)
    (hxy : fkey x ≤ fkey y) : fle (exp32 x) (exp32 y) = true := by
  have order := fmag_le_of_pos h hxy
  by_cases smallY : fmag y ≤ fmag fEight
  · rw [exp32_of_small hx h (order.trans smallY), exp32_of_small hy (h.trans_le hxy) smallY]
    exact hull_mono _ 31 0 (by decide) (by decide) order
  · rw [exp32_of_large hy (h.trans_le hxy) smallY]
    by_cases smallX : fmag x ≤ fmag fEight
    · rw [exp32_of_small hx h smallX]
      exact fle_trans (hull_mono _ 31 0 (by decide) (by decide) smallX)
        (hull_mem _ 31 0 _ zero_le_expAtEight expAtEight_le_inf).1
    · rw [exp32_of_large hx h smallX]
      exact hull_mono _ 31 0 zero_le_expAtEight expAtEight_le_inf order

/-- EXP32 never falls (00_scope.md R9 (vi)). -/
theorem exp32_mono {x y : F32} (hx : fFinite x = true) (hy : fFinite y = true) (h : fle x y = true) :
    fle (exp32 x) (exp32 y) = true := by
  obtain ⟨-, -, order⟩ := fle_iff.mp h
  rcases lt_or_ge 0 (fkey x) with pos | nonpos
  · exact exp32_mono_of_pos hx hy pos order
  rcases lt_or_ge (fkey y) 0 with neg | nonneg
  · rw [exp32_of_neg hx (order.trans_lt neg), exp32_of_neg hy neg]
    have magX := fkey_natAbs x
    have magY := fkey_natAbs y
    exact hull_mono _ 31 0 (by decide) (by decide) (by omega)
  · exact fle_trans (exp32_mem_of_nonpos hx nonpos).2.1 (one_le_exp32 hy nonneg)

/-- Settles O49. -/
theorem expKeepsItsProperties : Obligations.ExpKeepsItsProperties := by
  refine ⟨exp32_of_zero (by decide) (by decide), exp32_of_zero (by decide) (by decide), fun x hf hx => ?_,
    fun x hf h0 h8 => ?_, fun x y hx hy h => exp32_mono hx hy h⟩
  · obtain ⟨above, below, sign⟩ := exp32_mem_of_nonpos hf (fle_iff.mp hx).2.2
    exact ⟨finite_of_mem above below (by decide) (by decide), sign, above, below⟩
  · have nonneg : 0 ≤ fkey x := (fle_iff.mp h0).2.2
    have bound : fkey x ≤ fkey fEight := (fle_iff.mp h8).2.2
    have small : fmag x ≤ fmag fEight := by
      rw [← fkey_natAbs, ← fkey_natAbs]
      omega
    have above := one_le_exp32 hf nonneg
    exact ⟨finite_of_mem above (exp32_le_max hf nonneg small) (by decide) (by decide), above⟩

/-! ## LN32 -/

theorem ln32_mem {x : F32} (hf : fFinite x = true) (h : fle fOne x = true) :
    fle fPosZero (ln32 x) = true ∧ fle (ln32 x) fmaxFinite = true := by
  unfold ln32 lnOf
  split_ifs with one outside
  · decide
  · exact fclampTo_mem _ (by decide)
  · exact absurd (Bool.and_eq_true_iff.mpr ⟨hf, h⟩) outside

/-- Settles O50. -/
theorem lnKeepsItsProperties : Obligations.LnKeepsItsProperties := by
  refine ⟨rfl, fun x hf h => ?_⟩
  obtain ⟨above, below⟩ := ln32_mem hf h
  exact ⟨finite_of_mem above below (by decide) (by decide), above⟩

/-! ## NOISE -/

/-- An answer of the oracle is its free value held to [-1, 1]. -/
theorem noiseAnswer_eq (v : F32) : noiseAnswer v = fclampTo fMinusOne fOne v := rfl

theorem drawNoise_mem (e : Env) : fle fMinusOne (drawNoise e).1 = true ∧ fle (drawNoise e).1 fOne = true := by
  unfold drawNoise
  split
  · exact fclampTo_mem _ (by decide)
  · exact fclampTo_mem _ (by decide)

/-- Settles O47. -/
theorem noiseStaysInRange : Obligations.NoiseStaysInRange := by
  refine ⟨drawNoise_mem, fun e v t he above below => ?_⟩
  rw [drawNoise, he]
  exact congrArg (·, { e with noise := t }) ((noiseAnswer_eq v).trans (fclampTo_of_mem above below))

end Sys2Proof.Proofs.HeldFunctions
end

section
/-! SUPPORT. Binary32 arithmetic where it is exact or monotone (00_scope.md R10, R12), and the statements that rest on it:
fractions, waveforms, lengths, envelopes and the range of a sample. -/

namespace Sys2Proof.Proofs.Arithmetic

open Sys2Proof Sys2Proof.Machine Sys2Proof.Laws.RoundTrip Sys2Proof.Proofs.HeldFunctions

/-! ## Signs -/

theorem fmag_fneg (a : F32) : fmag (fneg a) = fmag a :=
  calc fmag (fneg a) = (a.toNat ^^^ 0x80000000) % 2 ^ 31 := by rw [fmag, fneg, BitVec.toNat_xor]; rfl
    _ = a.toNat % 2 ^ 31 ^^^ 0x80000000 % 2 ^ 31 := Nat.xor_mod_two_pow
    _ = fmag a := Nat.xor_zero _

theorem fsign_fneg (a : F32) : fsign (fneg a) = !fsign a := by
  rw [fsign, fneg, BitVec.getLsbD_xor, show (0x80000000#32).getLsbD 31 = true by decide, Bool.xor_true]
  rfl

theorem fkey_fneg (a : F32) : fkey (fneg a) = -fkey a := by
  rw [fkey, fkey, fmag_fneg, fsign_fneg]
  cases fsign a
  · rfl
  · exact (Int.neg_neg _).symm

theorem fint_fneg (a : F32) : fint (fneg a) = -fint a := by
  rw [fint, fint, funits_eq, funits_eq, fmag_fneg, fsign_fneg]
  cases fsign a
  · rfl
  · exact (Int.neg_neg _).symm

theorem fFinite_fneg (a : F32) : fFinite (fneg a) = fFinite a := by rw [fFinite, fmag_fneg]; rfl

theorem fIsNaN_fneg (a : F32) : fIsNaN (fneg a) = fIsNaN a := by rw [fIsNaN, fmag_fneg]; rfl

/-- Negation turns the order round. -/
theorem fle_fneg {a b : F32} (h : fle a b = true) : fle (fneg b) (fneg a) = true := by
  obtain ⟨na, nb, order⟩ := fle_iff.mp h
  exact fle_iff.mpr ⟨(fIsNaN_fneg b).trans nb, (fIsNaN_fneg a).trans na, by rw [fkey_fneg, fkey_fneg]; omega⟩

theorem finite_classes {a : F32} (h : fFinite a = true) : fIsNaN a = false ∧ fIsInf a = false := by
  have mag := fFinite_iff.mp h
  exact ⟨decide_eq_false (by omega), decide_eq_false (by omega)⟩

/-! ## Exact values -/

/-- A number of units of 2^-149 that binary32 holds exactly. -/
def Representable (u : Nat) : Prop := ∃ m, m < 0x7F800000 ∧ unitsOf m = u

theorem representable_zero : Representable 0 := ⟨0, by decide, rfl⟩

theorem finite_fround {u : Nat} (neg : Bool) (h : Representable u) :
    fFinite (fround neg u 1) = true ∧ funits (fround neg u 1) = u := by
  obtain ⟨m, hm, rfl⟩ := h
  have rounds : froundMag (unitsOf m) 1 = m := by
    have := froundMag_exact (m := m) (d := 1) one_pos hm.le
    rwa [Nat.mul_one] at this
  rw [fFinite_fround, funits_fround, rounds]
  exact ⟨decide_eq_true hm, rfl⟩

/-- A finite value is a significand of 24 bits on a power of two. -/
theorem unitsOf_significand {m : Nat} (hm : m < 0x7F800000) : ∃ f k, f < 2 ^ 24 ∧ k ≤ 253 ∧ unitsOf m = f * 2 ^ k := by
  unfold unitsOf
  split_ifs
  · exact ⟨m % 0x800000, 0, by omega, by omega, (Nat.mul_one _).symm⟩
  · exact ⟨_, _, by omega, by omega, rfl⟩

section
variable {f k : Nat} (hf : f < 2 ^ 24) (hk : k ≤ 253)
include hf hk

/-- The integer part of a finite value is representable. -/
theorem representable_floor : Representable (f * 2 ^ k / 2 ^ 149 * 2 ^ 149) := by
  rcases Nat.le_total 149 k with big | small
  · rw [Nat.div_mul_cancel (Dvd.dvd.mul_left (pow_dvd_pow 2 big) f)]
    exact representable hf hk
  · have cancel : f * 2 ^ k / 2 ^ 149 = f / 2 ^ (149 - k) := by
      rw [← Nat.mul_div_mul_right f (2 ^ (149 - k)) (Nat.two_pow_pos k), ← Nat.pow_add, Nat.sub_add_cancel small]
    rw [cancel]
    exact representable (lt_of_le_of_lt (Nat.div_le_self _ _) hf) (by decide)

/-- So is its fraction. -/
theorem representable_fraction : Representable (f * 2 ^ k % 2 ^ 149) := by
  rcases Nat.le_total 149 k with big | small
  · rw [Nat.mod_eq_zero_of_dvd (Dvd.dvd.mul_left (pow_dvd_pow 2 big) f)]
    exact representable_zero
  · have cancel : f * 2 ^ k % 2 ^ 149 = f % 2 ^ (149 - k) * 2 ^ k := by
      rw [← Nat.mul_mod_mul_right, ← Nat.pow_add, Nat.sub_add_cancel small]
    rw [cancel]
    exact representable (lt_of_le_of_lt (Nat.mod_le _ _) hf) hk

end

/-! ## Fractions -/

/-- A finite sum that is not negative, of a first term with sign 0. -/
theorem fadd_of_nonneg {a b : F32} (ha : fFinite a = true) (hb : fFinite b = true) (sign : fsign a = false)
    (h : 0 ≤ fint a + fint b) : fadd a b = fround false (fint a + fint b).toNat 1 := by
  obtain ⟨na, ia⟩ := finite_classes ha
  obtain ⟨nb, ib⟩ := finite_classes hb
  simp only [fadd, na, nb, ia, ib, sign, Bool.or_self, Bool.false_eq_true, if_false, Bool.false_and]
  split_ifs with zero
  · rw [zero]
    exact congrArg (fmk false) (froundMag_exact (m := 0) one_pos (by decide)).symm
  · rw [decide_eq_false (by omega), show (fint a + fint b).natAbs = (fint a + fint b).toNat by omega]

/-- The integer part and the fraction of a finite value with sign 0 (00_scope.md R12). -/
theorem ffrac_eq {a : F32} (ha : fFinite a = true) (sign : fsign a = false) :
    ffrac a = fround false (funits a % 2 ^ 149) 1 := by
  obtain ⟨f, k, hf, hk, units⟩ := unitsOf_significand (fFinite_iff.mp ha)
  rw [← funits_eq] at units
  have floor : ffloor a = fround false (funits a / 2 ^ 149 * 2 ^ 149) 1 := by
    rw [ffloor, if_pos ha, sign]
    rfl
  have whole : Representable (funits a / 2 ^ 149 * 2 ^ 149) := by
    rw [units]
    exact representable_floor hf hk
  obtain ⟨finite, value⟩ := finite_fround false whole
  have rest : fint a + fint (fneg (ffloor a)) = (funits a % 2 ^ 149 : Nat) := by
    have split := Nat.div_add_mod' (funits a) (2 ^ 149)
    rw [fint_fneg, fint, fint, sign, floor, fsign_fround, value, if_neg (by decide), if_neg (by decide)]
    omega
  rw [ffrac, fsub, fadd_of_nonneg ha (by rw [fFinite_fneg, floor]; exact finite) sign (by rw [rest]; omega), rest]
  rfl

theorem flt_fOne_of_units {u : Nat} (h : u < 2 ^ 149) (hr : Representable u) : flt (fround false u 1) fOne = true := by
  obtain ⟨finite, units⟩ := finite_fround false hr
  have one : funits fOne = 2 ^ 149 := by decide +kernel
  refine flt_iff.mpr ⟨fFinite_not_nan finite, by decide, ?_⟩
  rw [fkey, fkey, fsign_fround, if_neg (by decide), if_neg (by decide)]
  by_contra above
  have mono := unitsOf_mono (fFinite_iff.mp finite).le (show fmag fOne ≤ fmag (fround false u 1) by omega)
  rw [← funits_eq, ← funits_eq, units, one] at mono
  omega

/-- Settles O51. -/
theorem fractionIsExact : Obligations.FractionIsExact := by
  intro a ha sign
  obtain ⟨f, k, hf, hk, units⟩ := unitsOf_significand (fFinite_iff.mp ha)
  rw [← funits_eq] at units
  have rest : Representable (funits a % 2 ^ 149) := by
    rw [units]
    exact representable_fraction hf hk
  obtain ⟨finite, value⟩ := finite_fround false rest
  rw [ffrac_eq ha sign]
  exact ⟨finite, fsign_fround _ _ _, value, flt_fOne_of_units (Nat.mod_lt _ (Nat.two_pow_pos _)) rest⟩

/-! ## Monotone operations -/

theorem fint_mono {a b : F32} (ha : fFinite a = true) (hb : fFinite b = true) (h : fkey a ≤ fkey b) : fint a ≤ fint b := by
  have infA := (fFinite_iff.mp ha).le
  have infB := (fFinite_iff.mp hb).le
  have up : fmag a ≤ fmag b → unitsOf (fmag a) ≤ unitsOf (fmag b) := unitsOf_mono infB
  have down : fmag b ≤ fmag a → unitsOf (fmag b) ≤ unitsOf (fmag a) := unitsOf_mono infA
  have zero {m : Nat} (h0 : m = 0) : unitsOf m = 0 := by rw [h0]; rfl
  unfold fkey at h
  unfold fint
  rw [funits_eq, funits_eq]
  split_ifs at h ⊢ with sa sb sb
  · have := down (by omega)
    omega
  · omega
  · rw [zero (show fmag a = 0 by omega), zero (show fmag b = 0 by omega)]
    decide
  · have := up (by omega)
    omega

/-- A sum rises with its terms. -/
theorem fadd_mono {a a' b b' : F32} (ha : fle a a' = true) (hb : fle b b' = true) (fa : fFinite a = true)
    (fa' : fFinite a' = true) (fb : fFinite b = true) (fb' : fFinite b' = true) :
    fle (fadd a b) (fadd a' b') = true := by
  obtain ⟨-, -, orderA⟩ := fle_iff.mp ha
  obtain ⟨-, -, orderB⟩ := fle_iff.mp hb
  obtain ⟨nan, key⟩ := fadd_finite fa fb
  obtain ⟨nan', key'⟩ := fadd_finite fa' fb'
  refine fle_iff.mpr ⟨nan, nan', ?_⟩
  rw [key, key']
  exact roundKey_mono (Int.add_le_add (fint_mono fa fa' orderA) (fint_mono fb fb' orderB))

/-- A difference rises with its first term and falls with its second. -/
theorem fsub_mono {a a' b b' : F32} (ha : fle a a' = true) (hb : fle b' b = true) (fa : fFinite a = true)
    (fa' : fFinite a' = true) (fb : fFinite b = true) (fb' : fFinite b' = true) :
    fle (fsub a b) (fsub a' b') = true :=
  fadd_mono ha (fle_fneg hb) fa fa' ((fFinite_fneg b).trans fb) ((fFinite_fneg b').trans fb')

/-- A product with a factor of sign 0 rises with the other factor. -/
theorem fmul_mono {c x y : F32} (sign : fsign c = false) (fc : fFinite c = true) (fx : fFinite x = true)
    (fy : fFinite y = true) (h : fle x y = true) : fle (fmul c x) (fmul c y) = true := by
  obtain ⟨-, -, order⟩ := fle_iff.mp h
  have scaled {a b : F32} (ha : fFinite a = true) (hab : fmag b ≤ fmag a) :
      froundMag (funits c * funits b) (2 ^ 149) ≤ froundMag (funits c * funits a) (2 ^ 149) := by
    refine froundMag_mono (Nat.two_pow_pos _) (Nat.two_pow_pos _) (Nat.mul_le_mul_right _ (Nat.mul_le_mul_left _ ?_))
    exact unitsOf_mono (fFinite_iff.mp ha).le hab
  have zero {a : F32} (h0 : fmag a = 0) : froundMag (funits c * funits a) (2 ^ 149) = 0 := by
    have units : funits a = 0 := by rw [funits_eq, h0]; rfl
    have := froundMag_exact (m := 0) (d := 2 ^ 149) (Nat.two_pow_pos _) (by decide)
    rw [units, Nat.mul_zero]
    rwa [show unitsOf 0 = 0 by rfl, Nat.zero_mul] at this
  rw [fmul_finite fc fx, fmul_finite fc fy]
  refine fle_iff.mpr ⟨fround_not_nan _ _ _, fround_not_nan _ _ _, ?_⟩
  rw [fkey_fround, fkey_fround, sign, Bool.false_bne, Bool.false_bne]
  unfold fkey at order
  split_ifs at order ⊢ with sx sy sy
  · have := scaled fx (show fmag y ≤ fmag x by omega)
    omega
  · omega
  · have := zero (show fmag x = 0 by omega)
    have := zero (show fmag y = 0 by omega)
    omega
  · have := scaled fy (show fmag x ≤ fmag y by omega)
    omega

/-! ## Waveforms -/

theorem sineAt_mem : ∀ i < 256, fle fMinusOne (sineAt i) = true ∧ fle (sineAt i) fOne = true := by decide +kernel

theorem waveSine_mem (p : F32) : fle fMinusOne (waveSine p) = true ∧ fle (waveSine p) fOne = true :=
  sineAt_mem _ (by omega)

theorem waveSquare_mem (p : F32) : fle fMinusOne (waveSquare p) = true ∧ fle (waveSquare p) fOne = true := by
  unfold waveSquare
  split_ifs <;> decide

section
variable {p : F32} (hf : fFinite p = true)
include hf

/-- A product with a positive constant stays between the products at the ends of the other factor's range. -/
theorem fmul_mem {c lo hi a b : F32} (sign : fsign c = false) (fc : fFinite c = true) (flo : fFinite lo = true)
    (fhi : fFinite hi = true) (h1 : fle lo p = true) (h2 : fle p hi = true) (ea : fmul c lo = a) (eb : fmul c hi = b) :
    fle a (fmul c p) = true ∧ fle (fmul c p) b = true :=
  ⟨ea ▸ fmul_mono sign fc flo hf h1, eb ▸ fmul_mono sign fc hf fhi h2⟩

theorem waveSaw_mem (h0 : fle fPosZero p = true) (h1 : fle p fOne = true) :
    fle fMinusOne (waveSaw p) = true ∧ fle (waveSaw p) fOne = true := by
  obtain ⟨low, high⟩ := fmul_mem hf (c := fTwo) (a := fPosZero) (b := fTwo) (by decide) (by decide) (by decide) (by decide)
    h0 h1 (by decide +kernel) (by decide +kernel)
  have finite := finite_of_mem low high (by decide) (by decide)
  have low := fsub_mono low (fle_refl (a := fOne) (by decide)) (by decide) finite (by decide) (by decide)
  have high := fsub_mono high (fle_refl (a := fOne) (by decide)) finite (by decide) (by decide) (by decide)
  exact ⟨fle_trans (by decide +kernel) low, fle_trans high (by decide +kernel)⟩

theorem waveTriangle_mem (h0 : fle fPosZero p = true) (h1 : fle p fOne = true) :
    fle fMinusOne (waveTriangle p) = true ∧ fle (waveTriangle p) fOne = true := by
  unfold waveTriangle
  split_ifs with rising
  · obtain ⟨low, high⟩ := fmul_mem hf (c := fFour) (a := fPosZero) (b := fTwo) (by decide) (by decide) (by decide)
      (by decide) h0 (fle_of_flt rising) (by decide +kernel) (by decide +kernel)
    have finite := finite_of_mem low high (by decide) (by decide)
    have low := fsub_mono low (fle_refl (a := fOne) (by decide)) (by decide) finite (by decide) (by decide)
    have high := fsub_mono high (fle_refl (a := fOne) (by decide)) finite (by decide) (by decide) (by decide)
    exact ⟨fle_trans (by decide +kernel) low, fle_trans high (by decide +kernel)⟩
  · have nan := fFinite_not_nan hf
    have half : fle fHalf p = true :=
      fle_iff.mpr ⟨by decide, nan, (flt_eq_false_iff nan (by decide)).mp (Bool.eq_false_iff.mpr rising)⟩
    obtain ⟨low, high⟩ := fmul_mem hf (c := fFour) (a := fTwo) (b := fFour) (by decide) (by decide) (by decide)
      (by decide) half h1 (by decide +kernel) (by decide +kernel)
    have finite := finite_of_mem low high (by decide) (by decide)
    have upper := fsub_mono (fle_refl (a := fThree) (by decide)) low (by decide) (by decide) finite (by decide)
    have lower := fsub_mono (fle_refl (a := fThree) (by decide)) high (by decide) (by decide) (by decide) finite
    exact ⟨fle_trans (by decide +kernel) lower, fle_trans upper (by decide +kernel)⟩

end

/-- Settles O52, waveform by waveform. -/
theorem waveformsStayInRange : Obligations.WaveformsStayInRange := by
  intro code p e hf h0 h1
  unfold waveform
  split
  · exact waveSine_mem p
  · exact waveSquare_mem p
  · exact waveTriangle_mem hf h0 (fle_of_flt h1)
  · exact waveSaw_mem hf h0 (fle_of_flt h1)
  · exact drawNoise_mem e

/-! ## The range of a sample -/

theorem clamp1_mem (s : F32) : fle fMinusOne (clamp1 s) = true ∧ fle (clamp1 s) fOne = true := by
  unfold clamp1
  split_ifs with nan high low
  · decide
  · decide
  · decide
  · have nan : fIsNaN s = false := Bool.eq_false_iff.mpr nan
    exact ⟨fle_iff.mpr ⟨by decide, nan, (flt_eq_false_iff nan (by decide)).mp (Bool.eq_false_iff.mpr low)⟩,
      fle_iff.mpr ⟨nan, by decide, (flt_eq_false_iff (by decide) nan).mp (Bool.eq_false_iff.mpr high)⟩⟩

theorem toNat_outWord_le (s : F32) : (outWord s false).toNat ≤ 255 := by
  rw [outWord, if_neg (by decide), BitVec.toNat_ofNat]
  omega

/-- Settles O45. -/
theorem samplesStayInRange : Obligations.SamplesStayInRange := by
  intro p j e
  unfold sampleWord
  split_ifs
  · refine ⟨fun fmt => ?_, fun fmt => ?_⟩ <;> rw [fmt]
    · exact toNat_outWord_le _
    · exact clamp1_mem _
  · refine ⟨fun fmt => ?_, fun fmt => ?_⟩ <;> rw [fmt]
    · exact (by decide : (silence false).toNat ≤ 255)
    · exact (by decide : fle fMinusOne (silence true) = true ∧ fle (silence true) fOne = true)

end Sys2Proof.Proofs.Arithmetic
end

section
/-! SUPPORT. The synthesizer's command, lengths, envelope and sample pipeline (40_synth.md sections 1 to 5). -/

namespace Sys2Proof.Proofs.SynthPipeline

open Sys2Proof Sys2Proof.Machine Sys2Proof.Laws.RoundTrip Sys2Proof.Proofs.HeldFunctions Sys2Proof.Proofs.Arithmetic

/-! ## GENERATE -/

/-- Settles O42. -/
theorem generateIsAccepted : Obligations.GenerateIsAccepted := fun _ hf idle => execSynGenerate_of_idle hf idle

/-! ## The sample rate -/

theorem representable_ofNat {n : Nat} (h : n < 2 ^ 24) : Representable (n * 2 ^ 149) := representable h (by decide)

theorem fsign_sampleRateF (p : Params) : fsign (sampleRateF p) = false := fsign_fround _ _ _

section
variable {p : Params} (legal : configCheck p = true)
include legal

/-- SRf is the sample rate, exactly (40_synth.md R204). -/
theorem sampleRateF_exact : fFinite (sampleRateF p) = true ∧ funits (sampleRateF p) = p.sampleRate * 2 ^ 149 ∧
    0 < p.sampleRate := by
  obtain ⟨-, -, -, -, -, -, hrate, -⟩ := configCheck_iff.mp legal
  obtain ⟨finite, units⟩ := finite_fround false (representable_ofNat (n := p.sampleRate) (by omega))
  exact ⟨finite, units, by omega⟩

/-! ## Length -/

/-- A magnitude of at most 2.0, times the sample rate, truncates to at most twice the rate. -/
theorem trunc_product_le {d : F32} (hd : fFinite d = true) (two : fmag d ≤ fmag fTwo) :
    (ftrunc (fmul d (sampleRateF p))).toNat ≤ 2 * p.sampleRate := by
  obtain ⟨finite, units, -⟩ := sampleRateF_exact legal
  obtain ⟨-, -, -, -, -, -, hrate, -⟩ := configCheck_iff.mp legal
  obtain ⟨m, hm, value⟩ := representable_ofNat (n := 2 * p.sampleRate) (by omega)
  have twoUnits : unitsOf (fmag fTwo) = 2 * 2 ^ 149 := by decide +kernel
  have small : funits d ≤ 2 * 2 ^ 149 := twoUnits ▸ unitsOf_mono (by decide) two
  have product : froundMag (funits d * funits (sampleRateF p)) (2 ^ 149) ≤ m := by
    refine froundMag_le m (Nat.two_pow_pos _) hm.le ?_
    calc funits d * funits (sampleRateF p) ≤ 2 * 2 ^ 149 * (p.sampleRate * 2 ^ 149) :=
          Nat.mul_le_mul small units.le
      _ = unitsOf m * 2 ^ 149 := by rw [value]; ring
  have bound : funits (fmul d (sampleRateF p)) / 2 ^ 149 ≤ 2 * p.sampleRate := by
    rw [fmul_finite hd finite, funits_fround]
    refine Nat.div_le_of_le_mul ?_
    rw [Nat.mul_comm (2 ^ 149), ← value]
    exact unitsOf_mono hm.le product
  have productFinite : fFinite (fmul d (sampleRateF p)) = true := by
    rw [fmul_finite hd finite, fFinite_fround]
    exact decide_eq_true (lt_of_le_of_lt product hm)
  rw [ftrunc, if_pos productFinite]
  split_ifs <;> omega

/-- The decay floor is a positive value. -/
theorem decayEps_pos : fIsNaN p.decayEps = false ∧ 0 < fkey p.decayEps := by
  obtain ⟨-, -, -, -, -, -, -, -, -, eps, -⟩ := configCheck_iff.mp legal
  obtain ⟨-, nan, pos⟩ := flt_iff.mp eps
  exact ⟨nan, pos⟩

/-- dEff is positive, where DECAY is no NaN (40_synth.md R203). -/
theorem decayEff_pos {d : F32} (nan : fIsNaN d = false) : 0 < fkey (decayEff p d) := by
  obtain ⟨epsNan, pos⟩ := decayEps_pos legal
  unfold decayEff
  split_ifs with low
  · exact pos
  · have := (flt_eq_false_iff nan epsNan).mp (Bool.eq_false_iff.mpr low)
    omega

end

/-- Settles O43. -/
theorem activeLengthIsBounded : Obligations.ActiveLengthIsBounded := by
  intro p cap d legal floor stored
  refine ⟨Nat.min_le_left _ _, (Nat.min_le_right _ _).trans ?_⟩
  obtain ⟨above, below⟩ := clampP_mem (v := d) (paramMin_le_paramMax .decay) (param_zero .decay)
  rw [stored] at above below
  have range : fle fPosZero (decayEff p d) = true ∧ fle (decayEff p d) fTwo = true := by
    obtain ⟨-, nan, -⟩ := fle_iff.mp above
    have pos := decayEff_pos legal nan
    have under : fle (decayEff p d) fTwo = true := by
      unfold decayEff
      split_ifs
      · exact floor
      · exact below
    exact ⟨fle_iff.mpr ⟨by decide, (fle_iff.mp under).1, pos.le⟩, under⟩
  have two : fmag (decayEff p d) ≤ fmag fTwo := by
    have low := (fle_iff.mp range.1).2.2
    have high := (fle_iff.mp range.2).2.2
    have zero : fkey fPosZero = 0 := by decide
    rw [← fkey_natAbs, ← fkey_natAbs]
    omega
  exact trunc_product_le legal (finite_of_mem range.1 range.2 (by decide) (by decide)) two

/-! ## What a finite result says of the operands -/

theorem not_finite_fNaN (op : Nat) (a b : F32) : fFinite (fNaN op a b) = false := by
  refine decide_eq_false (Nat.not_lt.mpr ?_)
  simp only [fmag, fNaN, toNat_append_add, BitVec.toNat_ofNat]
  omega

theorem not_finite_inf (neg : Bool) : fFinite (fmk neg 0x7F800000) = false := by
  cases neg <;> decide

theorem finite_of_classes {a : F32} (nan : fIsNaN a = false) (inf : fIsInf a = false) : fFinite a = true := by
  have := of_decide_eq_false nan
  have := of_decide_eq_false inf
  exact decide_eq_true (by omega)

theorem finite_of_fmul {a b : F32} (h : fFinite (fmul a b) = true) : fFinite a = true ∧ fFinite b = true := by
  unfold fmul at h
  split_ifs at h with nan inf zero
  · rw [not_finite_fNaN] at h; cases h
  · rw [not_finite_fNaN] at h; cases h
  · rw [not_finite_inf] at h; cases h
  · simp only [Bool.or_eq_true, not_or, Bool.not_eq_true] at nan inf
    exact ⟨finite_of_classes nan.1 inf.1, finite_of_classes nan.2 inf.2⟩

/-- A finite quotient has a finite dividend and a divisor that is no NaN, and the sign of a quotient. -/
theorem finite_of_fdiv {a b : F32} (h : fFinite (fdiv a b) = true) :
    fFinite a = true ∧ fIsNaN b = false ∧ fsign (fdiv a b) = (fsign a != fsign b) := by
  unfold fdiv at h ⊢
  split_ifs at h ⊢ with nan infA infB infB zeroB zeroA
  · rw [not_finite_fNaN] at h; cases h
  · rw [not_finite_fNaN] at h; cases h
  · rw [not_finite_inf] at h; cases h
  · simp only [Bool.or_eq_true, not_or, Bool.not_eq_true] at nan infA
    exact ⟨finite_of_classes nan.1 infA, nan.2, fsign_fmk (by decide)⟩
  · rw [not_finite_fNaN] at h; cases h
  · rw [not_finite_inf] at h; cases h
  · simp only [Bool.or_eq_true, not_or, Bool.not_eq_true] at nan infA
    exact ⟨finite_of_classes nan.1 infA, nan.2, fsign_fround _ _ _⟩

theorem fdiv_finite {a b : F32} (ha : fFinite a = true) (hb : fFinite b = true) (hz : 0 < funits b) :
    fdiv a b = fround (fsign a != fsign b) (funits a * 2 ^ 149) (funits b) := by
  obtain ⟨nanA, infA⟩ := finite_classes ha
  obtain ⟨nanB, infB⟩ := finite_classes hb
  have zero : fIsZero b = false := by
    refine decide_eq_false fun h => ?_
    rw [funits_eq, h] at hz
    exact absurd hz (by decide)
  simp only [fdiv, nanA, nanB, infA, infB, zero, Bool.or_self, Bool.false_eq_true, if_false]

/-! ## The envelope -/

theorem fofNat_mono {m n : Nat} (h : m ≤ n) : fmag (fofNat m) ≤ fmag (fofNat n) := by
  rw [fofNat, fofNat, fmag_fround, fmag_fround]
  exact froundMag_mono one_pos one_pos (Nat.mul_le_mul_right _ (Nat.mul_le_mul_right _ h))

/-- The times of the samples do not fall, as long as they are finite (40_synth.md R204). -/
theorem sampleTime_mono {p : Params} (legal : configCheck p = true) {i j : Nat} (h : i ≤ j)
    (hj : fFinite (sampleTime p j) = true) :
    fle fPosZero (sampleTime p i) = true ∧ fle (sampleTime p i) (sampleTime p j) = true := by
  obtain ⟨finite, units, rate⟩ := sampleRateF_exact legal
  have pos : 0 < funits (sampleRateF p) := units ▸ Nat.mul_pos rate (Nat.two_pow_pos _)
  obtain ⟨fj, -⟩ := finite_of_fdiv hj
  have order := fofNat_mono h
  have fi : fFinite (fofNat i) = true := fFinite_iff.mpr (lt_of_le_of_lt order (fFinite_iff.mp fj))
  have plus (n : Nat) : (fsign (fofNat n) != fsign (sampleRateF p)) = false := by
    rw [fofNat, fsign_fround, fsign_sampleRateF]
    rfl
  rw [sampleTime, sampleTime, fdiv_finite fi finite pos, fdiv_finite fj finite pos, plus, plus]
  refine ⟨fle_iff.mpr ⟨by decide, fround_not_nan _ _ _, ?_⟩, fle_iff.mpr ⟨fround_not_nan _ _ _, fround_not_nan _ _ _, ?_⟩⟩
  · rw [fkey_fround]
    exact Int.natCast_nonneg _
  · rw [fkey_fround, fkey_fround]
    refine Int.ofNat_le.mpr (froundMag_mono pos pos (Nat.mul_le_mul_right _ (Nat.mul_le_mul_right _ ?_)))
    exact unitsOf_mono (fFinite_iff.mp fj).le order

/-- Settles O48: the exponent falls, and EXP32 is monotone. -/
theorem envelopeNeverRises : Obligations.EnvelopeNeverRises := by
  intro p w i legal henv finite
  unfold envelopeAt
  split_ifs with flat
  · decide
  obtain ⟨fq, ft⟩ := finite_of_fmul finite
  obtain ⟨fenv, nan, sign⟩ := finite_of_fdiv fq
  have envPos : 0 < fkey w.envc := by
    obtain ⟨-, envNan, nonneg⟩ := fle_iff.mp henv
    have zero : fkey fPosZero = 0 := by decide
    refine lt_of_le_of_ne (zero ▸ nonneg) fun e => flat ?_
    simp only [feq, envNan, show fIsNaN fPosZero = false by decide, zero, ← e]
    rfl
  have decayNan : fIsNaN w.decay = false := by
    by_contra isNan
    have same : decayEff p w.decay = w.decay := if_neg fun low => isNan (flt_iff.mp low).1
    exact isNan (same ▸ nan)
  rw [fsign_of_fkey_pos envPos, fsign_of_fkey_pos (decayEff_pos legal decayNan)] at sign
  obtain ⟨start, later⟩ := sampleTime_mono legal (Nat.le_succ i) ft
  have fi := finite_of_mem start later (by decide) ft
  have rise := fmul_mono sign fq fi ft later
  have floor := fmul_mono sign fq (x := fPosZero) (by decide) fi start
  have zero : fFinite (fmul (fdiv w.envc (decayEff p w.decay)) fPosZero) = true := by
    rw [fmul_finite fq (by decide), show funits fPosZero = 0 by decide, Nat.mul_zero, fFinite_fround]
    exact decide_eq_true (lt_of_le_of_lt (froundMag_le 0 (Nat.two_pow_pos _) (by decide) (Nat.zero_le _)) (by decide))
  have fprod := finite_of_mem floor rise zero finite
  exact exp32_mono ((fFinite_fneg _).trans finite) ((fFinite_fneg _).trans fprod) (fle_fneg rise)

/-! ## The pipeline -/

/-- The pitch of a sample, read or computed: a cache entry is the value it caches (40_synth.md R210, R212). -/
theorem readPitch_eq {p : Params} {j : Job} {y : F32}
    (hy : y = fmul j.par.freq (exp32 (fneg (fmul j.par.pdecay (sampleTime p j.i)))))
    (cached : ∀ x, j.pcache[j.i]? = some x → x = y) :
    readPitch p j = if feq j.par.pdecay fPosZero then j.par.freq else y := by
  unfold readPitch
  by_cases flat : feq j.par.pdecay fPosZero
  · rw [if_pos flat, if_pos flat]
  · rw [if_neg flat, if_neg flat, List.getD_eq_getElem?_getD, pitchAt, if_neg flat, ← hy]
    cases entry : j.pcache[j.i]? with
    | none => rfl
    | some x => exact cached x entry

/-- The envelope of a sample, read or computed (40_synth.md R210, R223). -/
theorem readEnvelope_eq {p : Params} {j : Job} {y : F32}
    (hy : y = exp32 (fneg (fmul (fdiv j.par.envc (decayEff p j.par.decay)) (sampleTime p j.i))))
    (cached : ∀ x, j.ecache[j.i]? = some x → x = y) :
    readEnvelope p j = if feq j.par.envc fPosZero then fOne else y := by
  unfold readEnvelope
  by_cases flat : feq j.par.envc fPosZero
  · rw [if_pos flat, if_pos flat]
  · rw [if_neg flat, if_neg flat, List.getD_eq_getElem?_getD, envelopeAt, if_neg flat, ← hy]
    cases entry : j.ecache[j.i]? with
    | none => rfl
    | some x => exact cached x entry

/-- The five waveforms by their codes (40_synth.md R215). -/
theorem waveform_eq {code : BitVec 3} (h : code.toNat ≤ 4) (q : F32) (e : Env) : waveform code q e =
    if code = 0#3 then (waveSine q, e) else if code = 1#3 then (waveSquare q, e)
    else if code = 2#3 then (waveTriangle q, e) else if code = 3#3 then (waveSaw q, e) else drawNoise e := by
  obtain ⟨n, hn, rfl⟩ : ∃ n, n ≤ 4 ∧ code = BitVec.ofNat 3 n := ⟨code.toNat, h, by simp⟩
  interval_cases n <;> rfl

/-- The compressor with its two conditions on the high water in one (40_synth.md R225). -/
theorem compress_eq (s c : F32) : compress s c =
    let thr := compThreshold c
    let y1 := if flt thr (fabs s) then fadd thr (fdiv (fsub (fabs s) thr) (compRatio c)) else fabs s
    let y2 := fmul y1 (compMakeup c)
    fcopysign (if flt compHighWater c ∧ flt compCeiling y2 then compCeiling else y2) s := by
  unfold compress
  by_cases high : flt compHighWater c
  · simp only [high, if_true, true_and]
  · simp only [high, Bool.false_eq_true, if_false, false_and]

/-- A sample from the values that the steps of the pipeline give. -/
theorem voice_of_steps {p : Params} {j : Job} {e : Env} {f env s : F32} {wave blend : F32 × Env}
    (pitch : readPitch p j = f) (hwave : waveform j.par.wave (shiftPhase j.par (advancePhase p j.ph f)) e = wave)
    (hblend : blendNoise j.par.nmix wave.1 wave.2 = blend) (henv : readEnvelope p j = env)
    (hs : (if flt fPosZero j.par.comp then compress (fmul (fmul blend.1 env) j.par.amp) j.par.comp
      else fmul (fmul blend.1 env) j.par.amp) = s) :
    voice p j e = (clamp1 s, advancePhase p j.ph f, blend.2) := by
  subst pitch hwave hblend henv hs
  rfl

/-- Settles O46: the written-out steps are the model's, in the model's order. -/
theorem sampleWordFollowsThePipeline : Obligations.SampleWordFollowsThePipeline := by
  intro p j e hw w sr dEff n time pitch envelope
  refine ⟨fun tail => if_neg (Nat.not_lt.mpr tail), ?_⟩
  intro active hp he frac f ph q wave noise blend env s1 thr ratio gain y1 y2 y3 s2 s3 duty
  have steps : voice p j e = (clamp1 s2, ph, blend.2) :=
    voice_of_steps (readPitch_eq rfl hp) (waveform_eq hw q e) rfl (readEnvelope_eq rfl he) (by rw [compress_eq]; rfl)
  calc sampleWord p j e = (outWord (voice p j e).1 j.fmt, (voice p j e).2.1, (voice p j e).2.2) := if_pos active
    _ = (outWord (clamp1 s2) j.fmt, ph, blend.2) := by rw [steps]
    _ = (if j.fmt then s3 else duty, ph, blend.2) := rfl

end Sys2Proof.Proofs.SynthPipeline
end

section
/-! SUPPORT. A whole GENERATE (40_synth.md R202, R210, R229 to R233): the cache fill, the samples one by one, the
completion. -/

namespace Sys2Proof.Proofs.Render

open Sys2Proof Sys2Proof.Machine

/-! ## The event history is no input of a sample -/

/-- The environment with another history. -/
def withHistory (e : Env) (h : List Event) : Env := { e with history := h }

theorem drawNoise_withHistory (e : Env) (h : List Event) :
    drawNoise (withHistory e h) = ((drawNoise e).1, withHistory (drawNoise e).2 h) := by
  obtain ⟨-, -, -, noise, -, -, -, -, -⟩ := e
  cases noise <;> rfl

theorem waveform_withHistory (code : BitVec 3) (q : F32) (e : Env) (h : List Event) :
    waveform code q (withHistory e h) = ((waveform code q e).1, withHistory (waveform code q e).2 h) := by
  unfold waveform
  split
  case h_5 => exact drawNoise_withHistory e h -- NOISE, the one waveform that asks the environment
  all_goals rfl

theorem blendNoise_withHistory (nmix w : F32) (e : Env) (h : List Event) :
    blendNoise nmix w (withHistory e h) = ((blendNoise nmix w e).1, withHistory (blendNoise nmix w e).2 h) := by
  unfold blendNoise
  split_ifs
  · rw [drawNoise_withHistory]
  · rfl

theorem sampleWord_withHistory (p : Params) (j : Job) (e : Env) (h : List Event) : sampleWord p j (withHistory e h) =
    ((sampleWord p j e).1, (sampleWord p j e).2.1, withHistory (sampleWord p j e).2.2 h) := by
  unfold sampleWord
  split_ifs
  · simp only [voice, waveform_withHistory, blendNoise_withHistory]
  · rfl

/-! ## The cache fill -/

/-- A job with the first `n` entries of each cache in use. -/
def filledJob (p : Params) (j : Job) (n : Nat) : Job :=
  { j with
    pcache := if feq j.par.pdecay fPosZero then [] else (List.range n).map (pitchAt p j.par)
    ecache := if feq j.par.envc fPosZero then [] else (List.range n).map (envelopeAt p j.par) }

/-- A render that fills a cache (40_synth.md R210). -/
def UsesCaches (j : Job) : Prop := feq j.par.pdecay fPosZero = false ∨ feq j.par.envc fPosZero = false

section
variable (p : Params) (j : Job)

theorem filledJob_zero (hp : j.pcache = []) (he : j.ecache = []) : filledJob p j 0 = j := by
  obtain ⟨par, cap, fmt, i, ph, pcache, ecache⟩ := j
  subst hp he
  simp only [filledJob, List.range_zero, List.map_nil, ite_self]

theorem needsPitch_filledJob (n i : Nat) (ph : F32) : needsPitch p { filledJob p j n with i := i, ph := ph } =
    (!feq j.par.pdecay fPosZero && decide (n < jobLen p j)) := by
  by_cases flat : feq j.par.pdecay fPosZero
  · simp only [needsPitch, filledJob, flat, Bool.not_true, Bool.false_and]
  · simp only [needsPitch, filledJob, flat, Bool.false_eq_true, if_false, List.length_map, List.length_range]
    rfl

theorem needsEnvelope_filledJob (n i : Nat) (ph : F32) : needsEnvelope p { filledJob p j n with i := i, ph := ph } =
    (!feq j.par.envc fPosZero && decide (n < jobLen p j)) := by
  by_cases flat : feq j.par.envc fPosZero
  · simp only [needsEnvelope, filledJob, flat, Bool.not_true, Bool.false_and]
  · simp only [needsEnvelope, filledJob, flat, Bool.false_eq_true, if_false, List.length_map, List.length_range]
    rfl

variable {j}

theorem synAction_filledJob_fill {n : Nat} (hn : n < jobLen p j) (uses : UsesCaches j) :
    synAction p (filledJob p j n) = .fill := by
  refine if_pos ?_
  have pitch := needsPitch_filledJob p j n j.i j.ph
  have envelope := needsEnvelope_filledJob p j n j.i j.ph
  rw [decide_eq_true hn, Bool.and_true] at pitch envelope
  refine Bool.or_eq_true_iff.mpr ?_
  rcases uses with h | h
  · exact .inl (pitch.trans (by rw [h]; rfl))
  · exact .inr (envelope.trans (by rw [h]; rfl))

/-- A fill step appends one entry to each cache in use. -/
theorem fillCaches_filledJob {n : Nat} (hn : n < jobLen p j) : fillCaches p (filledJob p j n) = filledJob p j (n + 1) := by
  have pitch := needsPitch_filledJob p j n j.i j.ph
  have envelope := needsEnvelope_filledJob p j n j.i j.ph
  rw [decide_eq_true hn, Bool.and_true] at pitch envelope
  have pitch : needsPitch p (filledJob p j n) = !feq j.par.pdecay fPosZero := pitch
  have envelope : needsEnvelope p (filledJob p j n) = !feq j.par.envc fPosZero := envelope
  unfold fillCaches
  rw [pitch, envelope]
  cases hp : feq j.par.pdecay fPosZero <;> cases he : feq j.par.envc fPosZero <;>
    simp [filledJob, hp, he, List.range_succ]

/-- The job with its caches full. -/
def fullJob (j : Job) : Job := filledJob p j (jobLen p j)

/-- The fill steps of a render: N, or none where neither cache is in use. -/
def fillSteps (j : Job) : Nat := if feq j.par.pdecay fPosZero && feq j.par.envc fPosZero then 0 else jobLen p j

theorem fillSteps_le (j : Job) : fillSteps p j ≤ jobLen p j := by
  unfold fillSteps
  split_ifs <;> omega

theorem fullJob_of_unused (h : (feq j.par.pdecay fPosZero && feq j.par.envc fPosZero) = true) :
    fullJob p j = filledJob p j 0 := by
  obtain ⟨hp, he⟩ := Bool.and_eq_true_iff.mp h
  simp only [fullJob, filledJob, hp, he, if_true]

/-- After the fill SY samples, up to CAP, and then completes. -/
theorem synAction_fullJob (j : Job) (k : Nat) (ph : F32) : synAction p { fullJob p j with i := k, ph := ph } =
    if k < j.cap.toNat then .sample else if k = j.cap.toNat then .complete else .wait := by
  have pitch : needsPitch p { fullJob p j with i := k, ph := ph } = false :=
    (needsPitch_filledJob p j _ k ph).trans (by simp)
  have envelope : needsEnvelope p { fullJob p j with i := k, ph := ph } = false :=
    (needsEnvelope_filledJob p j _ k ph).trans (by simp)
  rw [synAction, pitch, envelope]
  rfl

end

section
variable {s : State} (hf : s.ctl.fatal = false)
include hf

/-- SY's step on a job. -/
theorem syStep_of_job {j : Job} (hj : s.syn.job = some j) : syStep s = synStep s j := by
  unfold syStep
  rw [hf, if_neg (by decide), hj]

theorem syRun_fill {j : Job} (uses : UsesCaches j) {n : Nat} (hn : n ≤ jobLen s.cfg j) :
    syRun n (withJob s (some (filledJob s.cfg j 0))) = withJob s (some (filledJob s.cfg j n)) := by
  induction n with
  | zero => rfl
  | succ n ih =>
    have step : syStep (withJob s (some (filledJob s.cfg j n))) = withJob s (some (filledJob s.cfg j (n + 1))) := by
      rw [syStep_of_job (s := withJob s (some (filledJob s.cfg j n))) hf rfl, synStep,
        show (withJob s (some (filledJob s.cfg j n))).cfg = s.cfg from rfl, synAction_filledJob_fill _ hn uses]
      exact congrArg (fun k => withJob s (some k)) (fillCaches_filledJob _ hn)
    rw [syRun, Function.iterate_succ_apply', ← syRun, ih (by omega), step]

/-- The fill steps of a render, in one. -/
theorem syRun_fillSteps {j : Job} (hp : j.pcache = []) (he : j.ecache = []) :
    syRun (fillSteps s.cfg j) (withJob s (some j)) = withJob s (some (fullJob s.cfg j)) := by
  unfold fillSteps
  split_ifs with unused
  · rw [fullJob_of_unused _ unused, filledJob_zero _ _ hp he]
    rfl
  · have uses : UsesCaches j := by
      rw [Bool.and_eq_true, not_and_or, Bool.not_eq_true, Bool.not_eq_true] at unused
      exact unused
    have run := syRun_fill hf uses (le_refl (jobLen s.cfg j))
    rwa [filledJob_zero _ _ hp he] at run

end

/-! ## One sample -/

section
variable {p : Params} {j : Job} (hp : j.pcache = []) (he : j.ecache = [])
include hp he

/-- The caches hold what is computed without them (10_state.md R103). -/
theorem sampleWord_fullJob (k : Nat) (ph : F32) (e : Env) :
    sampleWord p { fullJob p j with i := k, ph := ph } e = sampleWord p { j with i := k, ph := ph } e := by
  unfold sampleWord
  refine if_ctx_congr Iff.rfl (fun active => ?_) fun _ => rfl
  have inside : k < jobLen p j := active
  have pitch : readPitch p { fullJob p j with i := k, ph := ph } = readPitch p { j with i := k, ph := ph } := by
    unfold readPitch
    by_cases flat : feq j.par.pdecay fPosZero
    · exact (if_pos flat).trans (if_pos flat).symm
    · refine (if_neg flat).trans (Eq.trans ?_ (if_neg flat).symm)
      simp [fullJob, filledJob, flat, hp, inside]
  have envelope : readEnvelope p { fullJob p j with i := k, ph := ph } = readEnvelope p { j with i := k, ph := ph } := by
    unfold readEnvelope
    by_cases flat : feq j.par.envc fPosZero
    · exact (if_pos flat).trans (if_pos flat).symm
    · refine (if_neg flat).trans (Eq.trans ?_ (if_neg flat).symm)
      simp [fullJob, filledJob, flat, he, inside]
  have same : voice p { fullJob p j with i := k, ph := ph } e = voice p { j with i := k, ph := ph } e := by
    unfold voice
    rw [pitch, envelope]
    rfl
  rw [same]
  rfl

end

/-- A render touches the oracle's fields of the environment only. -/
theorem renderState_env (p : Params) (j : Job) (e : Env) (k : Nat) : (renderState p j e k).2 =
    { e with noise := (renderState p j e k).2.noise, draws := (renderState p j e k).2.draws } := by
  induction k with
  | zero => rfl
  | succ k ih =>
    rw [renderState, sampleWord_env, ih]

/-- The first `k` words of a render. -/
def renderWords (p : Params) (j : Job) (e : Env) (k : Nat) : List Word := (List.range k).map (renderWord p j e)

/-- Their SampleWrite events, the newest first. -/
def renderEvents (p : Params) (j : Job) (e : Env) (k : Nat) : List Event :=
  ((renderWords p j e k).zipIdx.map fun q => Event.sampleWrite q.2 q.1).reverse

theorem renderEvents_succ (p : Params) (j : Job) (e : Env) (k : Nat) :
    renderEvents p j e (k + 1) = .sampleWrite k (renderWord p j e k) :: renderEvents p j e k := by
  simp [renderEvents, renderWords, List.range_succ, List.zipIdx_append]

/-! ## The samples of a render -/

/-- The synth of `s` with ACTIVE_LEN set, before sample `k` of its render: SYN_POS, the index and the phase. -/
def renderSynth (s : State) (j : Job) (len : BitVec 17) (k : Nat) : Synth :=
  { s.syn with
    activeLen := len
    pos := BitVec.ofNat 17 k
    job := some { fullJob s.cfg j with i := k, ph := (renderState s.cfg j s.env k).1 } }

/-- The environment before sample `k`: the oracle's answers so far taken, the samples' events emitted. -/
def renderEnv (s : State) (j : Job) (k : Nat) : Env :=
  withHistory (renderState s.cfg j s.env k).2 (renderEvents s.cfg j s.env k ++ s.env.history)

theorem renderEnv_eq (s : State) (j : Job) (k : Nat) : renderEnv s j k =
    { s.env with
      history := (renderEnv s j k).history
      noise := (renderState s.cfg j s.env k).2.noise
      draws := (renderState s.cfg j s.env k).2.draws } := by
  rw [renderEnv, renderState_env]
  rfl

theorem renderEnv_epoch (s : State) (j : Job) (k : Nat) : (renderEnv s j k).epoch = s.env.epoch := by
  rw [renderEnv, renderState_env]
  rfl

/-- The sample step's environment, before its event is emitted. -/
theorem renderEnv_succ (s : State) (j : Job) (k : Nat) : renderEnv s j (k + 1) =
    withHistory (withHistory (renderState s.cfg j s.env (k + 1)).2 (renderEvents s.cfg j s.env k ++ s.env.history))
      (.sampleWrite k (renderWord s.cfg j s.env k) :: (renderEvents s.cfg j s.env k ++ s.env.history)) := by
  rw [renderEnv, renderEvents_succ]
  rfl

/-- The state before sample `k` of a render that the state `s` started: which parts of `s` have changed, and how. -/
structure Rendered (s : State) (j : Job) (len : BitVec 17) (k : Nat) (u : State) : Prop where
  frame : ∃ m, u = ((s.withSyn (renderSynth s j len k)).withMem m).withEnv (renderEnv s j k)
  written : ∀ i < k, readSram u i = renderWord s.cfg j s.env i
  outside : KeepsMemoryOutside (sramAddr 0) (4 * k) s u

section
variable {s : State} {j : Job} {len : BitVec 17} {k : Nat} {u : State}

/-- The word, the phase and the environment that the next sample step of a render gives. -/
theorem sampleWord_of_rendered (hp : j.pcache = []) (he : j.ecache = []) (h : List Event) :
    sampleWord s.cfg { fullJob s.cfg j with i := k, ph := (renderState s.cfg j s.env k).1 }
      (withHistory (renderState s.cfg j s.env k).2 h) =
      (renderWord s.cfg j s.env k, (renderState s.cfg j s.env (k + 1)).1,
        withHistory (renderState s.cfg j s.env (k + 1)).2 h) := by
  rw [sampleWord_fullJob hp he, sampleWord_withHistory]
  rfl

/-- SY's step in the middle of a render: one sample. -/
theorem syStep_of_render (hf : u.ctl.fatal = false) (cfg : u.cfg = s.cfg) (syn : u.syn = renderSynth s j len k)
    (env : u.env = renderEnv s j k) (hk : k < j.cap.toNat) (hp : j.pcache = []) (he : j.ecache = []) :
    syStep u = emit ((writeSram (u.withEnv (withHistory (renderState s.cfg j s.env (k + 1)).2
        (renderEvents s.cfg j s.env k ++ s.env.history))) k (renderWord s.cfg j s.env k)).withSyn
      (renderSynth s j len (k + 1))) (.sampleWrite k (renderWord s.cfg j s.env k)) := by
  have action := synAction_fullJob s.cfg j k (renderState s.cfg j s.env k).1
  rw [if_pos hk] at action
  have word := sampleWord_of_rendered (s := s) (k := k) hp he (renderEvents s.cfg j s.env k ++ s.env.history)
  rw [syStep_of_job hf (j := { fullJob s.cfg j with i := k, ph := (renderState s.cfg j s.env k).1 }) (by rw [syn]; rfl),
    synStep, cfg, action]
  dsimp only
  rw [sampleStep, cfg, env, renderEnv, word, syn]
  rfl

/-- The parts of a state that a sample step changes. -/
theorem emit_writeSram_eq {y y' : Synth} {m : Memory} {e e' : Env} (h : u = ((s.withSyn y).withMem m).withEnv e) (i : Nat)
    (w : Word) (ev : Event) : emit ((writeSram (u.withEnv e') i w).withSyn y') ev =
      ((s.withSyn y').withMem (writeSram (u.withEnv e') i w).mem).withEnv (withHistory e' (ev :: e'.history)) := by
  subst h
  rfl

/-- SY's sample step takes a render from sample k to sample k + 1 (40_synth.md R230, R231). -/
theorem Rendered.succ (r : Rendered s j len k u) (hf : s.ctl.fatal = false) (hk : k < j.cap.toNat)
    (hp : j.pcache = []) (he : j.ecache = []) : Rendered s j len (k + 1) (syStep u) := by
  obtain ⟨⟨m, frame⟩, written, outside⟩ := r
  have env : u.env = renderEnv s j k := by rw [frame]; rfl
  rw [syStep_of_render (by rw [frame]; exact hf) (by rw [frame]; rfl) (by rw [frame]; rfl) env hk hp he]
  generalize before : withHistory (renderState s.cfg j s.env (k + 1)).2
    (renderEvents s.cfg j s.env k ++ s.env.history) = e
  have epoch : e.epoch = u.env.epoch := by
    rw [env, renderEnv_epoch, ← before, ← renderEnv_epoch s j (k + 1)]
    rfl
  generalize word : renderWord s.cfg j s.env k = w
  refine ⟨⟨(writeSram (u.withEnv e) k w).mem, ?_⟩, fun i hi => ?_, fun a ha => ?_⟩
  · rw [emit_writeSram_eq frame, renderEnv_succ, word, ← before]
    rfl
  · refine (readSram_congr (s := writeSram (u.withEnv e) k w) rfl rfl i).trans ?_
    rcases Nat.lt_succ_iff_lt_or_eq.mp hi with old | rfl
    · rw [readSram_writeSram_other _ _ (by omega)]
      exact (readSram_congr (s := u) (t := u.withEnv e) rfl epoch i).trans (written i old)
    · rw [readSram_writeSram_same, word]
  · refine (readByte_congr (s := writeSram (u.withEnv e) k w) rfl rfl a).trans ?_
    rw [readByte_writeSram_other _ _ _ (by unfold sramAddr at ha ⊢; omega)]
    exact (readByte_congr (s := u) (t := u.withEnv e) rfl epoch a).trans (outside a (by unfold sramAddr at ha ⊢; omega))

/-- Before the first sample: the caches are full and nothing is written. -/
theorem rendered_zero (hi : j.i = 0) : Rendered s j len 0
    (withJob (s.withSyn { s.syn with activeLen := len, pos := 0#17, job := some j }) (some (fullJob s.cfg j))) := by
  refine ⟨⟨s.mem, ?_⟩, fun i hi => absurd hi (Nat.not_lt_zero i), fun _ _ => rfl⟩
  have first : ({ fullJob s.cfg j with i := 0, ph := (renderState s.cfg j s.env 0).1 } : Job) = fullJob s.cfg j := by
    obtain ⟨_, _, _, i, _, _, _⟩ := j
    subst hi
    rfl
  rw [renderSynth, first]
  rfl

/-- All samples up to `k`, one step each (40_synth.md R233). -/
theorem rendered_syRun (start : Rendered s j len 0 u) (hf : s.ctl.fatal = false) (hk : k ≤ j.cap.toNat)
    (hp : j.pcache = []) (he : j.ecache = []) : Rendered s j len k (syRun k u) := by
  induction k with
  | zero => exact start
  | succ k ih =>
    rw [syRun, Function.iterate_succ_apply', ← syRun]
    exact (ih (Nat.le_of_succ_le hk)).succ hf hk hp he

/-- The completion step of a render (40_synth.md R202). -/
theorem Rendered.complete (r : Rendered s j len j.cap.toNat u) (hf : s.ctl.fatal = false) :
    syStep u = pend (u.withSyn { s.syn with activeLen := len, written := j.cap, pos := j.cap, job := none }) irqSdone := by
  obtain ⟨⟨m, frame⟩, -, -⟩ := r
  have cfg : u.cfg = s.cfg := by rw [frame]; rfl
  have syn : u.syn = renderSynth s j len j.cap.toNat := by rw [frame]; rfl
  have action := synAction_fullJob s.cfg j j.cap.toNat (renderState s.cfg j s.env j.cap.toNat).1
  rw [if_neg (Nat.lt_irrefl _), if_pos rfl] at action
  rw [syStep_of_job (by rw [frame]; exact hf) (by rw [syn]; rfl), synStep, cfg, action]
  dsimp only
  rw [synComplete, syn, renderSynth, BitVec.ofNat_toNat, BitVec.setWidth_eq]
  rfl

/-- A whole render: the fill steps, a step for each sample, the completion. -/
theorem syRun_render (hf : s.ctl.fatal = false) (hi : j.i = 0) (hp : j.pcache = []) (he : j.ecache = []) (len : BitVec 17) :
    ∃ u, Rendered s j len j.cap.toNat u ∧ syRun (fillSteps s.cfg j + j.cap.toNat + 1)
      (s.withSyn { s.syn with activeLen := len, pos := 0#17, job := some j }) =
      pend (u.withSyn { s.syn with activeLen := len, written := j.cap, pos := j.cap, job := none }) irqSdone := by
  have fill := syRun_fillSteps (s := s.withSyn { s.syn with activeLen := len, pos := 0#17, job := some j }) hf hp he
  have all := rendered_syRun (rendered_zero (s := s) (len := len) hi) hf (le_refl j.cap.toNat) hp he
  refine ⟨_, all, ?_⟩
  rw [← all.complete hf, syRun, Function.iterate_succ_apply', Nat.add_comm, Function.iterate_add_apply]
  exact congrArg (fun x => syStep (syStep^[j.cap.toNat] x)) fill

end

/-- The words of a render from N on are silence (40_synth.md R229). -/
theorem renderWord_tail (p : Params) (j : Job) (e : Env) {k : Nat} (h : jobLen p j ≤ k) :
    renderWord p j e k = silence j.fmt := by
  have tail : ¬k < jobLen p { j with i := k, ph := (renderState p j e k).1 } := Nat.not_lt.mpr h
  rw [renderWord, sampleWord]
  exact congrArg Prod.fst (if_neg tail)

theorem getElem?_renderWords (p : Params) (j : Job) (e : Env) {i k : Nat} (h : i < k) :
    (renderWords p j e k)[i]? = some (renderWord p j e i) := by
  rw [renderWords, List.getElem?_map, List.getElem?_range h]
  rfl

/-- Settles O44: the fill steps, then CAP sample steps, then the completion. -/
theorem generateWritesItsSamples : Obligations.GenerateWritesItsSamples := by
  intro s legal hf idle hmax
  refine ⟨_, execSynGenerate_of_idle hf idle, ?_⟩
  have lenNat : (BitVec.ofNat 17 (jobLen s.cfg (newJob s.syn))).toNat = jobLen s.cfg (newJob s.syn) := by
    rw [BitVec.toNat_ofNat, Nat.mod_eq_of_lt (lt_of_le_of_lt (jobLen_le s.cfg (newJob s.syn)) s.syn.capacity.isLt)]
  generalize BitVec.ofNat 17 (jobLen s.cfg (newJob s.syn)) = len at lenNat
  obtain ⟨v, ⟨⟨m, frame⟩, written, outside⟩, run⟩ := syRun_render (s := s) (j := newJob s.syn) hf rfl rfl rfl len
  have words (i : Nat) (hi : i < s.syn.capacity.toNat) :
      (renderWords s.cfg (newJob s.syn) s.env s.syn.capacity.toNat)[i]? = some (readSram v i) := by
    rw [written i hi]
    exact getElem?_renderWords _ _ _ hi
  refine ⟨fillSteps s.cfg (newJob s.syn) + s.syn.capacity.toNat + 1,
    renderWords s.cfg (newJob s.syn) s.env s.syn.capacity.toNat, m, ?_, by simp [renderWords], ?_⟩
  · exact Nat.add_le_add_right (Nat.add_le_add_right ((fillSteps_le s.cfg (newJob s.syn)).trans lenNat.ge) _) 1
  · intro u
    have hu : u = _ := run
    clear_value u
    subst hu
    refine ⟨?_, words, fun i hi => getElem?_renderWords _ _ _ hi, fun i hi hc => ?_, ?_, ?_, fun a ha => ?_⟩
    · rw [frame]; rfl
    · exact (written i hc).trans (renderWord_tail _ _ _ (lenNat ▸ hi))
    · rw [frame]; rfl
    · rw [frame]; exact renderEnv_eq s (newJob s.syn) s.syn.capacity.toNat
    · exact outside a ha

end Sys2Proof.Proofs.Render
end
